-- ==== Sys2Proof/Word.lean ====
section
/-! DEFINITION. The words of the Keccak-f[1600] engine: bytes, 64-bit lanes and registers, and the 25-lane state
(spec 00_scope.md R9, R11, R12). -/

namespace Sys2Proof

/-- One byte of memory (R16). -/
abbrev Byte := BitVec 8

/-- A lane: an unsigned 64-bit integer, bit 0 the least significant (R11). -/
abbrev Lane := BitVec 64

/-- A host register value (REG_WIDTH = 64, R10). -/
abbrev Word := BitVec 64

/-- The 25 lanes; lane (x, y) is entry x + 5*y (R12). -/
abbrev Lanes := Vector Lane 25

end Sys2Proof
end

