-- ==== Sys2Proof/Machine/Memory.lean ====
section
/-! DEFINITION. Memory of the engine's port space (spec 20_memory.md R60): a list of address and byte pairs in one canonical
form, and its operations. Every access is of single bytes (R65). -/

namespace Sys2Proof.Machine

/-- What an address that is not listed reads as: 0, DESIGN CHOICE (notes/assumptions/8.md). -/
def memUnlisted : Byte := 0

/-- The canonical form: addresses strictly rising, no entry equal to what an unlisted address reads as. -/
abbrev memWf (m : List Host.Cell) : Prop :=
  m.Pairwise (fun c d => c.1 < d.1) ∧ ∀ c ∈ m, c.2 ≠ memUnlisted

/-- The byte at an address. -/
def memRead : List Host.Cell → Nat → Byte
  | [], _ => memUnlisted
  | (k, v) :: m, a => if a = k then v else if a < k then memUnlisted else memRead m a

/-- Memory with one byte written. -/
def memWrite : List Host.Cell → Nat → Byte → List Host.Cell
  | [], a, v => if v = memUnlisted then [] else [(a, v)]
  | (k, w) :: m, a, v =>
    if a < k then (if v = memUnlisted then (k, w) :: m else (a, v) :: (k, w) :: m)
    else if a = k then (if v = memUnlisted then m else (a, v) :: m)
    else (k, w) :: memWrite m a v

/-- Memory with the `n` bytes `f 0`, `f 1`, … written from `base` on. The order within a phase is open (R68); the bytes go to
distinct addresses, so no order is visible here. -/
def memFill (m : List Host.Cell) (base : Nat) (f : Nat → Byte) : Nat → List Host.Cell
  | 0 => m
  | n + 1 => memWrite (memFill m base f n) (base + n) (f n)

end Sys2Proof.Machine
end

