-- ==== Sys2Proof/Syntax.lean ====
section
/-! DEFINITION. The engine's operations ("instructions"): exactly PERMUTE and ABSORB (spec 00_scope.md R4), one constructor
per row of spec/opcode_table.json. -/

namespace Sys2Proof

/-- A command. The buffer addresses are no operands of the word: they are the latched STATE_PTR and IN_PTR (R93). -/
inductive Instr where
  /-- PERMUTE (42_commands.md R180). -/
  | permute
  /-- ABSORB n (42_commands.md R181); `len` is the word's whole 8-bit LEN field (30_encoding.md R92). -/
  | absorb (len : BitVec 8)
  deriving DecidableEq, Repr

end Sys2Proof
end

