-- ==== Sys2Proof/WellFormed.lean ====
section
/-! DEFINITION. Which terms of `Instr` are commands the engine runs: ABSORB's length is at most 200 (spec 30_encoding.md R92). -/

namespace Sys2Proof

/-- The legal range of LEN is 0 to 200 (R92); PERMUTE has no operand. -/
def Instr.wf : Instr → Bool
  | .permute => true
  | .absorb len => decide (len.toNat ≤ 200)

end Sys2Proof
end

