-- ==== Sys2Proof/Decode.lean ====
section
/-! DEFINITION. The decoder of a CMD write value, the encoder and the assembler (spec 30_encoding.md R90 to R99). -/

namespace Sys2Proof

/-- What decoding answers for a word that is no command (R94). -/
inductive DecodeError where
  /-- ILLEGAL_CMD (R97, 60_exceptions.md R211). -/
  | illegalCmd
  /-- LENGTH (60_exceptions.md R212). -/
  | length
  deriving DecidableEq, Repr

/-- OP, bits 3:0 (R90). -/
def cmdOp (w : Word) : BitVec 4 := w.extractLsb' 0 4

/-- RSV0, bits 7:4 (R90). -/
def cmdRsv0 (w : Word) : BitVec 4 := w.extractLsb' 4 4

/-- LEN, bits 15:8 (R90). -/
def cmdLen (w : Word) : BitVec 8 := w.extractLsb' 8 8

/-- RSV1, bits 31:16 (R90). -/
def cmdRsv1 (w : Word) : BitVec 16 := w.extractLsb' 16 16

/-- RSV2, bits 63:32 of the CMD write (R90). -/
def cmdRsv2 (w : Word) : BitVec 32 := w.extractLsb' 32 32

/-- Some reserved field is not 0 (R97). -/
def cmdReservedSet (w : Word) : Bool :=
  cmdRsv2 w != 0 || cmdRsv1 w != 0 || cmdRsv0 w != 0

/-- `decode(w)` of R94, total on 64-bit values, the tests in R94's order. -/
def decode (w : Word) : Except DecodeError Instr :=
  if cmdReservedSet w then .error .illegalCmd
  else if cmdOp w = 1 then
    if cmdLen w ≠ 0 then .error .illegalCmd else .ok .permute
  else if cmdOp w = 2 then
    if 200 < (cmdLen w).toNat then .error .length else .ok (.absorb (cmdLen w))
  else .error .illegalCmd

/-- The command word of an instruction as a CMD write value (R95, R99): PERMUTE is 0x00000001, ABSORB n is
0x00000002 with n in bits 15:8. -/
def encode : Instr → Word
  | .permute => 0x00000001
  | .absorb len => 0x00000002 ||| (len.setWidth 64 <<< 8)

/-- `ABSORB n` in assembler syntax: a length above 255 is rejected, since it does not fit the field (R99). -/
def assembleAbsorb (n : Nat) : Option Word :=
  if n ≤ 255 then some (encode (.absorb (BitVec.ofNat 8 n))) else none

/-- The assembler should warn about a length that assembles but raises LENGTH (R99). -/
def assembleAbsorbWarns (n : Nat) : Bool := decide (201 ≤ n ∧ n ≤ 255)

/-- A word is an ABSORB with LEN > 0, legal or too long: the commands that need IN_PTR written (10_state.md R48;
notes/assumptions/3.md). -/
def wordNeedsInput (w : Word) : Bool :=
  !cmdReservedSet w && cmdOp w == 2 && cmdLen w != 0

/-- The instruction the decoder reads from a table word: a command is one 64-bit CMD write whose bits above `nbits` are 0. -/
def decodeTableWord (nbits w : Nat) : Option Instr :=
  match decode (BitVec.ofNat 64 (w % 2 ^ nbits)) with
  | .ok i => some i
  | .error _ => none

/-! The decoder on the words of 95_test_vectors.md section 2.10, written out bit by bit from the encoding table of R90. -/

theorem decode_permute_word :
    decode 0b0000000000000000000000000000000000000000000000000000000000000001 = .ok .permute := by decide

theorem decode_absorb_word :
    decode 0b0000000000000000000000000000000000000000000000001000100000000010 = .ok (.absorb 136) := by decide

end Sys2Proof
end

