-- ==== Sys2Proof/Config.lean ====
section
/-! DEFINITION. What an implementation or a platform fixes: the OPEN parameters (spec 00_scope.md R10, 20_memory.md R60, R69, R72,
R73, 60_exceptions.md R214, 70_reset_and_hazards.md R247, R249) as plain data, and the free values, opaque constants that
nothing in Lean can evaluate. The numbers of R9 (200 state bytes, 25 lanes, 24 rounds, at most 200 input bytes) stand as
literals where they are used. -/

namespace Sys2Proof

/-- A range of port addresses, `size` bytes from `base`. -/
structure Region where
  base : Nat
  size : Nat
  deriving DecidableEq, Repr

/-- One window of PORT_MAP (20_memory.md R60): `size` host addresses from `hostBase` reach the port addresses from `portBase`. -/
structure Window where
  hostBase : Nat
  portBase : Nat
  size     : Nat
  deriving DecidableEq, Repr

/-- The platform's OPEN parameters. They stand in `State` as plain data, no step changes them, and every statement holds for
all their values (notes/assumptions/2.md). -/
structure Params where
  /-- AW, the address width of the memory port, 1 to 64 (R10). -/
  aw              : Nat
  /-- BUS_ERRORS: the memory system can reject an access (R214). -/
  busErrors       : Bool
  /-- BUS_CAN_STALL: an access can stay without an answer for ever (R249). -/
  busCanStall     : Bool
  /-- HOST_RELEASE: the host needs a primitive between its buffer writes and its CMD write (R73). -/
  hostRelease     : Bool
  /-- HOST_ACQUIRE: the host needs a primitive between its STATUS read and its reads of the result (R72). -/
  hostAcquire     : Bool
  /-- HOST_DEVICE_ORDER: the host must order its CMD write and its STATUS read itself (R247). -/
  hostDeviceOrder : Bool
  /-- PORT_MAP: how host addresses reach port addresses (R60). -/
  portMap         : List Window
  /-- Port addresses that are no ordinary memory (R69). -/
  devices         : List Region
  deriving DecidableEq, Repr

/-- The instantiation of 95_test_vectors.md section 3: AW = 32, no bus errors, no stall, no ordering primitive needed, and
host addresses equal to port addresses. DESIGN CHOICE (notes/assumptions/2.md). -/
def Params.reference : Params where
  aw := 32
  busErrors := false
  busCanStall := false
  hostRelease := false
  hostAcquire := false
  hostDeviceOrder := false
  portMap := [⟨0, 0, 2 ^ 32⟩]
  devices := []

/-- Free byte number `draw` at a port address: a racing read (20_memory.md R75), a byte of S after a BUS error in STORE
(60_exceptions.md R214) or after a reset during a command (70_reset_and_hazards.md R241). notes/assumptions/4.md. -/
opaque Config.freeByte (draw addr : Nat) : Byte

/-- Free lane number `i` of draw `draw`: what L holds outside a command (10_state.md R32). notes/assumptions/5.md. -/
opaque Config.freeLane (draw i : Nat) : Lane

/-- Free word number `i` of draw `draw`: the latched command, the round counter and an unwritten pointer register where the
spec gives no value (10_state.md R47). notes/assumptions/5.md. -/
opaque Config.freeWord (draw i : Nat) : Word

/-- RC_ROM at addresses 24 to 31, which the spec leaves open and no run reads (40_rom_and_networks.md R120). notes/assumptions/6.md. -/
opaque Config.romBeyond (i : Nat) : Lane

end Sys2Proof
end

