-- ==== Sys2Proof/Machine/State.lean ====
section
/-! DEFINITION. The state of the machine as plain data: the engine instances (spec 10_state.md R30), the memory of the port
space (20_memory.md R60), the platform's parameters and answers, what the host has issued and not yet ordered, and the
agenda of what acts next; and the state right after reset (R47). -/

namespace Sys2Proof.Machine

/-- The sequencer's phases (R33). -/
inductive Phase where
  | idle
  | check
  | load
  | round
  | store
  deriving DecidableEq, Repr

/-- The error codes 0 to 4 (60_exceptions.md R210); codes 5 to 15 are never written, so they are no constructors. -/
inductive ErrCode where
  | noError
  | illegalCmd
  | length
  | range
  | bus
  deriving DecidableEq, Repr

/-- What the memory system answers to the accesses of one LOAD or one STORE phase (60_exceptions.md R214,
70_reset_and_hazards.md R249). -/
inductive BusReply where
  /-- Every access of the phase succeeds. -/
  | ok
  /-- Some access of the phase is rejected. -/
  | error
  /-- Some access of the phase never completes. -/
  | hang
  deriving DecidableEq, Repr

/-- Who accesses memory: the host through PORT_MAP, or another agent on the port (20_memory.md R75). -/
inductive Agent where
  | host
  | other
  deriving DecidableEq, Repr

/-- What can happen next (60_exceptions.md R222); instance number 0 is `eng`, number k + 1 is `others[k]`. -/
inductive Event where
  /-- The instance takes one step of its sequencer (10_state.md R33). -/
  | engineStep (k : Nat)
  /-- The instance's reset input is asserted (70_reset_and_hazards.md R240). -/
  | reset (k : Nat)
  /-- A write of `size` bytes of value `v` at a host register space address (10_state.md R37). -/
  | regWrite (addr size : Nat) (v : Word)
  /-- A read of `size` bytes at a host register space address (10_state.md R37). -/
  | regRead (addr size : Nat)
  /-- The host's `wait` on the block at `base` (30_encoding.md R100). -/
  | wait (base : Nat)
  /-- A byte written to memory by an agent other than the engines. -/
  | memWrite (who : Agent) (addr : Nat) (v : Byte)
  /-- A byte of memory read by an agent other than the engines. -/
  | memRead (who : Agent) (addr : Nat)
  /-- The host's HOST_RELEASE primitive (20_memory.md R73). -/
  | hostRelease
  /-- The host's HOST_ACQUIRE primitive (20_memory.md R72). -/
  | hostAcquire
  /-- The host's HOST_DEVICE_ORDER primitive (70_reset_and_hazards.md R247). -/
  | hostDeviceOrder
  deriving DecidableEq, Repr

/-- One engine instance: all of the state of R30, and its place on the platform. -/
structure Engine where
  /-- ENG_BASE of this instance (R10, R37). -/
  base            : Nat
  /-- The lane register file L (R31). -/
  lanes           : Lanes
  /-- The sequencer's phase (R33). -/
  phase           : Phase
  /-- The round counter (R33, R46). -/
  round           : BitVec 5
  /-- The latched command: the whole CMD value (R34). CMD itself is write-only and reads 0 (R38): this is its only storage. -/
  curW            : Word
  /-- The latched CMD[3:0] (R34). -/
  curOp           : BitVec 4
  /-- The latched CMD[15:8] (R34). -/
  curLen          : BitVec 8
  /-- The latched STATE_PTR, AW bits (R34). -/
  curSp           : Word
  /-- The latched IN_PTR, AW bits (R34). -/
  curIp           : Word
  /-- STATUS: BUSY bit 0, DONE bit 1, ERR bits 7:4, the rest 0 (R39 to R42). -/
  status          : Word
  /-- STATE_PTR (R43). -/
  statePtr        : Word
  /-- IN_PTR (R44). -/
  inPtr           : Word
  /-- The host has written STATE_PTR since reset (R48). -/
  statePtrWritten : Bool
  /-- The host has written IN_PTR since reset (R48). -/
  inPtrWritten    : Bool
  /-- The model's own field: the platform's answers to this instance's coming LOAD and STORE phases; none listed means all succeed. -/
  bus             : List BusReply
  deriving DecidableEq, Repr

/-- A state buffer an instance has stored and whose completion the host has not ordered yet (20_memory.md R72). -/
structure HostResult where
  /-- ENG_BASE of the instance. -/
  base  : Nat
  /-- Port addresses of the bytes whose last STORE was this one and which the host has not written since. -/
  bytes : List Nat
  /-- A STATUS read has returned DONE = 1, and HOST_ACQUIRE is still to come. -/
  seen  : Bool
  deriving DecidableEq, Repr

/-- The model's own record of the host's side of the handshake (20_memory.md R72, R73, 70_reset_and_hazards.md R247). -/
structure HostView where
  /-- Port addresses the host has written since its last HOST_RELEASE. -/
  unreleased : List Nat
  /-- ENG_BASE of the instances with a CMD write not followed by HOST_DEVICE_ORDER. -/
  unordered  : List Nat
  /-- Stored results the host has not ordered. -/
  results    : List HostResult
  /-- The value the last read returned, zero-extended. -/
  readData   : Word
  deriving DecidableEq, Repr

/-- The whole machine. -/
structure State where
  /-- The platform's parameters (R10). -/
  params   : Params
  /-- Instance number 0; a meaning acts on the instance that stands here. -/
  eng      : Engine
  /-- The other instances, so that N_ENGINES = 1 + others.length (R10, R50). -/
  others   : List Engine
  /-- Memory of the port space, addresses strictly rising, no entry equal to 0 (20_memory.md R60). -/
  mem      : List Host.Cell
  /-- What acts next, first entry first; when it is empty no outside agent acts and the engines run on. -/
  agenda   : List Event
  /-- The host's side of the handshake. -/
  host     : HostView
  /-- Every nonzero completion code, oldest first (60_exceptions.md R220). -/
  faultLog : List ErrCode
  /-- The model's own counter of free values drawn. -/
  draws    : Nat
  deriving DecidableEq, Repr

/-- Why the machine stops with a fault. -/
inductive Fault where
  /-- A memory access at a host address outside PORT_MAP or a port address of 2^AW or more (20_memory.md R60), raised by
  `agentWrite` and `agentRead`. Safe: the run stops. -/
  | noSuchAddress
  deriving DecidableEq, Repr

/-- Why the model gives a run no meaning: each is a refusal the spec itself asks for, or an event that is no engine event. -/
inductive Refusal where
  /-- An instruction without a meaning; no arm raises it. Safe. -/
  | notModelled (mnemonic : String)
  /-- A CMD write while BUSY = 1 (70_reset_and_hazards.md R244), raised by `writeCmd`. Safe. -/
  | cmdWhileBusy
  /-- A use of STATE_PTR or IN_PTR before its first write (10_state.md R48), raised by `writeCmd` and `readReg`. Safe. -/
  | unwrittenPointer
  /-- An access to the block that is no aligned 64-bit access at one of the four offsets (10_state.md R37), raised by
  `hostWrite` and `hostRead`. Safe. -/
  | badRegisterAccess
  /-- A register access at an address of no instance's block (20_memory.md R70), raised by `hostWrite` and `hostRead`. Safe. -/
  | outsideBlock
  /-- An event for an instance the platform does not have, raised by `withEngine`. Safe. -/
  | noSuchEngine
  /-- A buffer in memory with read side effects, or an agent's access there (20_memory.md R69), raised by `loadPhase`,
  `agentWrite` and `agentRead`. Safe. -/
  | deviceMemory
  /-- A write to S or IN of a busy instance (20_memory.md R75), raised by `storePhase` and `agentWrite`. Safe. -/
  | racingWrite
  /-- A CMD write whose buffers hold host writes not released (20_memory.md R73), raised by `writeCmd`. Safe. -/
  | missingRelease
  /-- A host read of a result not acquired (20_memory.md R72), raised by `agentRead`. Safe. -/
  | missingAcquire
  /-- A STATUS read not ordered after the CMD write (70_reset_and_hazards.md R247), raised by `readReg`. Safe. -/
  | missingDeviceOrder
  /-- A ROUND step with `round` of 24 to 31 (40_rom_and_networks.md R120), which no run reaches, raised by `engineStep`. Safe. -/
  | romAddress
  deriving DecidableEq, Repr

/-- An instance right after reset (R47): phase IDLE, STATUS 0, both pointers unwritten. The spec gives L, the round counter,
the latched command and the pointers no value: they hold 0 here, DESIGN CHOICE (notes/assumptions/7.md). -/
def Engine.reset (base : Nat) : Engine where
  base := base
  lanes := Vector.replicate 25 0
  phase := .idle
  round := 0
  curW := 0
  curOp := 0
  curLen := 0
  curSp := 0
  curIp := 0
  status := 0
  statePtr := 0
  inPtr := 0
  statePtrWritten := false
  inPtrWritten := false
  bus := []

/-- The machine right after reset: one instance, the reference platform, memory with nothing listed, nothing on the agenda. -/
def State.reset : State where
  params := Params.reference
  eng := Engine.reset 0
  others := []
  mem := []
  agenda := []
  host := ⟨[], [], [], 0⟩
  faultLog := []
  draws := 0

end Sys2Proof.Machine
end

