-- ==== Sys2Proof/Machine/Flags.lean ====
section
/-! DEFINITION. The STATUS register's fields and the error codes (spec 10_state.md R39 to R42, 60_exceptions.md R210). The
engine has no condition codes (R45): these are its only status bits. -/

namespace Sys2Proof.Machine

/-- The code STATUS.ERR shows (R210). -/
def errCode : ErrCode → BitVec 4
  | .noError => 0
  | .illegalCmd => 1
  | .length => 2
  | .range => 3
  | .bus => 4

/-- The error a failed decoding raises (60_exceptions.md R211, R212). -/
def decodeErrCode : DecodeError → ErrCode
  | .illegalCmd => .illegalCmd
  | .length => .length

/-- STATUS as a 64-bit value: ERR << 4, DONE << 1, BUSY, reserved bits 0 (R39 to R42). -/
def mkStatus (busy done : Bool) (err : BitVec 4) : Word :=
  err.setWidth 64 <<< 4 ||| (BitVec.ofBool done).setWidth 64 <<< 1 ||| (BitVec.ofBool busy).setWidth 64

/-- STATUS.BUSY, bit 0 (R39). -/
def statusBusy (w : Word) : Bool := w.getLsbD 0

/-- STATUS.DONE, bit 1 (R40). -/
def statusDone (w : Word) : Bool := w.getLsbD 1

/-- STATUS.ERR, bits 7:4 (R41). -/
def statusErr (w : Word) : BitVec 4 := w.extractLsb' 4 4

/-- The instance is busy: STATUS.BUSY = 1. -/
def Engine.busy (e : Engine) : Bool := statusBusy e.status

end Sys2Proof.Machine
end

