-- ==== Sys2Proof/Machine/Operands.lean ====
section
/-! DEFINITION. The operands of a command (spec 30_encoding.md R93): the state buffer and the input slice as ranges of port
addresses, the range check (60_exceptions.md R213), and what a busy instance owns (20_memory.md R75). -/

namespace Sys2Proof.Machine

/-- The bits [AW-1:0] of a pointer; the bits above are write-ignored and read as 0 (10_state.md R43, R44). -/
def maskAddr (aw : Nat) (w : Word) : Word := BitVec.ofNat 64 (w.toNat % 2 ^ aw)

/-- The port address of S[0] (20_memory.md R61). -/
def Engine.spAddr (e : Engine) : Nat := e.curSp.toNat

/-- The port address of IN[0] (20_memory.md R62). -/
def Engine.ipAddr (e : Engine) : Nat := e.curIp.toNat

/-- The length of an instruction's input slice: PERMUTE has none (20_memory.md R62). -/
def instrInLen : Instr → Nat
  | .permute => 0
  | .absorb len => len.toNat

/-- How many input bytes LOAD reads for the latched command (42_commands.md R184). -/
def Engine.inLen (e : Engine) : Nat := if e.curOp = 2 then e.curLen.toNat else 0

/-- The length of IN, the latched command's input slice (20_memory.md R62): only an ABSORB of 0 to 200 bytes has one, so that a
word CHECK will find illegal or too long uses IN_PTR for nothing (10_state.md R44; notes/assumptions/14.md). -/
def Engine.sliceLen (e : Engine) : Nat :=
  match decode e.curW with
  | .ok i => instrInLen i
  | .error _ => 0

/-- RANGE (60_exceptions.md R213): S, or IN where it is not empty, would pass 2^AW − 1; on unbounded integers. -/
def rangeFails (aw sp ip n : Nat) : Bool :=
  decide (2 ^ aw < sp + 200) || (decide (0 < n) && decide (2 ^ aw < ip + n))

/-- Two ranges of addresses share one. -/
def rangesOverlap (a la b lb : Nat) : Bool :=
  decide (0 < la) && decide (0 < lb) && decide (a < b + lb) && decide (b < a + la)

/-- The address lies in the range. -/
def inRange (a base len : Nat) : Bool := decide (base ≤ a) && decide (a < base + len)

/-- The address is a byte of S of this instance's running command (20_memory.md R61, R75; notes/assumptions/14.md). -/
def Engine.ownsState (e : Engine) (a : Nat) : Bool := e.busy && inRange a e.spAddr 200

/-- The address is a byte of IN of this instance's running command (20_memory.md R75). -/
def Engine.ownsInput (e : Engine) (a : Nat) : Bool := e.busy && inRange a e.ipAddr e.sliceLen

/-- Writing any of these bytes races with this instance's running command (20_memory.md R75). -/
def Engine.writeRaces (e : Engine) (base len : Nat) : Bool :=
  e.busy && (rangesOverlap base len e.spAddr 200 || rangesOverlap base len e.ipAddr e.sliceLen)

/-- S or IN touches memory with read side effects (20_memory.md R69). -/
def touchesDevice (p : Params) (sp ip n : Nat) : Bool :=
  p.devices.any fun d => rangesOverlap sp 200 d.base d.size || rangesOverlap ip n d.base d.size

end Sys2Proof.Machine
end

