-- ==== Sys2Proof/Machine/Rom.lean ====
section
/-! DEFINITION. The fixed resources of spec 40_rom_and_networks.md: the round-constant ROM, the rotator, the Rho offsets and
the Pi and combined Rho-Pi wiring, with the informative derivations R122 and R126 that the tables are checked against. -/

namespace Sys2Proof.Machine

/-- The 24 round constants (R121). -/
def rcTable : List Lane :=
  [0x0000000000000001, 0x0000000000008082, 0x800000000000808A, 0x8000000080008000,
   0x000000000000808B, 0x0000000080000001, 0x8000000080008081, 0x8000000000008009,
   0x000000000000008A, 0x0000000000000088, 0x0000000080008009, 0x000000008000000A]
  ++
  [0x000000008000808B, 0x800000000000008B, 0x8000000000008089, 0x8000000000008003,
   0x8000000000008002, 0x8000000000000080, 0x000000000000800A, 0x800000008000000A,
   0x8000000080008081, 0x8000000000008080, 0x0000000080000001, 0x8000000080008008]

/-- RC_ROM(i) (R120); what stands at 24 and above is open and never read. -/
def rcRom (i : Nat) : Lane :=
  match rcTable[i]? with
  | some c => c
  | none => Config.romBeyond i

/-- `rotl64(v, n)` (R124), for any n by n mod 64. -/
def rotl64 (v : Lane) (n : Nat) : Lane :=
  if n % 64 = 0 then v else v <<< (n % 64) ||| v >>> (64 - n % 64)

/-- The Rho rotation offsets by flat index i = x + 5*y (R125). -/
def rhoTable : List Nat :=
  [0, 1, 62, 28, 27, 36, 44, 6, 55, 20, 3, 10, 43, 25, 39, 41, 45, 15, 21, 8, 18, 2, 61, 56, 14]

/-- RHO[i], the rotation of lane i (R125). -/
def rhoOffset (i : Nat) : Nat := rhoTable.getD i 0

/-- PI_DST: source lane i goes to destination lane `piDst i` (R128). -/
def piDstTable : List Nat :=
  [0, 10, 20, 5, 15, 16, 1, 11, 21, 6, 7, 17, 2, 12, 22, 23, 8, 18, 3, 13, 14, 24, 9, 19, 4]

/-- PI_DST[i] (R128). -/
def piDst (i : Nat) : Nat := piDstTable.getD i 0

/-- The combined Rho-Pi network: for destination j, its source lane and the rotation (R129). -/
def rhoPiTable : List (Nat × Nat) :=
  [(0, 0), (6, 44), (12, 43), (18, 21), (24, 14), (3, 28), (9, 20), (10, 3), (16, 45), (22, 61), (1, 1), (7, 6), (13, 25)]
  ++
  [(19, 8), (20, 18), (4, 27), (5, 36), (11, 10), (17, 15), (23, 56), (2, 62), (8, 55), (14, 39), (15, 41), (21, 2)]

/-- One turn of R122's shift register; R[k] is bit k. -/
def lfsrStep (r : BitVec 8) : BitVec 8 :=
  let r9 : BitVec 9 := r.setWidth 9 <<< 1
  let r8 : BitVec 8 := r9.setWidth 8
  if r9.getLsbD 8 then r8 ^^^ 0b01110001 else r8

/-- `rc(t)` of R122: R[0] after t mod 255 turns from R[0] = 1. -/
def lfsrBit (t : Nat) : Bool := ((lfsrStep^[t % 255]) 1).getLsbD 0

/-- RC_ROM(i) as R122 derives it: bit 2^j − 1 is rc(j + 7*i), for j = 0..6. -/
def rcDerived (i : Nat) : Lane :=
  (List.range 7).foldl (fun acc j => acc ||| (BitVec.ofBool (lfsrBit (j + 7 * i))).setWidth 64 <<< (2 ^ j - 1)) 0

/-- The position after t moves of R126's walk from (1, 0). -/
def rhoWalk : Nat → Nat × Nat
  | 0 => (1, 0)
  | t + 1 => ((rhoWalk t).2, (2 * (rhoWalk t).1 + 3 * (rhoWalk t).2) % 5)

end Sys2Proof.Machine
end

