-- ==== Sys2Proof/Machine/Round.lean ====
section
/-! DEFINITION. The round function and the 24-round permutation (spec 41_round_function.md): the five step mappings, each
reading the lanes from before the step (00_scope.md R15), the round, F, and the fused form of R158. -/

namespace Sys2Proof.Machine

/-- The 25 lanes given by flat index. -/
@[irreducible] def lanesOf (f : Nat → Lane) : Lanes := Vector.ofFn fun i => f i.val

/-- A[x,y], the coordinates taken modulo 5 (R12). -/
def lane (A : Lanes) (x y : Nat) : Lane := A[x % 5 + 5 * (y % 5)]'(by omega)

/-- The 25 lanes given by column x and row y (R12). -/
def lanesXY (f : Nat → Nat → Lane) : Lanes := lanesOf fun i => f (i % 5) (i / 5)

/-- C[x], the parity of column x (R150). -/
def columnParity (A : Lanes) (x : Nat) : Lane :=
  lane A x 0 ^^^ lane A x 1 ^^^ lane A x 2 ^^^ lane A x 3 ^^^ lane A x 4

/-- D[x], one value per column (R150, R130, 90_conflicts.md C2). -/
def thetaEffect (A : Lanes) (x : Nat) : Lane :=
  columnParity A (x + 4) ^^^ rotl64 (columnParity A (x + 1)) 1

/-- THETA (R150). -/
def theta (A : Lanes) : Lanes := lanesXY fun x y => lane A x y ^^^ thetaEffect A x

/-- RHO (R151). -/
def rho (A : Lanes) : Lanes := lanesXY fun x y => rotl64 (lane A x y) (rhoOffset (x + 5 * y))

/-- PI (R152, R127): A'[X,Y] = A[(X + 3Y) mod 5, X]. -/
def pi (A : Lanes) : Lanes := lanesXY fun x y => lane A (x + 3 * y) x

/-- CHI (R153, R131), every right-hand side reading the row as it was before (90_conflicts.md C1). -/
def chi (A : Lanes) : Lanes :=
  lanesXY fun x y => lane A x y ^^^ (~~~ lane A (x + 1) y &&& lane A (x + 2) y)

/-- IOTA with the constant c: lane (0,0) alone changes (R154). -/
def iotaWith (c : Lane) (A : Lanes) : Lanes :=
  lanesXY fun x y => if x = 0 ∧ y = 0 then lane A x y ^^^ c else lane A x y

/-- IOTA with round index i (R154). -/
def iota (A : Lanes) (i : Nat) : Lanes := iotaWith (rcRom i) A

/-- Rnd(A, i) (R155). -/
def rnd (A : Lanes) (i : Nat) : Lanes := iota (chi (pi (rho (theta A)))) i

/-- The first n rounds, with round indices 0, …, n − 1 in increasing order (R157). -/
def roundsF (A : Lanes) : Nat → Lanes
  | 0 => A
  | n + 1 => rnd (roundsF A n) n

/-- F, the 24-round permutation (R157). -/
@[irreducible] def keccakF (A : Lanes) : Lanes := roundsF A 24

/-- B[j] of the fused form, from the combined network of 40_rom_and_networks.md R129 (R158). -/
def fusedB (A : Lanes) (j : Nat) : Lane :=
  let p := rhoPiTable.getD j (0, 0)
  rotl64 (lane A (p.1 % 5) (p.1 / 5) ^^^ thetaEffect A (p.1 % 5)) p.2

/-- The round as one pass (R158): held to `rnd`, which is the definition. -/
def fusedRnd (A : Lanes) (i : Nat) : Lanes :=
  lanesXY fun x y =>
    let v := fusedB A (x + 5 * y) ^^^ (~~~ fusedB A ((x + 1) % 5 + 5 * y) &&& fusedB A ((x + 2) % 5 + 5 * y))
    if x = 0 ∧ y = 0 then v ^^^ rcRom i else v

end Sys2Proof.Machine
end

