-- ==== Sys2Proof/Machine/Ops.lean ====
section
/-! DEFINITION. The shared operations: the Lane Store's byte order (spec 20_memory.md R63), the phases LOAD, ROUND and STORE
(42_commands.md R184 to R186), and completion (R187), which is also how an error is taken, since the engine has no trap
(60_exceptions.md R218). They act on the instance `eng`. -/

namespace Sys2Proof.Machine

/-! ### Outcomes -/

/-- Go on from a next state; a fault or a refusal ends the step. -/
def andThen (o : Host.Outcome State Fault Refusal) (f : State → Host.Outcome State Fault Refusal) :
    Host.Outcome State Fault Refusal :=
  match o with
  | .next s => f s
  | .fault r => .fault r
  | .refused r => .refused r

/-! ### Lanes and bytes (20_memory.md R63) -/

/-- LE64 of eight bytes (00_scope.md R16). -/
def le64 (b : Nat → Byte) : Lane :=
  (b 0).setWidth 64 ||| (b 1).setWidth 64 <<< 8 ||| (b 2).setWidth 64 <<< 16 ||| (b 3).setWidth 64 <<< 24 |||
  (b 4).setWidth 64 <<< 32 ||| (b 5).setWidth 64 <<< 40 ||| (b 6).setWidth 64 <<< 48 ||| (b 7).setWidth 64 <<< 56

/-- The lanes of a 200-byte state: L[i] = LE64(S[8i], …, S[8i+7]). -/
def lanesFromBytes (s : Nat → Byte) : Lanes := lanesOf fun i => le64 fun j => s (8 * i + j)

/-- Byte k of a state: S[8i+j] = L[i][8j+7 : 8j]. -/
def laneByte (A : Lanes) (k : Nat) : Byte := (lane A (k / 8 % 5) (k / 8 / 5)).extractLsb' (8 * (k % 8)) 8

/-- Memory with the 200 bytes from `sp` holding the lanes (42_commands.md R186). -/
@[irreducible] def storeLanes (m : List Host.Cell) (sp : Nat) (A : Lanes) : List Host.Cell :=
  memFill m sp (laneByte A) 200

/-! ### Free values where the spec gives none (10_state.md R32, R47) -/

/-- The latched command keeps no architectural value (R187). -/
def forgetLatch (aw draw : Nat) (e : Engine) : Engine :=
  { e with
    curW := Config.freeWord draw 1
    curOp := (Config.freeWord draw 2).setWidth 4
    curLen := (Config.freeWord draw 3).setWidth 8
    curSp := maskAddr aw (Config.freeWord draw 4)
    curIp := maskAddr aw (Config.freeWord draw 5) }

/-- L and the round counter keep no architectural value (R187); the counter only ever holds 0..23 (10_state.md R33). -/
def forgetLanes (draw : Nat) (e : Engine) : Engine :=
  { e with
    lanes := lanesOf (Config.freeLane draw)
    round := BitVec.ofNat 5 ((Config.freeWord draw 0).toNat % 24) }

/-- Memory with the bytes of a state buffer free (60_exceptions.md R214, 70_reset_and_hazards.md R241), within the space. -/
@[irreducible] def freeState (aw draw sp : Nat) (m : List Host.Cell) : List Host.Cell :=
  memFill m sp (fun k => Config.freeByte draw (sp + k)) (min 200 (2 ^ aw - sp))

/-! ### Acceptance and completion -/

/-- The latched command and STATUS at acceptance, one atomic update (42_commands.md R182). -/
def latch (aw : Nat) (w : Word) (e : Engine) : Engine :=
  { e with
    curW := w
    curOp := cmdOp w
    curLen := cmdLen w
    curSp := maskAddr aw e.statePtr
    curIp := maskAddr aw e.inPtr
    status := mkStatus true false 0
    phase := .check }

/-- Completion with an error code, one atomic update (R187): STATUS, the phase, and the model's fault log (60_exceptions.md R220).
L is not written (R216). -/
def complete (err : ErrCode) (s : State) : State :=
  { s with
    eng := { forgetLatch s.params.aw s.draws s.eng with
      status := mkStatus false true (errCode err)
      phase := .idle }
    faultLog := if err = .noError then s.faultLog else s.faultLog ++ [err]
    draws := s.draws + 1 }

/-- Completion from LOAD or STORE: L and the round counter are gone too (R187). -/
def completeRun (err : ErrCode) (s : State) : State :=
  complete err { s with eng := forgetLanes s.draws s.eng }

/-! ### The memory system -/

/-- What the platform answers to the coming phase: a rejection only where BUS_ERRORS holds (60_exceptions.md R214), no answer
for ever only where BUS_CAN_STALL holds (70_reset_and_hazards.md R249). -/
def busReply (p : Params) (bus : List BusReply) : BusReply :=
  match bus with
  | [] => .ok
  | .ok :: _ => .ok
  | .error :: _ => if p.busErrors then .error else .ok
  | .hang :: _ => if p.busCanStall then .hang else .ok

/-- The platform's answer is used up. -/
def popBus (s : State) : State := { s with eng := { s.eng with bus := s.eng.bus.tail } }

/-- One engine read (20_memory.md R65): a byte of another busy instance's S is a racing read, free value `draw` (R75, R76). -/
def portRead (others : List Engine) (mem : List Host.Cell) (draw a : Nat) : Byte :=
  if others.any (fun e => e.ownsState a) then Config.freeByte draw a else memRead mem a

/-- Byte k of the Lane Store's view `s` in LOAD: the state byte, with input byte k XORed in for k < n (42_commands.md R184).
The input is read as it was before the command, also where it overlaps S (20_memory.md R67). -/
def loadByte (others : List Engine) (mem : List Host.Cell) (draw sp ip n k : Nat) : Byte :=
  if k < n then portRead others mem draw (sp + k) ^^^ portRead others mem (draw + 1) (ip + k)
  else portRead others mem draw (sp + k)

/-- Another busy instance owns a byte of this command's S, which STORE would write (20_memory.md R75, R76). -/
def storeRaces (others : List Engine) (sp : Nat) : Bool := others.any fun e => e.writeRaces sp 200

/-! ### The phases -/

/-- LOAD with an input of n bytes (42_commands.md R184). -/
def loadPhase (n : Nat) (s : State) : Host.Outcome State Fault Refusal :=
  if touchesDevice s.params s.eng.spAddr s.eng.ipAddr n then .refused .deviceMemory
  else
    match busReply s.params s.eng.bus with
    | .hang => .next { s with eng := { s.eng with phase := .load } }
    | .error => .next (completeRun .bus (popBus s))
    | .ok =>
      .next { popBus s with
        eng := { (popBus s).eng with
          lanes := lanesFromBytes (loadByte s.others s.mem s.draws s.eng.spAddr s.eng.ipAddr n)
          round := 0
          phase := .round }
        draws := s.draws + 2 }

/-- One ROUND step with a round index of 0 to 23 (41_round_function.md R156). -/
def roundStep (s : State) : State :=
  let L := rnd s.eng.lanes s.eng.round.toNat
  if s.eng.round.toNat < 23 then { s with eng := { s.eng with lanes := L, round := s.eng.round + 1 } }
  else { s with eng := { s.eng with lanes := L, phase := .store } }

/-- The ROUND phase as a whole (42_commands.md R185). -/
def roundPhase (s : State) : State :=
  { s with eng := { s.eng with lanes := keccakF s.eng.lanes, round := 23, phase := .store } }

/-- The records without the bytes `p` picks, and without a record that is left with none. -/
def dropBytes (p : Nat → Bool) (l : List HostResult) : List HostResult :=
  (l.map fun r => { r with bytes := r.bytes.filter fun a => !p a }).filter fun r => !r.bytes.isEmpty

/-- The host does not know yet that this buffer is stored; an older result in the same bytes is gone, since R72 speaks of the
value the last STORE wrote (20_memory.md R72). -/
def recordResult (s : State) : State :=
  { s with host := { s.host with
    results := dropBytes (fun a => inRange a s.eng.spAddr 200) s.host.results ++
      [⟨s.eng.base, (List.range 200).map fun k => s.eng.spAddr + k, false⟩] } }

/-- STORE (42_commands.md R186). A buffer that overlaps S or IN of another busy instance is refused whatever the memory system
answers: where it rejects a write or never completes one, the spec leaves open which bytes were written, and so whether a race
occurred; the model's choice (notes/assumptions/24.md). -/
def storePhase (s : State) : Host.Outcome State Fault Refusal :=
  if storeRaces s.others s.eng.spAddr then .refused .racingWrite
  else
    match busReply s.params s.eng.bus with
    | .hang => .next { s with eng := { s.eng with phase := .store } }
    | .error =>
      .next (completeRun .bus (recordResult { popBus s with
        mem := freeState s.params.aw s.draws s.eng.spAddr s.mem
        draws := s.draws + 1 }))
    | .ok =>
      .next (completeRun .noError (recordResult { popBus s with
        mem := storeLanes s.mem s.eng.spAddr s.eng.lanes }))

/-- A command whose word decoded, as one transaction (42_commands.md R188): the range check, LOAD, the rounds and STORE. It
ends early where LOAD ends with a bus error or never ends. -/
def runCommand (n : Nat) (s : State) : Host.Outcome State Fault Refusal :=
  if rangeFails s.params.aw s.eng.spAddr s.eng.ipAddr n then .next (complete .range s)
  else
    andThen (loadPhase n s) fun t =>
      if t.eng.phase = .round then storePhase (roundPhase t) else .next t

/-! ### Reset (70_reset_and_hazards.md R240, R241) -/

/-- The instance's registers after reset (10_state.md R47): phase IDLE, STATUS 0, the pointers unwritten, and free values where
the spec gives none. The answer of an access that never completes goes with the aborted command. -/
def engineAfterReset (aw draw : Nat) (e : Engine) : Engine :=
  { forgetLanes draw (forgetLatch aw draw e) with
    phase := .idle
    status := 0
    statePtr := maskAddr aw (Config.freeWord draw 6)
    inPtr := maskAddr aw (Config.freeWord draw 7)
    statePtrWritten := false
    inPtrWritten := false
    bus := if (e.phase = .load ∨ e.phase = .store) ∧ e.bus.head? = some .hang then e.bus.tail else e.bus }

/-- Reset of the instance `eng`: a running command is aborted and every byte of its S is free; memory is untouched otherwise. -/
def resetEngine (s : State) : State :=
  { s with
    eng := engineAfterReset s.params.aw s.draws s.eng
    mem := if s.eng.busy then freeState s.params.aw s.draws s.eng.spAddr s.mem else s.mem
    draws := s.draws + 1 }

/-! ### Choosing an instance (10_state.md R50, 60_exceptions.md R226) -/

/-- Exchange `eng` with `others[j]`. -/
def swapEngine (j : Nat) (s : State) : State :=
  match s.others[j]? with
  | some e => { s with eng := e, others := s.others.set j s.eng }
  | none => s

/-- The machine with instance k at `eng`. -/
def focus : Nat → State → State
  | 0, s => s
  | j + 1, s => swapEngine j s

/-- Let instance k act: number 0 is `eng`, number j + 1 is `others[j]`, which stands at `eng` while it acts. -/
def withEngine : Nat → (State → Host.Outcome State Fault Refusal) → State → Host.Outcome State Fault Refusal
  | 0, f, s => f s
  | j + 1, f, s =>
    if j < s.others.length then andThen (f (swapEngine j s)) fun t => .next (swapEngine j t)
    else .refused .noSuchEngine

end Sys2Proof.Machine
end

