-- ==== Sys2Proof/Machine/Commands.lean ====
section
/-! DEFINITION. The meanings of PERMUTE and ABSORB (spec 42_commands.md R180, R181): the whole command from CHECK to
completion, on the latched pointers of the instance `eng`. -/

namespace Sys2Proof.Machine

/-- PERMUTE (R180): no input slice, IN_PTR neither read nor checked. -/
def execPermute (s : State) : Host.Outcome State Fault Refusal := runCommand 0 s

/-- ABSORB n (R181): LENGTH where n > 200 (60_exceptions.md R212), before any other check but the decoding (R215). -/
def execAbsorb (len : BitVec 8) (s : State) : Host.Outcome State Fault Refusal :=
  if 200 < len.toNat then .next (complete .length s) else runCommand len.toNat s

end Sys2Proof.Machine
end

