-- ==== Sys2Proof/Machine/Dispatch.lean ====
section
/-! DEFINITION. The dispatch of an instruction to its meaning, one arm per constructor. -/

namespace Sys2Proof.Machine

def exec (i : Instr) (s : State) : Host.Outcome State Fault Refusal :=
  match i with
  | .permute => Sys2Proof.Machine.execPermute s
  | .absorb len => Sys2Proof.Machine.execAbsorb len s

end Sys2Proof.Machine
end

