-- ==== Sys2Proof/Machine/Sequencer.lean ====
section
/-! DEFINITION. The sequencer of one instance (spec 10_state.md R33) in its phased form, one step at a time, and the form in
which a command runs as one transaction where no other agent acts (42_commands.md R188). -/

namespace Sys2Proof.Machine

/-- CHECK (42_commands.md R183): decoding, then the range check; the first failing one completes the command with its error and
no memory access (60_exceptions.md R215, R216). -/
def checkPhase (s : State) : State :=
  match decode s.eng.curW with
  | .error e => complete (decodeErrCode e) s
  | .ok i =>
    if rangeFails s.params.aw s.eng.spAddr s.eng.ipAddr (instrInLen i) then complete .range s
    else { s with eng := { s.eng with phase := .load } }

/-- One step of the sequencer (R33); in IDLE nothing happens (70_reset_and_hazards.md R240). -/
def engineStep (s : State) : Host.Outcome State Fault Refusal :=
  match s.eng.phase with
  | .idle => .next s
  | .check => .next (checkPhase s)
  | .load => loadPhase s.eng.inLen s
  | .round => if s.eng.round.toNat < 24 then .next (roundStep s) else .refused .romAddress
  | .store => storePhase s

/-- `n` steps of the sequencer. -/
def engineSteps : Nat → State → Host.Outcome State Fault Refusal
  | 0, s => .next s
  | n + 1, s => andThen (engineStep s) (engineSteps n)

/-- The instance runs on while no outside agent acts: a command that stands at CHECK is decoded and runs as one transaction,
one that is further on takes its next step. -/
def autoStep (s : State) : Host.Outcome State Fault Refusal :=
  if s.eng.phase = .check then
    match decode s.eng.curW with
    | .ok i => exec i s
    | .error e => .next (complete (decodeErrCode e) s)
  else engineStep s

/-- The instance at `eng` waits for an access that never completes (70_reset_and_hazards.md R249): its step changes nothing. -/
def standsStill (s : State) : Bool :=
  match s.eng.phase with
  | .load => !touchesDevice s.params s.eng.spAddr s.eng.ipAddr s.eng.inLen && busReply s.params s.eng.bus == .hang
  | .store => !storeRaces s.others s.eng.spAddr && busReply s.params s.eng.bus == .hang
  | _ => false

/-- The first busy instance that can take its next step: one that stands still keeps no other from it (R249). -/
def nextToRun (s : State) : Option Nat :=
  (List.range (s.others.length + 1)).find? fun k => (focus k s).eng.busy && !standsStill (focus k s)

/-- No outside agent acts: the busy instances run on, each in a bounded number of steps, the first that can step before the
others (70_reset_and_hazards.md R249; notes/assumptions/16.md); with none that can, nothing happens. -/
def runEngines (s : State) : Host.Outcome State Fault Refusal :=
  match nextToRun s with
  | some k => withEngine k autoStep s
  | none => .next s

end Sys2Proof.Machine
end

