-- ==== Sys2Proof/Machine/HostPort.lean ====
section
/-! DEFINITION. What the outside does to the machine: accesses to the host register blocks (spec 10_state.md R37 to R44, R48),
accesses of other agents to memory (20_memory.md R72 to R75), the host's ordering primitives, and reset. -/

namespace Sys2Proof.Machine

/-! ### The register block -/

/-- The instance whose block holds the address, counted from k, and the offset in the block (R37; 0x20 bytes, 20_memory.md R70). -/
def findBlock : List Engine → Nat → Nat → Option (Nat × Nat)
  | [], _, _ => none
  | e :: es, addr, k => if inRange addr e.base 0x20 then some (k, addr - e.base) else findBlock es addr (k + 1)

/-- A naturally aligned 64-bit access at one of the four offsets (R37). The address itself must be a multiple of 8: the spec
states no alignment of ENG_BASE (00_scope.md R10), so in a block whose base is no multiple of 8 no access is legal, the
model's choice (notes/assumptions/23.md). -/
def legalAccess (addr off size : Nat) : Bool :=
  size == 8 && addr % 8 == 0 && (off == 0x00 || off == 0x08 || off == 0x10 || off == 0x18)

/-- The command will load a byte the host wrote and has not released (20_memory.md R73). -/
def releaseMissing (w : Word) (s : State) : Bool :=
  s.params.hostRelease &&
    match decode w with
    | .error _ => false
    | .ok i =>
      let e := latch s.params.aw w s.eng
      !rangeFails s.params.aw e.spAddr e.ipAddr (instrInLen i) &&
        s.host.unreleased.any fun a => inRange a e.spAddr 200 || inRange a e.ipAddr (instrInLen i)

/-- A CMD write is accepted (42_commands.md R182). -/
def acceptCmd (w : Word) (s : State) : State :=
  { s with
    eng := latch s.params.aw w s.eng
    host := { s.host with unordered := s.eng.base :: s.host.unordered } }

/-- A CMD write (R38): refused while BUSY = 1 (70_reset_and_hazards.md R244), with a pointer it needs unwritten (R48), or with a
release missing. -/
def writeCmd (w : Word) (s : State) : Host.Outcome State Fault Refusal :=
  if s.eng.busy then .refused .cmdWhileBusy
  else if !s.eng.statePtrWritten then .refused .unwrittenPointer
  else if wordNeedsInput w && !s.eng.inPtrWritten then .refused .unwrittenPointer
  else if releaseMissing w s then .refused .missingRelease
  else .next (acceptCmd w s)

/-- A write at an offset of the block of `eng`: STATUS ignores it (R42), the pointers keep bits [AW-1:0] (R43, R44), also while
the instance is busy (70_reset_and_hazards.md R246). -/
def writeReg (off : Nat) (v : Word) (s : State) : Host.Outcome State Fault Refusal :=
  if off = 0x00 then writeCmd v s
  else if off = 0x08 then .next s
  else if off = 0x10 then
    .next { s with eng := { s.eng with statePtr := maskAddr s.params.aw v, statePtrWritten := true } }
  else .next { s with eng := { s.eng with inPtr := maskAddr s.params.aw v, inPtrWritten := true } }

/-- The read returns a value to the agent. -/
def returnRead (v : Word) (s : State) : State := { s with host := { s.host with readData := v } }

/-- A STATUS read that returns DONE = 1 orders the instance's stores before it (20_memory.md R72); where the host needs
HOST_ACQUIRE, that is still to come. -/
def seeDone (s : State) : State :=
  let own := fun (r : HostResult) => r.base == s.eng.base
  if statusDone s.eng.status then
    { s with host := { s.host with
      results :=
        if s.params.hostAcquire then s.host.results.map fun r => if own r then { r with seen := true } else r
        else s.host.results.filter fun r => !own r } }
  else s

/-- A read at an offset of the block of `eng`: CMD reads 0 (R38), a pointer no one has written is refused (R48). -/
def readReg (off : Nat) (s : State) : Host.Outcome State Fault Refusal :=
  if off = 0x00 then .next (returnRead 0 s)
  else if off = 0x08 then
    if s.params.hostDeviceOrder && s.host.unordered.contains s.eng.base then .refused .missingDeviceOrder
    else .next (returnRead s.eng.status (seeDone s))
  else if off = 0x10 then
    if s.eng.statePtrWritten then .next (returnRead s.eng.statePtr s) else .refused .unwrittenPointer
  else
    if s.eng.inPtrWritten then .next (returnRead s.eng.inPtr s) else .refused .unwrittenPointer

/-- A host write in the host register space (20_memory.md R60). -/
def hostWrite (addr size : Nat) (v : Word) (s : State) : Host.Outcome State Fault Refusal :=
  match findBlock (s.eng :: s.others) addr 0 with
  | none => .refused .outsideBlock
  | some (k, off) => if legalAccess addr off size then withEngine k (writeReg off v) s else .refused .badRegisterAccess

/-- A host read in the host register space (20_memory.md R60). -/
def hostRead (addr size : Nat) (s : State) : Host.Outcome State Fault Refusal :=
  match findBlock (s.eng :: s.others) addr 0 with
  | none => .refused .outsideBlock
  | some (k, off) => if legalAccess addr off size then withEngine k (readReg off) s else .refused .badRegisterAccess

/-- One step of every instance, in order; an idle one does nothing. -/
def stepAll (s : State) : List Event := (List.range (s.others.length + 1)).map .engineStep

/-- `wait` (30_encoding.md R100): read STATUS, and again until BUSY = 0; between two reads every instance takes its next step,
so that one that stalls keeps no other from it (70_reset_and_hazards.md R249). -/
def hostWait (base : Nat) (s : State) : Host.Outcome State Fault Refusal :=
  match findBlock (s.eng :: s.others) base 0 with
  | none => .refused .outsideBlock
  | some _ =>
    andThen (hostRead (base + 0x08) 8 s) fun t =>
      if statusBusy t.host.readData then .next { t with agenda := stepAll t ++ .wait base :: t.agenda } else .next t

/-! ### Memory, as the other agents reach it -/

/-- A host address through PORT_MAP (20_memory.md R60). -/
def mapHost : List Window → Nat → Option Nat
  | [], _ => none
  | w :: ws, a => if inRange a w.hostBase w.size then some (w.portBase + (a - w.hostBase)) else mapHost ws a

/-- The port address an agent's access reaches, if it exists. -/
def agentAddr (p : Params) (who : Agent) (addr : Nat) : Option Nat :=
  match who with
  | .host => (mapHost p.portMap addr).filter fun a => decide (a < 2 ^ p.aw)
  | .other => if addr < 2 ^ p.aw then some addr else none

/-- The port address is no ordinary memory (20_memory.md R69). -/
def isDevice (p : Params) (a : Nat) : Bool := p.devices.any fun d => inRange a d.base d.size

/-- A byte is written by an agent other than the engines: a byte of S or IN of a busy instance is a race, refused
(20_memory.md R75). -/
def agentWrite (who : Agent) (addr : Nat) (v : Byte) (s : State) : Host.Outcome State Fault Refusal :=
  match agentAddr s.params who addr with
  | none => .fault .noSuchAddress
  | some a =>
    if isDevice s.params a then .refused .deviceMemory
    else if (s.eng :: s.others).any (fun e => e.ownsState a || e.ownsInput a) then .refused .racingWrite
    else .next { s with
      mem := memWrite s.mem a v
      host :=
        if who = .host then
          { s.host with
            unreleased := a :: s.host.unreleased
            results := dropBytes (fun b => b == a) s.host.results }
        else s.host }

/-- The host's read is of a stored result no STATUS read has shown complete (20_memory.md R72; notes/assumptions/13.md). -/
def unseenResult (s : State) (a : Nat) : Bool :=
  s.host.results.any fun r => !r.seen && r.bytes.contains a

/-- The host's read is of a stored result that HOST_ACQUIRE has still to order (20_memory.md R72). -/
def unacquiredResult (s : State) (a : Nat) : Bool :=
  s.host.results.any fun r => r.seen && r.bytes.contains a

/-- A byte is read by an agent other than the engines: a byte of S of a busy instance returns a free value, a byte of IN its
memory value (20_memory.md R75). -/
def agentRead (who : Agent) (addr : Nat) (s : State) : Host.Outcome State Fault Refusal :=
  match agentAddr s.params who addr with
  | none => .fault .noSuchAddress
  | some a =>
    let drawn : State := { returnRead ((Config.freeByte s.draws a).setWidth 64) s with draws := s.draws + 1 }
    if isDevice s.params a then .refused .deviceMemory
    else if (s.eng :: s.others).any (fun e => e.ownsState a) then .next drawn
    else if who = .host ∧ unseenResult s a then .next drawn
    else if who = .host ∧ unacquiredResult s a then .refused .missingAcquire
    else .next (returnRead ((memRead s.mem a).setWidth 64) s)

/-! ### The host's ordering primitives -/

/-- HOST_RELEASE (20_memory.md R73). -/
def releaseWrites (s : State) : State := { s with host := { s.host with unreleased := [] } }

/-- HOST_ACQUIRE (20_memory.md R72). -/
def acquireResults (s : State) : State :=
  { s with host := { s.host with results := s.host.results.filter fun r => !r.seen } }

/-- HOST_DEVICE_ORDER (70_reset_and_hazards.md R247). -/
def orderDevice (s : State) : State := { s with host := { s.host with unordered := [] } }

/-! ### Events -/

/-- What an event does. -/
def handle (ev : Event) (s : State) : Host.Outcome State Fault Refusal :=
  match ev with
  | .engineStep k => withEngine k engineStep s
  | .reset k => withEngine k (fun t => .next (resetEngine t)) s
  | .regWrite addr size v => hostWrite addr size v s
  | .regRead addr size => hostRead addr size s
  | .wait base => hostWait base s
  | .memWrite who addr v => agentWrite who addr v s
  | .memRead who addr => agentRead who addr s
  | .hostRelease => .next (releaseWrites s)
  | .hostAcquire => .next (acquireResults s)
  | .hostDeviceOrder => .next (orderDevice s)

end Sys2Proof.Machine
end

