-- ==== Sys2Proof/Machine/Step.lean ====
section
/-! DEFINITION. The step function. The engine fetches no instructions (spec 10_state.md R46): what acts next stands on the
agenda, and an accepted command stands in the instance's latch. -/

namespace Sys2Proof.Machine

/-- One step: the agenda's first event, or, with nothing on it, the first busy instance that can step runs on. -/
def step (s : State) : Host.Outcome State Fault Refusal :=
  match s.agenda with
  | ev :: rest => handle ev { s with agenda := rest }
  | [] => runEngines s

/-- The state in which the CMD write of this word has just been accepted (42_commands.md R182) with both pointers written, and
nothing is on the agenda, so that the next step decodes and runs it (notes/assumptions/9.md). -/
def State.withFetchWord (s : State) (nbits w : Nat) : State :=
  { s with
    eng := { latch s.params.aw (BitVec.ofNat 64 (w % 2 ^ nbits)) s.eng with statePtrWritten := true, inPtrWritten := true }
    agenda := [] }

end Sys2Proof.Machine
end

