-- ==== Sys2Proof/Machine/Script.lean ====
section
/-! DEFINITION. The host script of spec 30_encoding.md R100 and its pseudo-instructions R101, as events on the agenda of a host
that uses the block at `base`. -/

namespace Sys2Proof.Machine

/-- The registers a script names (R100). -/
inductive HostReg where
  | cmd
  | status
  | statePtr
  | inPtr
  deriving DecidableEq, Repr

/-- offset(REG) (10_state.md R37). -/
def regOffset : HostReg → Nat
  | .cmd => 0x00
  | .status => 0x08
  | .statePtr => 0x10
  | .inPtr => 0x18

/-- `wr REG, v` (R100). -/
def scriptWr (base : Nat) (r : HostReg) (v : Word) : List Event := [.regWrite (base + regOffset r) 8 v]

/-- `rd REG` (R100). -/
def scriptRd (base : Nat) (r : HostReg) : List Event := [.regRead (base + regOffset r) 8]

/-- `wait` (R100), with the platform's primitives around the STATUS read (70_reset_and_hazards.md R247, 20_memory.md R72). -/
def scriptWait (base : Nat) : List Event := [.hostDeviceOrder, .wait base, .hostAcquire]

/-- `mem a: b0 b1 …` (R100), released before the next CMD write. -/
def scriptMem (a : Nat) : List Byte → List Event
  | [] => [.hostRelease]
  | b :: bs => .memWrite .host a b :: scriptMem (a + 1) bs

/-- `permute` (R101). -/
def scriptPermute (base : Nat) : List Event := scriptWr base .cmd (encode .permute) ++ scriptWait base

/-- `absorb n` (R101). -/
def scriptAbsorb (base : Nat) (len : BitVec 8) : List Event := scriptWr base .cmd (encode (.absorb len)) ++ scriptWait base

/-- `setstate a` (R101). -/
def scriptSetState (base : Nat) (a : Word) : List Event := scriptWr base .statePtr a

/-- `setin a` (R101). -/
def scriptSetIn (base : Nat) (a : Word) : List Event := scriptWr base .inPtr a

end Sys2Proof.Machine
end

