-- ==== Sys2Proof/Safety.lean ====
section
/-! DEFINITION. What counts as a safe run and the terms claims are stated in: the invariant of the state (spec 10_state.md R30 to
R44), good final states (60_exceptions.md R220), and what of a state no agent can observe (10_state.md R32, R49). -/

namespace Sys2Proof.Machine

/-- A run is good while its fault log is empty (60_exceptions.md R220). -/
def State.good (s : State) : Prop := s.faultLog = []

/-- The values STATUS can show (95_test_vectors.md section 2.11): after reset, in progress, success, and the four errors. -/
def statusValues : List Word := [0x00, 0x01, 0x02, 0x12, 0x22, 0x32, 0x42]

/-- The first failing check of 60_exceptions.md R215 on a command word and its pointers, `noError` if every check passes. -/
def firstCheckError (aw : Nat) (w : Word) (sp ip : Nat) : ErrCode :=
  match decode w with
  | .error e => decodeErrCode e
  | .ok i => if rangeFails aw sp ip (instrInLen i) then .range else .noError

/-- What holds of one instance in every reachable state. -/
structure Engine.Inv (aw : Nat) (e : Engine) : Prop where
  /-- STATUS shows one of its legal values; with them BUSY = 1 ⇒ DONE = 0 ∧ ERR = 0 and the reserved bits are 0 (R42). -/
  status_legal : e.status ∈ statusValues
  /-- BUSY = 1 exactly when the phase is not IDLE (R33, R39). -/
  busy_phase : e.busy = true ↔ e.phase ≠ .idle
  /-- The round counter only ever holds 0..23 (R33). -/
  round_lt : e.round.toNat < 24
  /-- The pointer registers hold AW bits (R43, R44). -/
  statePtr_lt : e.statePtr.toNat < 2 ^ aw
  inPtr_lt : e.inPtr.toNat < 2 ^ aw
  /-- The latched pointers hold AW bits (R34). -/
  curSp_lt : e.curSp.toNat < 2 ^ aw
  curIp_lt : e.curIp.toNat < 2 ^ aw
  /-- The latched fields are those of the latched word (R34). -/
  latch_op : e.phase ≠ .idle → e.curOp = cmdOp e.curW
  latch_len : e.phase ≠ .idle → e.curLen = cmdLen e.curW
  /-- Past CHECK every check has passed (R33). -/
  checked : e.phase = .load ∨ e.phase = .round ∨ e.phase = .store →
    firstCheckError aw e.curW e.spAddr e.ipAddr = .noError

/-- What holds of the machine in every reachable state. -/
structure State.Inv (s : State) : Prop where
  /-- 1 ≤ AW ≤ 64 (00_scope.md R10). -/
  aw_pos : 1 ≤ s.params.aw
  aw_le : s.params.aw ≤ 64
  /-- Every instance meets its invariant. -/
  engines : ∀ e ∈ s.eng :: s.others, e.Inv s.params.aw
  /-- Memory is in its canonical form and lies in the port space (20_memory.md R60). -/
  mem_wf : memWf s.mem
  mem_space : ∀ c ∈ s.mem, c.1 < 2 ^ s.params.aw
  /-- The fault log holds nonzero codes only (60_exceptions.md R220). -/
  log_errors : ∀ c ∈ s.faultLog, c ≠ .noError
  /-- An error STATUS shows is in the fault log (60_exceptions.md R220). -/
  err_logged : ∀ e ∈ s.eng :: s.others, statusErr e.status ≠ 0 → ∃ c ∈ s.faultLog, errCode c = statusErr e.status

/-- An instance with what no agent can observe put at 0: L before LOAD has written it and after completion, the round counter
outside ROUND, the latched command outside a command (10_state.md R32, R47, R49). -/
def Engine.visible (e : Engine) : Engine :=
  { e with
    lanes := if e.phase = .round ∨ e.phase = .store then e.lanes else Vector.replicate 25 0
    round := if e.phase = .round then e.round else 0
    curW := if e.phase = .idle then 0 else e.curW
    curOp := if e.phase = .idle then 0 else e.curOp
    curLen := if e.phase = .idle then 0 else e.curLen
    curSp := if e.phase = .idle then 0 else e.curSp
    curIp := if e.phase = .idle then 0 else e.curIp }

/-- A state with what no agent can observe put at 0. -/
def State.visible (s : State) : State :=
  { s with eng := s.eng.visible, others := s.others.map Engine.visible }

/-- Two outcomes agree in everything `f` shows of their next states, and in their reasons to stop. -/
def outcomesAgree {α : Type} (f : State → α) (o p : Host.Outcome State Fault Refusal) : Prop :=
  match o, p with
  | .next s, .next t => f s = f t
  | .fault r, .fault q => r = q
  | .refused r, .refused q => r = q
  | _, _ => False

/-- Instance number k (60_exceptions.md R226). -/
def State.engineAt (s : State) (k : Nat) : Option Engine := (s.eng :: s.others)[k]?

/-- The state byte k of the command that stands at `eng`, as memory holds it. -/
def State.stateByte (s : State) (k : Nat) : Byte := memRead s.mem (s.eng.spAddr + k)

/-- The input byte k of the command that stands at `eng`, as memory holds it. -/
def State.inputByte (s : State) (k : Nat) : Byte := memRead s.mem (s.eng.ipAddr + k)

/-- Nothing keeps a command with n input bytes from running to its end: the buffers fit the port space (60_exceptions.md R213)
and are ordinary memory (20_memory.md R69), no other busy instance owns a byte of them in a way that races (R75, R76), and the
memory system accepts the accesses of LOAD and of STORE (60_exceptions.md R214). -/
structure State.Clear (s : State) (n : Nat) : Prop where
  range : rangeFails s.params.aw s.eng.spAddr s.eng.ipAddr n = false
  device : touchesDevice s.params s.eng.spAddr s.eng.ipAddr n = false
  store : storeRaces s.others s.eng.spAddr = false
  input : ∀ e ∈ s.others, e.busy = true → rangesOverlap s.eng.ipAddr n e.spAddr 200 = false
  bus_load : busReply s.params s.eng.bus = .ok
  bus_store : busReply s.params s.eng.bus.tail = .ok

/-- How many steps of its sequencer an instance has before it at most (10_state.md R33). -/
def Engine.work (e : Engine) : Nat :=
  match e.phase with
  | .idle => 0
  | .check => 27
  | .load => 26
  | .round => 25 - e.round.toNat
  | .store => 1

/-- The same for all instances together. -/
def State.work (s : State) : Nat := ((s.eng :: s.others).map Engine.work).sum

/-- The first n rounds with another round-constant ROM (40_rom_and_networks.md R123). -/
def roundsWithRom (rom : Nat → Lane) (A : Lanes) : Nat → Lanes
  | 0 => A
  | n + 1 => iotaWith (rom n) (chi (pi (rho (theta (roundsWithRom rom A n)))))

end Sys2Proof.Machine
end

