-- ==== Sys2Proof/Certificates/Slice0/Obligations.lean ====
section
/-! DEFINITION. The statements for the provers, each from numbered rules of the spec. -/

open Sys2Proof Sys2Proof.Machine

/-! ### Encoding and decoding (30_encoding.md) -/

/-- R94, R95, R99. A CMD value decodes to an instruction exactly if the instruction is well formed and the value is its encoding:
no bit of an encoding is dropped, and each instruction has one word. -/
def Obligations.DecodeAgreesWithEncode : Prop :=
  ∀ (w : Word) (i : Instr), decode w = .ok i ↔ i.wf = true ∧ w = encode i

/-- The words of 95_test_vectors.md section 2.10, all of V-DEC-1 to V-DEC-17 in that order, as sanity. -/
def Obligations.SampleWordsDecode : Prop :=
  decode 0x0000000000000000 = .error .illegalCmd ∧ decode 0x0000000000000001 = .ok .permute ∧
  decode 0x0000000000000101 = .error .illegalCmd ∧ decode 0x0000000000000011 = .error .illegalCmd ∧
  decode 0x0000000000010001 = .error .illegalCmd ∧ decode 0x0000000100000001 = .error .illegalCmd ∧
  decode 0x0000000000000002 = .ok (.absorb 0) ∧ decode 0x0000000000008802 = .ok (.absorb 136) ∧
  decode 0x000000000000A802 = .ok (.absorb 168) ∧ decode 0x000000000000C802 = .ok (.absorb 200) ∧
  decode 0x000000000000C902 = .error .length ∧ decode 0x000000000000FF02 = .error .length ∧
  decode 0x000000000000FF12 = .error .illegalCmd ∧ decode 0x000000000001C902 = .error .illegalCmd ∧
  decode 0x0000000000000003 = .error .illegalCmd ∧ decode 0x000000000000000F = .error .illegalCmd ∧
  decode 0x0000000000008801 = .error .illegalCmd

/-- R94. What every 64-bit value decodes to, in the order of R94's tests, its fields read by division: `n / 2^32` is w[63:32],
`n / 2^16 % 2^16` is w[31:16], `n / 16 % 16` is w[7:4], `n / 256 % 256` is w[15:8] and `n % 16` is w[3:0]. -/
def Obligations.DecodeClassifiesEveryWord : Prop :=
  ∀ w : Word, decode w =
    if w.toNat / 2 ^ 32 ≠ 0 ∨ w.toNat / 2 ^ 16 % 2 ^ 16 ≠ 0 ∨ w.toNat / 16 % 16 ≠ 0 then .error .illegalCmd
    else if w.toNat % 16 = 1 then
      if w.toNat / 256 % 256 ≠ 0 then .error .illegalCmd else .ok .permute
    else if w.toNat % 16 = 2 then
      if 200 < w.toNat / 256 % 256 then .error .length else .ok (.absorb (BitVec.ofNat 8 (w.toNat / 256 % 256)))
    else .error .illegalCmd

/-- R99. The assembler: `PERMUTE` is 0x00000001, `ABSORB n` is 0x00000002 | (n << 8) for n of 0 to 255, a larger n is rejected, and
n of 201 to 255 is warned about. -/
def Obligations.AssemblerSyntax : Prop :=
  encode .permute = 0x00000001 ∧
  ∀ n : Nat, (n ≤ 255 → ∃ w, assembleAbsorb n = some w ∧ w.toNat = 2 ||| n <<< 8) ∧
    (255 < n → assembleAbsorb n = none) ∧ (assembleAbsorbWarns n = true ↔ 201 ≤ n ∧ n ≤ 255)

/-! ### Steps -/

/-- With nothing on the agenda, a step at an instance that stands at CHECK with a word that decodes to i is exec of i, with
nothing around it; and so it is where the word has just been placed as an accepted command. With an entry on the agenda, the
step takes the entry off and does what it says. The agenda is the model's, DESIGN CHOICE (notes/assumptions/1.md), and so is what
placing a word as an accepted command means (notes/assumptions/9.md). That the step is the whole transaction in every state, also
where a race or a bus error occurs, for which R188 itself only gives the phased form, is the model's reading, DEDUCED
(notes/assumptions/11.md). -/
def Obligations.StepRunsDecodedInstruction : Prop :=
  (∀ (s : State) (i : Instr), s.agenda = [] → s.eng.busy = true → s.eng.phase = .check → decode s.eng.curW = .ok i →
    step s = exec i s) ∧
  (∀ (s : State) (nbits w : Nat) (i : Instr), decodeTableWord nbits w = some i →
    step (s.withFetchWord nbits w) = exec i (s.withFetchWord nbits w)) ∧
  (∀ (s : State) (ev : Event) (rest : List Event), s.agenda = ev :: rest → step s = handle ev { s with agenda := rest })

/-- R240. After reset the engine does nothing until the host's first accepted CMD write: with nothing on the agenda and no
instance busy, a step changes nothing. -/
def Obligations.IdleMachineDoesNothing : Prop :=
  ∀ s : State, s.agenda = [] → (∀ e ∈ s.eng :: s.others, e.busy = false) → step s = .next s

/-! ### The two commands (42_commands.md) -/

/-- R180. PERMUTE completes: where nothing keeps it from running, exec answers a next state in which the 200 bytes from the
latched STATE_PTR are the little-endian bytes of F of the lanes they held, every other byte of memory is as before, STATUS is
DONE alone, and no error is logged. -/
def Obligations.PermuteCompletes : Prop :=
  ∀ s : State, memWf s.mem → s.Clear 0 →
    ∃ t, exec .permute s = .next t ∧
      (∀ k, k < 200 → memRead t.mem (s.eng.spAddr + k) = laneByte (keccakF (lanesFromBytes s.stateByte)) k) ∧
      (∀ a, inRange a s.eng.spAddr 200 = false → memRead t.mem a = memRead s.mem a) ∧
      t.eng.status = 0x02 ∧ t.eng.phase = .idle ∧ t.faultLog = s.faultLog

/-- R181. ABSORB n completes for every n of 0 to 200: as PERMUTE, the n input bytes from the latched IN_PTR first XORed into the
leading state bytes, both as memory held them before the command (20_memory.md R67), also where they overlap. -/
def Obligations.AbsorbCompletes : Prop :=
  ∀ (s : State) (len : BitVec 8), memWf s.mem → len.toNat ≤ 200 → s.Clear len.toNat →
    ∃ t, exec (.absorb len) s = .next t ∧
      (∀ k, k < 200 → memRead t.mem (s.eng.spAddr + k) =
        laneByte (keccakF (lanesFromBytes fun j =>
          if j < len.toNat then s.stateByte j ^^^ s.inputByte j else s.stateByte j)) k) ∧
      (∀ a, inRange a s.eng.spAddr 200 = false → memRead t.mem a = memRead s.mem a) ∧
      t.eng.status = 0x02 ∧ t.eng.phase = .idle ∧ t.faultLog = s.faultLog

/-- R96. ABSORB with LEN = 0 has the same effect as PERMUTE, and what IN_PTR held makes no difference to memory and STATUS. -/
def Obligations.AbsorbZeroIsPermute : Prop :=
  (∀ s : State, exec (.absorb 0) s = exec .permute s) ∧
  (∀ (s : State) (ip : Word),
    outcomesAgree (fun t => (t.mem, t.eng.status)) (exec .permute s)
      (exec .permute { s with eng := { s.eng with curIp := ip } }))

/-- R67. ABSORB n with the input slice equal to the state buffer zeroes the first n state bytes before the permutation. -/
def Obligations.AbsorbOwnStateZeroesInput : Prop :=
  ∀ (s : State) (len : BitVec 8), memWf s.mem → len.toNat ≤ 200 → s.Clear len.toNat → s.eng.curIp = s.eng.curSp →
    ∃ t, exec (.absorb len) s = .next t ∧
      ∀ k, k < 200 → memRead t.mem (s.eng.spAddr + k) =
        laneByte (keccakF (lanesFromBytes fun j => if j < len.toNat then 0 else s.stateByte j)) k

/-- R212. A word with OP = 2, reserved fields 0 and LEN above 200 completes at CHECK with LENGTH: STATUS is 0x22, the code is logged,
memory and L are untouched; and so does the instruction. -/
def Obligations.AbsorbTooLongRaisesLength : Prop :=
  (∀ s : State, s.eng.phase = .check → cmdReservedSet s.eng.curW = false → s.eng.curW.toNat % 16 = 2 →
    200 < s.eng.curW.toNat / 256 % 256 →
    ∃ t, engineStep s = .next t ∧ autoStep s = .next t ∧ t.eng.status = 0x22 ∧ t.eng.phase = .idle ∧
      t.mem = s.mem ∧ t.eng.lanes = s.eng.lanes ∧ t.faultLog = s.faultLog ++ [.length]) ∧
  (∀ (s : State) (len : BitVec 8), 200 < len.toNat →
    ∃ t, exec (.absorb len) s = .next t ∧ t.eng.status = 0x22 ∧ t.eng.phase = .idle ∧
      t.mem = s.mem ∧ t.eng.lanes = s.eng.lanes ∧ t.faultLog = s.faultLog ++ [.length])

/-- R213. PERMUTE, and ABSORB n with n of 0 to 200, complete with RANGE exactly where the state buffer would pass 2^AW − 1 or,
with n > 0, the input would, on unbounded integers: STATUS is then 0x32, the code is logged, memory and L are untouched. The
converse takes every run that logs RANGE, also after earlier ones. -/
def Obligations.RangeRaisedWhereBufferWraps : Prop :=
  (∀ s : State, 2 ^ s.params.aw < s.eng.curSp.toNat + 200 →
    ∃ t, exec .permute s = .next t ∧ t.eng.status = 0x32 ∧ t.mem = s.mem ∧ t.eng.lanes = s.eng.lanes ∧
      t.faultLog = s.faultLog ++ [.range]) ∧
  (∀ (s : State) (len : BitVec 8), len.toNat ≤ 200 →
    (2 ^ s.params.aw < s.eng.curSp.toNat + 200 ∨
      (0 < len.toNat ∧ 2 ^ s.params.aw < s.eng.curIp.toNat + len.toNat)) →
    ∃ t, exec (.absorb len) s = .next t ∧ t.eng.status = 0x32 ∧ t.mem = s.mem ∧ t.eng.lanes = s.eng.lanes ∧
      t.faultLog = s.faultLog ++ [.range]) ∧
  (∀ (s t : State) (i : Instr), exec i s = .next t → t.faultLog = s.faultLog ++ [.range] →
    2 ^ s.params.aw < s.eng.curSp.toNat + 200 ∨
      (0 < instrInLen i ∧ 2 ^ s.params.aw < s.eng.curIp.toNat + instrInLen i))

/-- R211, R215, R216. An instance at CHECK whose first failing check, in the order ILLEGAL_CMD, LENGTH, RANGE, is e completes with
e alone, as one phased step and as it runs on: memory is not touched, no answer of it is used up, L is not written, ERR = e,
DONE = 1 and BUSY = 0. ILLEGAL_CMD is raised exactly by the words of R211's three cases, and shows code 1: STATUS is 0x12. -/
def Obligations.CheckErrorReportedOnce : Prop :=
  (∀ (s : State) (e : ErrCode), s.eng.phase = .check →
    firstCheckError s.params.aw s.eng.curW s.eng.spAddr s.eng.ipAddr = e → e ≠ .noError →
    ∃ t, engineStep s = .next t ∧ autoStep s = .next t ∧
      t.mem = s.mem ∧ t.others = s.others ∧ t.eng.bus = s.eng.bus ∧ t.eng.lanes = s.eng.lanes ∧ t.eng.phase = .idle ∧
      statusErr t.eng.status = errCode e ∧ statusDone t.eng.status = true ∧ statusBusy t.eng.status = false ∧
      t.faultLog = s.faultLog ++ [e]) ∧
  (∀ w : Word, decode w = .error .illegalCmd ↔
    (w.toNat % 16 ≠ 1 ∧ w.toNat % 16 ≠ 2) ∨
    (w.toNat / 16 % 16 ≠ 0 ∨ w.toNat / 2 ^ 16 % 2 ^ 16 ≠ 0 ∨ w.toNat / 2 ^ 32 ≠ 0) ∨
    (w.toNat % 16 = 1 ∧ w.toNat / 256 % 256 ≠ 0)) ∧
  (∀ s : State, s.eng.phase = .check → decode s.eng.curW = .error .illegalCmd →
    ∃ t, engineStep s = .next t ∧ autoStep s = .next t ∧ t.eng.status = 0x12 ∧ t.eng.phase = .idle ∧
      t.mem = s.mem ∧ t.eng.lanes = s.eng.lanes ∧ t.faultLog = s.faultLog ++ [.illegalCmd])

/-- R214. A bus error in LOAD ends PERMUTE and ABSORB with BUS and with no write: STATUS is 0x42 and memory is as before. -/
def Obligations.BusErrorInLoadWritesNothing : Prop :=
  ∀ (s : State) (i : Instr), i.wf = true →
    rangeFails s.params.aw s.eng.spAddr s.eng.ipAddr (instrInLen i) = false →
    touchesDevice s.params s.eng.spAddr s.eng.ipAddr (instrInLen i) = false → busReply s.params s.eng.bus = .error →
    ∃ t, exec i s = .next t ∧ t.eng.status = 0x42 ∧ t.eng.phase = .idle ∧ t.mem = s.mem ∧
      t.faultLog = s.faultLog ++ [.bus]

/-- R214. A bus error in STORE ends PERMUTE and ABSORB with BUS: STATUS is 0x42, each byte of S is a free value of its own, which
nothing constrains, and every other byte of memory is as before. The free values are those of a draw no earlier step has taken:
the third of the command, after the two of LOAD, and the counter has passed it (notes/assumptions/4.md). -/
def Obligations.BusErrorInStoreFreesState : Prop :=
  ∀ (s : State) (i : Instr), memWf s.mem → i.wf = true →
    rangeFails s.params.aw s.eng.spAddr s.eng.ipAddr (instrInLen i) = false →
    touchesDevice s.params s.eng.spAddr s.eng.ipAddr (instrInLen i) = false → storeRaces s.others s.eng.spAddr = false →
    busReply s.params s.eng.bus = .ok → busReply s.params s.eng.bus.tail = .error →
    ∃ t, exec i s = .next t ∧ t.eng.status = 0x42 ∧ t.eng.phase = .idle ∧ t.faultLog = s.faultLog ++ [.bus] ∧
      (∀ k, k < 200 → memRead t.mem (s.eng.spAddr + k) = Config.freeByte (s.draws + 2) (s.eng.spAddr + k)) ∧
      s.draws + 2 < t.draws ∧
      (∀ a, inRange a s.eng.spAddr 200 = false → memRead t.mem a = memRead s.mem a)

/-- R214. With BUS_ERRORS = false, BUS never occurs: no step of the machine logs it. -/
def Obligations.NoBusErrorWithoutParameter : Prop :=
  ∀ s t : State, s.params.busErrors = false → step s = .next t → t.faultLog.count .bus = s.faultLog.count .bus

/-- R249. With BUS_CAN_STALL a command whose access never completes is stuck: where a read of LOAD stalls exec answers a state that
is still in LOAD, where a write of STORE stalls one that is in STORE, each with STATUS and memory as they were, and the
sequencer stays there. That memory still reads as before where a write stalls is the model's (notes/assumptions/12.md); a read
of S is then a race. -/
def Obligations.StalledAccessIsStuck : Prop :=
  ∀ (s : State) (i : Instr), i.wf = true →
    rangeFails s.params.aw s.eng.spAddr s.eng.ipAddr (instrInLen i) = false →
    touchesDevice s.params s.eng.spAddr s.eng.ipAddr (instrInLen i) = false →
    (busReply s.params s.eng.bus = .hang → s.eng.inLen = instrInLen i →
      ∃ t, exec i s = .next t ∧ t.eng.phase = .load ∧ t.eng.status = s.eng.status ∧ t.mem = s.mem ∧
        t.faultLog = s.faultLog ∧ engineStep t = .next t) ∧
    (busReply s.params s.eng.bus = .ok → busReply s.params s.eng.bus.tail = .hang →
      storeRaces s.others s.eng.spAddr = false →
      ∃ t, exec i s = .next t ∧ t.eng.phase = .store ∧ t.eng.status = s.eng.status ∧ t.mem = s.mem ∧
        t.faultLog = s.faultLog ∧ engineStep t = .next t)

/-- R249. Weak fairness, as the model has it with nothing on the agenda (notes/assumptions/16.md): an instance that stalls keeps no
other from its steps. Either a step changes nothing, and then every busy instance waits for an access that never completes,
or the steps that all instances together have before them become fewer. -/
def Obligations.NoBusyInstanceIsPassedOver : Prop :=
  ∀ s t : State, s.Inv → s.agenda = [] → step s = .next t →
    (t = s ∧ ∀ k, k ≤ s.others.length → (focus k s).eng.busy = true → standsStill (focus k s) = true) ∨ t.work < s.work

/-- R69, R75. A command one of whose bytes of S or IN is memory with read side effects is refused, and one whose STORE would write
a byte of S or IN of another busy instance is refused, where it reaches those accesses. That the other instance has an S from
acceptance on, also where CHECK will fail its command, is the model's reading, DEDUCED (notes/assumptions/14.md). That the racing
STORE is refused also where the memory system would reject or never complete a write is the model's, DESIGN CHOICE
(notes/assumptions/24.md). -/
def Obligations.DeviceAndRacingBuffersRefused : Prop :=
  (∀ (s : State) (i : Instr), i.wf = true →
    rangeFails s.params.aw s.eng.spAddr s.eng.ipAddr (instrInLen i) = false →
    (∃ d ∈ s.params.devices, ∃ a, d.base ≤ a ∧ a < d.base + d.size ∧
      ((s.eng.spAddr ≤ a ∧ a < s.eng.spAddr + 200) ∨ (s.eng.ipAddr ≤ a ∧ a < s.eng.ipAddr + instrInLen i))) →
    exec i s = .refused .deviceMemory) ∧
  (∀ (s : State) (i : Instr), i.wf = true →
    rangeFails s.params.aw s.eng.spAddr s.eng.ipAddr (instrInLen i) = false →
    (∀ d ∈ s.params.devices, ∀ a, d.base ≤ a → a < d.base + d.size →
      ¬(s.eng.spAddr ≤ a ∧ a < s.eng.spAddr + 200) ∧ ¬(s.eng.ipAddr ≤ a ∧ a < s.eng.ipAddr + instrInLen i)) →
    busReply s.params s.eng.bus = .ok →
    (∃ e ∈ s.others, ∃ a, s.eng.spAddr ≤ a ∧ a < s.eng.spAddr + 200 ∧ (e.ownsState a = true ∨ e.ownsInput a = true)) →
    exec i s = .refused .racingWrite)

/-- The frame of PERMUTE and ABSORB, whatever way they end in a next state: every byte of memory outside the 200 bytes from the
latched STATE_PTR is unchanged (the input slice is never written but where it overlaps them); the pointer registers and their
written marks, ENG_BASE, the other instances, the parameters, the agenda and the host's own record of releases, orders and
reads are unchanged; the fault log keeps what it held and gains at most one code; STATUS, L, the round counter, the phase and the
latched command are what the command changes, beside the platform's answers it uses up. -/
def Obligations.CommandFrame : Prop :=
  ∀ (i : Instr) (s t : State), memWf s.mem → exec i s = .next t →
    (∀ a, inRange a s.eng.spAddr 200 = false → memRead t.mem a = memRead s.mem a) ∧
    t.eng.statePtr = s.eng.statePtr ∧ t.eng.inPtr = s.eng.inPtr ∧
    t.eng.statePtrWritten = s.eng.statePtrWritten ∧ t.eng.inPtrWritten = s.eng.inPtrWritten ∧
    t.eng.base = s.eng.base ∧ t.others = s.others ∧ t.params = s.params ∧ t.agenda = s.agenda ∧
    t.host.unreleased = s.host.unreleased ∧ t.host.unordered = s.host.unordered ∧ t.host.readData = s.host.readData ∧
    (t.host.results = s.host.results ∨ t.host.results = (recordResult s).host.results) ∧
    (∃ l, t.faultLog = s.faultLog ++ l ∧ l.length ≤ 1) ∧
    (∃ l, s.eng.bus = l ++ t.eng.bus ∧ l.length ≤ 2)

/-- R66. No byte outside S and IN matters to a command: from two states that differ in memory only, and agree in the bytes of S and
IN, it ends the same way, with the same instance and the same bytes in S. -/
def Obligations.OnlyFootprintMatters : Prop :=
  ∀ (i : Instr) (s : State) (m : List Host.Cell), memWf s.mem → memWf m →
    (∀ a, inRange a s.eng.spAddr 200 = true ∨ inRange a s.eng.ipAddr (instrInLen i) = true →
      memRead m a = memRead s.mem a) →
    outcomesAgree
      (fun t => (t.eng, t.faultLog, (List.range 200).map fun k => memRead t.mem (s.eng.spAddr + k)))
      (exec i s) (exec i { s with mem := m })

/-! ### The round function (40_rom_and_networks.md, 41_round_function.md) -/

/-- R124. rotl64(v, 0) is v, rotl64(v, n) is (v << n | v >> (64 − n)) mod 2^64 for n of 1 to 63, an n above counts mod 64, and bit k
of rotl64(v, n) is bit (k − n) mod 64 of v. -/
def Obligations.RotateMovesBits : Prop :=
  ∀ (v : Lane) (n : Nat),
    rotl64 v 0 = v ∧
    (1 ≤ n → n ≤ 63 → (rotl64 v n).toNat = (v.toNat <<< n ||| v.toNat >>> (64 - n)) % 2 ^ 64) ∧
    rotl64 v n = rotl64 v (n % 64) ∧
    ∀ k, k < 64 → (rotl64 v n).getLsbD k = v.getLsbD ((k + 64 - n % 64) % 64)

/-- R150 to R154. The five step mappings lane by lane, on flat indices x + 5*y: every right-hand side reads the lanes from before
the step. -/
def Obligations.StepMappingsByLane : Prop :=
  ∀ (A : Lanes) (x y i : Nat), x < 5 → y < 5 →
    (lane (theta A) x y =
      lane A x y ^^^
        ((lane A ((x + 4) % 5) 0 ^^^ lane A ((x + 4) % 5) 1 ^^^ lane A ((x + 4) % 5) 2 ^^^ lane A ((x + 4) % 5) 3 ^^^
            lane A ((x + 4) % 5) 4) ^^^
          rotl64 (lane A ((x + 1) % 5) 0 ^^^ lane A ((x + 1) % 5) 1 ^^^ lane A ((x + 1) % 5) 2 ^^^
            lane A ((x + 1) % 5) 3 ^^^ lane A ((x + 1) % 5) 4) 1)) ∧
    lane (rho A) x y = rotl64 (lane A x y) (rhoOffset (x + 5 * y)) ∧
    lane (pi A) y ((2 * x + 3 * y) % 5) = lane A x y ∧
    lane (chi A) x y = lane A x y ^^^ (~~~ lane A ((x + 1) % 5) y &&& lane A ((x + 2) % 5) y) ∧
    lane (iota A i) x y = if x = 0 ∧ y = 0 then lane A x y ^^^ rcRom i else lane A x y

/-- R153. Chi acts on each row independently, and bit k of an output lane depends only on bit k of the five lanes of its row. -/
def Obligations.ChiActsOnRowBits : Prop :=
  ∀ (A B : Lanes) (y k : Nat), (∀ x, x < 5 → (lane A x y).getLsbD k = (lane B x y).getLsbD k) →
    ∀ x, x < 5 → (lane (chi A) x y).getLsbD k = (lane (chi B) x y).getLsbD k

/-- R150. If every column has even parity, Theta changes nothing; and the all-ones state maps to itself. -/
def Obligations.ThetaFixesEvenParity : Prop :=
  (∀ A : Lanes, (∀ x, x < 5 → columnParity A x = 0) → theta A = A) ∧
  theta (Vector.replicate 25 (BitVec.allOnes 64)) = Vector.replicate 25 (BitVec.allOnes 64)

/-- R121, R122, R125, R126, R128, R129. The tables are the ones their derivations give: the ROM is what the shift register gives and
has bits only at positions 0, 1, 3, 7, 15, 31 and 63; the offsets are those of the walk; the Pi wiring and the combined network
are those of R127 and R125. -/
def Obligations.TablesMatchDerivations : Prop :=
  (∀ i, i < 24 → rcRom i = rcDerived i) ∧
  (∀ i, i < 24 → rcRom i &&& ~~~ 0x800000008000808B = 0) ∧
  rhoOffset 0 = 0 ∧
  (∀ t, t < 24 → rhoOffset ((rhoWalk t).1 + 5 * (rhoWalk t).2) = (t + 1) * (t + 2) / 2 % 64) ∧
  (∀ x, x < 5 → ∀ y, y < 5 → piDst (x + 5 * y) = y + 5 * ((2 * x + 3 * y) % 5)) ∧
  (∀ i, i < 25 → rhoPiTable.getD (piDst i) (0, 0) = (i, rhoOffset i))

/-- R158. The fused form of the round equals the round of R155, for every input. -/
def Obligations.FusedRoundIsRound : Prop := ∀ (A : Lanes) (i : Nat), fusedRnd A i = rnd A i

/-- R162. F is a bijection on 1600-bit states, and so are the five step mappings. -/
def Obligations.PermutationIsBijective : Prop :=
  Function.Bijective theta ∧ Function.Bijective rho ∧ Function.Bijective pi ∧ Function.Bijective chi ∧
  (∀ i, Function.Bijective fun A => iota A i) ∧ Function.Bijective keccakF

/-- R123. Changing RC_ROM(i) for any single i changes F's output (for every input, so for some); with the ROM itself the rounds
are F. -/
def Obligations.EveryRoundConstantMatters : Prop :=
  (∀ A : Lanes, roundsWithRom rcRom A 24 = keccakF A) ∧
  (∀ (i : Nat) (c : Lane) (A : Lanes), i < 24 → c ≠ rcRom i →
    roundsWithRom (fun j => if j = i then c else rcRom j) A 24 ≠ keccakF A)

/-- R157. F of the all-zero state: lane 0 is the known answer, lane 24 and F's not being the identity with it. -/
def Obligations.ZeroStateKnownAnswer : Prop :=
  lane (keccakF (Vector.replicate 25 0)) 0 0 = 0xF1258F7940E1DDE7 ∧
  lane (keccakF (Vector.replicate 25 0)) 4 4 = 0xEAF1FF7B5CECA249

/-! ### The Lane Store (20_memory.md R63) -/

/-- R63. Lane i is the sum of its bytes, byte j weighted 2^(8j); storing gives back the bytes loaded, and loading the lanes stored. -/
def Obligations.LaneStoreIsLittleEndian : Prop :=
  (∀ (s : Nat → Byte) (x y : Nat), x < 5 → y < 5 →
    (lane (lanesFromBytes s) x y).toNat =
      ((List.range 8).map fun j => 2 ^ (8 * j) * (s (8 * (x + 5 * y) + j)).toNat).sum) ∧
  (∀ (s : Nat → Byte) (k : Nat), k < 200 → laneByte (lanesFromBytes s) k = s k) ∧
  (∀ A : Lanes, lanesFromBytes (laneByte A) = A)

/-! ### The sequencer (10_state.md R33) -/

/-- R188, and beyond it. A command's phases, one sequencer step at a time, have exactly the effect of its transaction: from CHECK,
27 steps (CHECK, LOAD, 24 rounds, STORE) end as the transaction does, in every case. R188 gives the equality where no race and no
bus error occurs; that the model's transaction also covers a bus error, a stall and a refusal is the model's reading, DEDUCED
(notes/assumptions/11.md). -/
def Obligations.PhasedRunIsTransaction : Prop :=
  ∀ s : State, s.eng.phase = .check → s.eng.curOp = cmdOp s.eng.curW → s.eng.curLen = cmdLen s.eng.curW →
    engineSteps 27 s = autoStep s

/-- R188. The transaction view as one function of the command word, the two pointers and memory: a step at CHECK, where no race and
no bus error occurs, leaves memory and ERR as Cmd(w, sp, ip, M) says, with BUSY = 0 and DONE = 1. -/
def Obligations.TransactionView : Prop :=
  ∀ s : State, memWf s.mem → s.agenda = [] → s.eng.busy = true → s.eng.phase = .check →
    (∀ i, decode s.eng.curW = .ok i → rangeFails s.params.aw s.eng.spAddr s.eng.ipAddr (instrInLen i) = false →
      s.Clear (instrInLen i)) →
    ∃ t, step s = .next t ∧ statusBusy t.eng.status = false ∧ statusDone t.eng.status = true ∧
      statusErr t.eng.status = errCode (firstCheckError s.params.aw s.eng.curW s.eng.spAddr s.eng.ipAddr) ∧
      (firstCheckError s.params.aw s.eng.curW s.eng.spAddr s.eng.ipAddr ≠ .noError → t.mem = s.mem) ∧
      (∀ i, decode s.eng.curW = .ok i →
        firstCheckError s.params.aw s.eng.curW s.eng.spAddr s.eng.ipAddr = .noError →
        (∀ k, k < 200 → memRead t.mem (s.eng.spAddr + k) =
          laneByte (keccakF (lanesFromBytes fun j =>
            if j < instrInLen i then s.stateByte j ^^^ s.inputByte j else s.stateByte j)) k) ∧
        (∀ a, inRange a s.eng.spAddr 200 = false → memRead t.mem a = memRead s.mem a))

/-- R156. A ROUND step: all 25 lanes become Rnd(L, round), the counter advances below 23 and after round 23 the phase is STORE; memory,
STATUS and everything else are unchanged. -/
def Obligations.RoundStepRunsOneRound : Prop :=
  ∀ s : State, s.eng.phase = .round → s.eng.round.toNat < 24 →
    ∃ t, engineStep s = .next t ∧ t.eng.lanes = rnd s.eng.lanes s.eng.round.toNat ∧
      (s.eng.round.toNat < 23 → t.eng.round.toNat = s.eng.round.toNat + 1 ∧ t.eng.phase = .round) ∧
      (s.eng.round.toNat = 23 → t.eng.phase = .store) ∧
      t = { s with eng := { s.eng with lanes := t.eng.lanes, round := t.eng.round, phase := t.eng.phase } }

/-- R185. Exactly 24 ROUND steps with round = 0, …, 23 lead to STORE with L = F(L at LOAD end); the phase cannot fail and makes no
memory access, and changes nothing else. -/
def Obligations.RoundPhaseComputesF : Prop :=
  ∀ s : State, s.eng.phase = .round → s.eng.round = 0 →
    engineSteps 24 s = .next { s with eng := { s.eng with lanes := keccakF s.eng.lanes, round := 23, phase := .store } } ∧
    ∀ n, n < 24 → ∃ t, engineSteps n s = .next t ∧ t.eng.phase = .round ∧ t.eng.round.toNat = n ∧ t.mem = s.mem

/-- R249. Every accepted command completes after finitely many sequencer steps unless an access never completes: with
BUS_CAN_STALL = false, 27 steps from any state that meets the invariant leave the instance idle, or the run is refused for a
buffer in device memory (R69) or for a racing STORE (R75); nothing else can stop it. -/
def Obligations.CommandCompletesInBoundedSteps : Prop :=
  ∀ s : State, s.Inv → s.params.busCanStall = false →
    (∃ t, engineSteps 27 s = .next t ∧ t.eng.phase = .idle) ∨ engineSteps 27 s = .refused .deviceMemory ∨
      engineSteps 27 s = .refused .racingWrite

/-- R253. The number of steps, the phases, the latched command, whose pointers and length give the addresses accessed, and STATUS do
not depend on the values of S, IN or L: from two states that differ only in memory and L, any number of sequencer steps stop for
the same reason or give states that again differ in nothing but memory and L. -/
def Obligations.TimingIsDataIndependent : Prop :=
  ∀ (s : State) (m : List Host.Cell) (L : Lanes) (n : Nat),
    outcomesAgree (fun t => { t with mem := [], eng := { t.eng with lanes := Vector.replicate 25 0 } })
      (engineSteps n s) (engineSteps n { s with mem := m, eng := { s.eng with lanes := L } })

/-! ### The host register block (10_state.md) -/

/-- R182, R34. A CMD write while BUSY = 0, with the pointers it needs written and no release missing, is accepted: the latch takes the
whole value, OP, LEN and the two pointers' low AW bits, STATUS is BUSY alone, the phase is CHECK; memory, L, the pointers
and the fault log are unchanged. -/
def Obligations.CmdWriteLatchesCommand : Prop :=
  ∀ (s : State) (w : Word), s.eng.busy = false → s.eng.statePtrWritten = true →
    (wordNeedsInput w = true → s.eng.inPtrWritten = true) → releaseMissing w s = false → s.params.aw ≤ 64 →
    ∃ t, writeReg 0x00 w s = .next t ∧
      t.eng.curW = w ∧ t.eng.curOp.toNat = w.toNat % 16 ∧ t.eng.curLen.toNat = w.toNat / 256 % 256 ∧
      t.eng.curSp.toNat = s.eng.statePtr.toNat % 2 ^ s.params.aw ∧
      t.eng.curIp.toNat = s.eng.inPtr.toNat % 2 ^ s.params.aw ∧
      t.eng.status = 0x01 ∧ t.eng.phase = .check ∧
      t.mem = s.mem ∧ t.eng.lanes = s.eng.lanes ∧ t.eng.statePtr = s.eng.statePtr ∧ t.eng.inPtr = s.eng.inPtr ∧
      t.faultLog = s.faultLog ∧ t.others = s.others

/-- R219. The next accepted CMD write clears ERR and DONE and starts a new command, which goes the same way whether the previous
command succeeded or failed: what STATUS showed while BUSY = 0 makes no difference. -/
def Obligations.NextCommandIgnoresPreviousStatus : Prop :=
  ∀ (s : State) (w st : Word), s.eng.busy = false → statusBusy st = false →
    writeReg 0x00 w { s with eng := { s.eng with status := st } } = writeReg 0x00 w s ∧
    ∀ t, writeReg 0x00 w s = .next t → statusDone t.eng.status = false ∧ statusErr t.eng.status = 0

/-- R244. A host write to CMD of any instance while its BUSY = 1 is refused, whatever the value: a run that makes one ends there, as
`cmdWhileBusy`, or, where the block lies at no multiple of 8 and the access is not naturally aligned (notes/assumptions/23.md), as
an access of another form. Where blocks overlap the first answers (notes/assumptions/22.md). -/
def Obligations.CmdWriteWhileBusyRefused : Prop :=
  ∀ (s : State) (k : Nat) (e : Engine) (w : Word) (rest : List Event), s.engineAt k = some e → e.busy = true →
    (∀ (j : Nat) (e' : Engine), j < k → s.engineAt j = some e' → inRange e.base e'.base 0x20 = false) →
    s.agenda = .regWrite e.base 8 w :: rest →
    step s = if e.base % 8 = 0 then .refused .cmdWhileBusy else .refused .badRegisterAccess

/-- R48. The three refused uses of an unwritten pointer: a read of it; any accepted command while STATE_PTR is unwritten; an
ABSORB with LEN > 0 while IN_PTR is unwritten. PERMUTE, and ABSORB with LEN = 0, do not need IN_PTR. That LEN of 201 to 255 counts
as LEN > 0 here is the model's reading, DEDUCED (notes/assumptions/3.md), and so is that the refusal comes at the CMD write,
before acceptance (notes/assumptions/10.md). -/
def Obligations.UnwrittenPointersRefused : Prop :=
  (∀ s : State, s.eng.statePtrWritten = false → readReg 0x10 s = .refused .unwrittenPointer) ∧
  (∀ s : State, s.eng.inPtrWritten = false → readReg 0x18 s = .refused .unwrittenPointer) ∧
  (∀ (s : State) (w : Word), s.eng.busy = false → s.eng.statePtrWritten = false →
    writeReg 0x00 w s = .refused .unwrittenPointer) ∧
  (∀ (s : State) (len : BitVec 8), s.eng.busy = false → s.eng.inPtrWritten = false → len ≠ 0 →
    writeReg 0x00 (encode (.absorb len)) s = .refused .unwrittenPointer) ∧
  (∀ s : State, s.eng.busy = false → s.eng.statePtrWritten = true → s.params.hostRelease = false →
    (∃ t, writeReg 0x00 (encode .permute) s = .next t) ∧ ∃ t, writeReg 0x00 (encode (.absorb 0)) s = .next t)

/-- R43, R44. After reset a pointer holds no value, and reading it is refused, until it is written; a write keeps bits [AW-1:0], the
bits above read as 0, and a read gives the value back; every value is legal, and the write changes that register and its
written mark alone. -/
def Obligations.PointerRegistersKeepAddressBits : Prop :=
  (∀ s : State, readReg 0x10 (resetEngine s) = .refused .unwrittenPointer ∧
    readReg 0x18 (resetEngine s) = .refused .unwrittenPointer) ∧
  ∀ (s : State) (v : Word), s.params.aw ≤ 64 →
    (∃ t, writeReg 0x10 v s = .next t ∧
      t = { s with eng := { s.eng with statePtr := t.eng.statePtr, statePtrWritten := true } } ∧
      t.eng.statePtr.toNat = v.toNat % 2 ^ s.params.aw ∧
      ∃ u, readReg 0x10 t = .next u ∧ u.host.readData = t.eng.statePtr) ∧
    (∃ t, writeReg 0x18 v s = .next t ∧
      t = { s with eng := { s.eng with inPtr := t.eng.inPtr, inPtrWritten := true } } ∧
      t.eng.inPtr.toNat = v.toNat % 2 ^ s.params.aw ∧
      ∃ u, readReg 0x18 t = .next u ∧ u.host.readData = t.eng.inPtr)

/-- R246. A pointer write while a command runs, in any phase, does not affect it: any number of sequencer steps after it, and the
command as one transaction, have the same phase, lanes, memory, STATUS and fault log, or stop for the same reason. -/
def Obligations.PointerWritesLeaveRunningCommand : Prop :=
  ∀ (s t : State) (off : Nat) (v : Word), off = 0x10 ∨ off = 0x18 → writeReg off v s = .next t →
    (∀ n, outcomesAgree (fun u => (u.eng.phase, u.eng.lanes, u.mem, u.eng.status, u.faultLog))
      (engineSteps n s) (engineSteps n t)) ∧
    ∀ i, outcomesAgree (fun u => (u.eng.phase, u.eng.lanes, u.mem, u.eng.status, u.faultLog)) (exec i s) (exec i t)

/-- R38, R42. CMD reads 0, a STATUS write is ignored, and reading either changes nothing of the instances, memory and the fault
log. -/
def Obligations.CmdReadsZeroStatusIgnoresWrites : Prop :=
  (∀ s : State, ∃ t, readReg 0x00 s = .next t ∧ t.host.readData = 0 ∧
    t = { s with host := { s.host with readData := 0 } }) ∧
  (∀ (s : State) (v : Word), writeReg 0x08 v s = .next s) ∧
  (∀ s : State, s.params.hostDeviceOrder = false →
    ∃ t, readReg 0x08 s = .next t ∧ t.host.readData = s.eng.status ∧ t.eng = s.eng ∧ t.others = s.others ∧
      t.mem = s.mem ∧ t.faultLog = s.faultLog)

/-- R37, R226. An access in the block of instance k reaches a register of that instance if it is a naturally aligned 64-bit access at
one of the four offsets, and is refused otherwise. The instance acts at `eng`, and goes back to its place with what the access made
of it, while every other instance stays as it was. The spec leaves ENG_BASE's own alignment open: notes/assumptions/23.md. Where
blocks overlap, which the spec does not foresee, the first answers: notes/assumptions/22.md. -/
def Obligations.RegisterBlockAccessForms : Prop :=
  (∀ (s : State) (k : Nat) (e : Engine) (off size : Nat) (v : Word), s.engineAt k = some e → off < 0x20 →
    (∀ (j : Nat) (e' : Engine), j < k → s.engineAt j = some e' → inRange (e.base + off) e'.base 0x20 = false) →
    (size = 8 ∧ (e.base + off) % 8 = 0 ∧ (off = 0x00 ∨ off = 0x08 ∨ off = 0x10 ∨ off = 0x18) →
      hostWrite (e.base + off) size v s = andThen (writeReg off v (focus k s)) (fun t => .next (focus k t)) ∧
      hostRead (e.base + off) size s = andThen (readReg off (focus k s)) (fun t => .next (focus k t))) ∧
    (¬(size = 8 ∧ (e.base + off) % 8 = 0 ∧ (off = 0x00 ∨ off = 0x08 ∨ off = 0x10 ∨ off = 0x18)) →
      hostWrite (e.base + off) size v s = .refused .badRegisterAccess ∧
      hostRead (e.base + off) size s = .refused .badRegisterAccess)) ∧
  (∀ (s t : State) (k off : Nat) (e : Engine) (v : Word), s.engineAt k = some e →
    (focus k s).eng = e ∧ focus k s = { s with eng := e, others := (focus k s).others } ∧
    (writeReg off v (focus k s) = .next t ∨ readReg off (focus k s) = .next t →
      (focus k t).engineAt k = some t.eng ∧ (∀ j, j ≠ k → (focus k t).engineAt j = s.engineAt j) ∧
      { focus k t with eng := t.eng, others := t.others } = t))

/-! ### Reset (70_reset_and_hazards.md) -/

/-- R240, R241. Reset of an instance puts its phase to IDLE and STATUS to 0 and leaves both pointers unwritten, and its sequencer does
nothing from there; with no command running memory is untouched; a running command is aborted with no completion logged, every
byte of its S within the port space is a free value, of the next draw, which the reset takes (notes/assumptions/4.md), and every
other byte of memory is as before. -/
def Obligations.ResetAbortsAndFreesState : Prop :=
  ∀ s : State, memWf s.mem →
    ∃ t, handle (.reset 0) s = .next t ∧
      t.eng.phase = .idle ∧ t.eng.status = 0 ∧ t.eng.statePtrWritten = false ∧ t.eng.inPtrWritten = false ∧
      engineStep t = .next t ∧ t.others = s.others ∧ t.faultLog = s.faultLog ∧
      (s.eng.busy = false → t.mem = s.mem) ∧ s.draws < t.draws ∧
      (s.eng.busy = true → ∀ k, k < 200 → s.eng.spAddr + k < 2 ^ s.params.aw →
        memRead t.mem (s.eng.spAddr + k) = Config.freeByte s.draws (s.eng.spAddr + k)) ∧
      (∀ a, inRange a s.eng.spAddr 200 = false → memRead t.mem a = memRead s.mem a)

/-- R47. What reset leaves, as far as the spec gives values: phase IDLE, STATUS 0 (BUSY, DONE, ERR and the reserved bits), CMD reads
0, and both pointers unwritten, so that reading them is refused. -/
def Obligations.ResetValues : Prop :=
  State.reset.eng.phase = .idle ∧ State.reset.eng.status = 0 ∧
  (∃ t, readReg 0x00 State.reset = .next t ∧ t.host.readData = 0) ∧
  (∃ t, readReg 0x08 State.reset = .next t ∧ t.host.readData = 0) ∧
  readReg 0x10 State.reset = .refused .unwrittenPointer ∧ readReg 0x18 State.reset = .refused .unwrittenPointer

/-! ### Races and the handshake (20_memory.md) -/

/-- R75, R245. While an instance is busy, for the host, through PORT_MAP, and for any other agent on the port: a write to a byte of
its S or IN is refused; a read of a byte of S returns a free value and changes nothing else; a read of a byte of IN that is no
byte of any busy S returns the memory value (for the host, where no stored result it has not ordered holds the byte). That an
instance has an S from acceptance on, also where CHECK will fail its command, is the model's reading, DEDUCED
(notes/assumptions/14.md). -/
def Obligations.RacesRefusedOrDrawn : Prop :=
  ∀ (s : State) (e : Engine) (who : Agent) (addr a : Nat), e ∈ s.eng :: s.others →
    agentAddr s.params who addr = some a → isDevice s.params a = false →
    (∀ v, e.ownsState a = true ∨ e.ownsInput a = true → agentWrite who addr v s = .refused .racingWrite) ∧
    (e.ownsState a = true → ∃ t, agentRead who addr s = .next t ∧
      t.host.readData = (Config.freeByte s.draws a).setWidth 64 ∧
      t.mem = s.mem ∧ t.eng = s.eng ∧ t.others = s.others ∧ t.faultLog = s.faultLog ∧ s.draws < t.draws) ∧
    (e.ownsInput a = true → (∀ e' ∈ s.eng :: s.others, e'.ownsState a = false) →
      (who = .host → ∀ r ∈ s.host.results, a ∉ r.bytes) → ∃ t, agentRead who addr s = .next t ∧
        t.host.readData = (memRead s.mem a).setWidth 64)

/-- R44, R62. What a busy instance owns, in terms of its latched command: S is the 200 bytes from the latched STATE_PTR, and IN the n
bytes from the latched IN_PTR of a word that decodes to ABSORB(n). Any other word, PERMUTE, an illegal one or one that is too
long, uses IN_PTR for nothing. That a command CHECK will fail still has an S is the model's reading (notes/assumptions/14.md). -/
def Obligations.OnlyAbsorbOwnsInput : Prop :=
  ∀ (e : Engine) (a : Nat), e.busy = true →
    (e.ownsState a = true ↔ e.curSp.toNat ≤ a ∧ a < e.curSp.toNat + 200) ∧
    (e.ownsInput a = true ↔
      ∃ len, decode e.curW = .ok (.absorb len) ∧ e.curIp.toNat ≤ a ∧ a < e.curIp.toNat + len.toNat)

/-- R72. After a STATUS read that returns DONE = 1, and HOST_ACQUIRE, a host read of a byte the instance stored returns the byte
memory holds, where the byte's port address is plain memory that no busy instance owns and whose only results not ordered
yet are this instance's. -/
def Obligations.DoneReadMakesResultVisible : Prop :=
  ∀ (s : State) (addr a : Nat), statusDone s.eng.status = true →
    (s.params.hostDeviceOrder = true → s.host.unordered = []) →
    agentAddr s.params .host addr = some a → isDevice s.params a = false →
    (∀ e ∈ s.eng :: s.others, e.ownsState a = false) →
    (∀ r ∈ s.host.results, a ∈ r.bytes → r.base = s.eng.base) →
    ∃ t u, readReg 0x08 s = .next t ∧ agentRead .host addr (acquireResults t) = .next u ∧
      u.host.readData = (memRead s.mem a).setWidth 64

/-- R72, R248. From a STORE that completes to the host's read of its result: after the STATUS read, which returns DONE = 1, and
HOST_ACQUIRE, a host read of byte k of S returns the byte the command wrote, whatever older results of this or of another instance
the host has not ordered; and without HOST_ACQUIRE too on a platform that needs none. -/
def Obligations.StoredResultReachesHost : Prop :=
  ∀ (s : State) (addr k : Nat), memWf s.mem → s.eng.phase = .store → storeRaces s.others s.eng.spAddr = false →
    busReply s.params s.eng.bus = .ok → (s.params.hostDeviceOrder = true → s.host.unordered = []) → k < 200 →
    agentAddr s.params .host addr = some (s.eng.spAddr + k) → isDevice s.params (s.eng.spAddr + k) = false →
    (∀ e ∈ s.others, e.ownsState (s.eng.spAddr + k) = false) →
    ∃ t u, engineStep s = .next t ∧ readReg 0x08 t = .next u ∧ u.host.readData = 0x02 ∧
      (∃ v, agentRead .host addr (acquireResults u) = .next v ∧
        v.host.readData = (laneByte s.eng.lanes k).setWidth 64) ∧
      (s.params.hostAcquire = false → ∃ v, agentRead .host addr u = .next v ∧
        v.host.readData = (laneByte s.eng.lanes k).setWidth 64)

/-- R72, R247. The other two primitives a platform may need, each refused where a host program omits it (U19 of
93_implementation_defined.md): where the platform needs HOST_DEVICE_ORDER, a STATUS read after a CMD write to the same block is
refused, and after the primitive it is not; where a stored result was seen complete, a host read of its bytes is refused until
HOST_ACQUIRE, and after it returns memory. -/
def Obligations.MissingOrderRefused : Prop :=
  (∀ (s t : State) (w : Word), s.params.hostDeviceOrder = true → writeReg 0x00 w s = .next t →
    readReg 0x08 t = .refused .missingDeviceOrder ∧ ∃ u, readReg 0x08 (orderDevice t) = .next u ∧ u.host.readData = 0x01) ∧
  (∀ (s : State) (addr a : Nat), agentAddr s.params .host addr = some a → isDevice s.params a = false →
    (∀ e ∈ s.eng :: s.others, e.ownsState a = false) → (∀ r ∈ s.host.results, a ∈ r.bytes → r.seen = true) →
    (∃ r ∈ s.host.results, a ∈ r.bytes) →
    agentRead .host addr s = .refused .missingAcquire ∧
    ∃ u, agentRead .host addr (acquireResults s) = .next u ∧ u.host.readData = (memRead s.mem a).setWidth 64)

/-- R73. Where the platform needs HOST_RELEASE, a CMD write is refused exactly where its command would load a byte the host wrote
and did not release: the word decodes, the range check passes, and such a byte lies in the 200 bytes from STATE_PTR or in the input
slice from IN_PTR, each of AW bits. Otherwise it is accepted, and after HOST_RELEASE it is accepted always. That the refusal
comes at the CMD write, and only where LOAD would read the byte, is the model's, DESIGN CHOICE (notes/assumptions/15.md). -/
def Obligations.UnreleasedInputRefused : Prop :=
  ∀ (s : State) (w : Word), s.params.aw ≤ 64 → s.eng.busy = false → s.eng.statePtrWritten = true →
    (wordNeedsInput w = true → s.eng.inPtrWritten = true) →
    (writeReg 0x00 w s = .refused .missingRelease ↔
      s.params.hostRelease = true ∧ ∃ i, decode w = .ok i ∧
        s.eng.statePtr.toNat % 2 ^ s.params.aw + 200 ≤ 2 ^ s.params.aw ∧
        (0 < instrInLen i → s.eng.inPtr.toNat % 2 ^ s.params.aw + instrInLen i ≤ 2 ^ s.params.aw) ∧
        ∃ a ∈ s.host.unreleased,
          (s.eng.statePtr.toNat % 2 ^ s.params.aw ≤ a ∧ a < s.eng.statePtr.toNat % 2 ^ s.params.aw + 200) ∨
          (s.eng.inPtr.toNat % 2 ^ s.params.aw ≤ a ∧ a < s.eng.inPtr.toNat % 2 ^ s.params.aw + instrInLen i)) ∧
    (writeReg 0x00 w s ≠ .refused .missingRelease → ∃ t, writeReg 0x00 w s = .next t ∧ t.eng.curW = w) ∧
    ∃ t, writeReg 0x00 w (releaseWrites s) = .next t ∧ t.eng.curW = w

/-! ### Whole-machine rules -/

/-- R220. The fault log takes every nonzero completion code and is never cleared, so that a faulted run never becomes good again:
a step that leaves an instance with another STATUS whose ERR is not 0 appends that code, and every step keeps the rest. -/
def Obligations.FaultLogRecordsEveryError : Prop :=
  ∀ s t : State, step s = .next t →
    (∃ l, t.faultLog = s.faultLog ++ l) ∧ (t.good → s.good) ∧
    ∀ (k : Nat) (e e' : Engine), s.engineAt k = some e → t.engineAt k = some e' → e'.status ≠ e.status →
      statusErr e'.status ≠ 0 → ∃ c, t.faultLog = s.faultLog ++ [c] ∧ errCode c = statusErr e'.status

/-- R45. STATUS changes only by acceptance, completion and reset: after a step instance k's STATUS is as before; or it was idle, a
register write stood first on the agenda and it shows BUSY alone, in CHECK; or it was busy and is idle with DONE = 1 and
BUSY = 0; or its reset stood first on the agenda and it is idle with 0. -/
def Obligations.StatusChangesOnlyAtCommandEnds : Prop :=
  ∀ (s t : State) (k : Nat) (e e' : Engine), s.Inv → step s = .next t → s.engineAt k = some e → t.engineAt k = some e' →
    e'.status = e.status ∨
      (e.busy = false ∧ e'.status = 0x01 ∧ e'.phase = .check ∧
        ∃ addr size v, s.agenda.head? = some (.regWrite addr size v)) ∨
      (e.busy = true ∧ e'.phase = .idle ∧ statusBusy e'.status = false ∧ statusDone e'.status = true) ∨
      (e'.phase = .idle ∧ e'.status = 0 ∧ s.agenda.head? = some (.reset k))

/-- R50. Instances share only memory: a sequencer step or a reset of one instance leaves every other instance as it was, and the
platform has as many instances as before. -/
def Obligations.EnginesShareOnlyMemory : Prop :=
  ∀ (s t : State) (j k : Nat) (ev : Event), ev = .engineStep j ∨ ev = .reset j → handle ev s = .next t →
    t.others.length = s.others.length ∧ (k ≠ j → t.engineAt k = s.engineAt k)

/-- R10, R36. No step changes the platform's parameters, the number of instances or their base addresses. -/
def Obligations.PlatformIsFixed : Prop :=
  ∀ s t : State, step s = .next t →
    t.params = s.params ∧ (t.eng :: t.others).map Engine.base = (s.eng :: s.others).map Engine.base

/-- The invariant holds right after reset. -/
def Obligations.ResetMeetsInvariant : Prop := State.reset.Inv

/-- Every step from a state that meets the invariant gives a state that meets it: STATUS shows a legal value (so BUSY = 1 ⇒
DONE = 0 ∧ ERR = 0, R42), BUSY = 1 exactly outside IDLE (R33), the round counter stays below 24, the pointers stay AW bits wide,
past CHECK every check has passed, memory keeps its canonical form within the port space, and errors are logged (R220). -/
def Obligations.StepKeepsInvariant : Prop :=
  ∀ s t : State, s.Inv → step s = .next t → t.Inv

/-- R32, R49, R161. What no agent can observe makes no difference: two states that differ only in L outside ROUND and STORE, the round
counter outside ROUND and the latched command outside a command take steps that end alike and differ again in nothing else. -/
def Obligations.HiddenStateIsUnobservable : Prop :=
  ∀ s t : State, s.Inv → t.Inv → s.visible = t.visible → outcomesAgree State.visible (step s) (step t)
end

