-- ==== Sys2Proof/Laws/Memory.lean ====
section
/-! SUPPORT. The laws of memory: a read after a write, and that every operation keeps the canonical form. -/

namespace Sys2Proof.Laws

open Sys2Proof Sys2Proof.Machine

@[simp] theorem memRead_nil (a : Nat) : memRead [] a = memUnlisted := rfl

/-- An address below every entry reads as unlisted. -/
theorem memRead_below {m : List Host.Cell} {a : Nat} (h : ∀ c ∈ m, a < c.1) : memRead m a = memUnlisted := by
  cases m with
  | nil => rfl
  | cons c m =>
    have hc := h c (by simp)
    simp [memRead, Nat.ne_of_lt hc, hc]

/-- Every entry after a write is an old one or the one written. -/
theorem mem_memWrite {m : List Host.Cell} {a : Nat} {v : Byte} {c : Host.Cell} (h : c ∈ memWrite m a v) :
    c ∈ m ∨ (c = (a, v) ∧ v ≠ memUnlisted) := by
  induction m with
  | nil =>
    simp only [memWrite] at h
    split at h <;> simp_all
  | cons d m ih =>
    obtain ⟨k, w⟩ := d
    simp only [memWrite] at h
    split at h
    · split at h <;> simp_all
      tauto
    · split at h
      · split at h <;> simp_all
        tauto
      · simp only [List.mem_cons] at h ⊢
        rcases h with h | h
        · exact .inl (.inl h)
        · rcases ih h with h | h
          · exact .inl (.inr h)
          · exact .inr h

/-- A write keeps the canonical form. -/
theorem memWrite_wf {m : List Host.Cell} (h : memWf m) (a : Nat) (v : Byte) : memWf (memWrite m a v) := by
  induction m with
  | nil => by_cases hv : v = memUnlisted <;> simp_all [memWrite, memWf]
  | cons d m ih =>
    obtain ⟨k, w⟩ := d
    obtain ⟨hp, hz⟩ := h
    rw [List.pairwise_cons] at hp
    have hm : memWf m := ⟨hp.2, fun c hc => hz c (by simp [hc])⟩
    simp only [memWrite]
    split
    · rename_i hak
      split
      · exact ⟨List.pairwise_cons.2 hp, hz⟩
      · rename_i hv
        refine ⟨List.pairwise_cons.2 ⟨?_, List.pairwise_cons.2 hp⟩, ?_⟩
        · intro c hc
          rcases List.mem_cons.1 hc with rfl | hc
          · exact hak
          · exact Nat.lt_trans hak (hp.1 c hc)
        · intro c hc
          rcases List.mem_cons.1 hc with rfl | hc
          · exact hv
          · exact hz c hc
    · rename_i hak
      split
      · rename_i hk
        subst hk
        split
        · exact hm
        · rename_i hv
          refine ⟨List.pairwise_cons.2 ⟨hp.1, hp.2⟩, ?_⟩
          intro c hc
          rcases List.mem_cons.1 hc with rfl | hc
          · exact hv
          · exact hm.2 c hc
      · rename_i hk
        refine ⟨List.pairwise_cons.2 ⟨?_, (ih hm).1⟩, ?_⟩
        · intro c hc
          rcases mem_memWrite hc with hc | ⟨rfl, -⟩
          · exact hp.1 c hc
          · simp only; omega
        · intro c hc
          rcases List.mem_cons.1 hc with rfl | hc
          · exact hz _ (by simp)
          · exact (ih hm).2 c hc

/-- What a read gives after a write: the byte written at its own address, the old byte elsewhere. -/
theorem memRead_memWrite {m : List Host.Cell} (h : memWf m) (a b : Nat) (v : Byte) :
    memRead (memWrite m a v) b = if b = a then v else memRead m b := by
  induction m with
  | nil =>
    by_cases hv : v = memUnlisted
    · simp [memWrite, hv]
    · by_cases hb : b = a <;> simp [memWrite, hv, memRead, hb]
  | cons d m ih =>
    obtain ⟨k, w⟩ := d
    obtain ⟨hp, hz⟩ := h
    rw [List.pairwise_cons] at hp
    have hm : memWf m := ⟨hp.2, fun c hc => hz c (by simp [hc])⟩
    have ih := ih hm
    simp only [memWrite]
    by_cases hak : a < k
    · simp only [hak, if_true]
      by_cases hv : v = memUnlisted
      · simp only [hv, if_true]
        split
        · rename_i hb
          subst hb
          simp [memRead, hak, Nat.ne_of_lt hak]
        · rfl
      · simp only [hv, if_false]
        by_cases hb : b = a
        · simp [memRead, hb]
        · by_cases hba : b < a
          · have : b < k := Nat.lt_trans hba hak
            simp [memRead, hb, hba, this, Nat.ne_of_lt this]
          · simp [memRead, hb, hba]
    · simp only [hak, if_false]
      by_cases hk : a = k
      · subst hk
        simp only [if_true]
        have below : memRead m a = memUnlisted := memRead_below hp.1
        by_cases hv : v = memUnlisted
        · simp only [hv, if_true]
          by_cases hb : b = a
          · subst hb; simp [below]
          · by_cases hba : b < a
            · have hall : ∀ c ∈ m, b < c.1 := fun c hc => Nat.lt_trans hba (hp.1 c hc)
              simp [hb, memRead, hba, memRead_below hall]
            · simp [hb, memRead, hba]
        · simp only [hv, if_false]
          by_cases hb : b = a <;> simp [memRead, hb]
      · simp only [hk, if_false, memRead]
        by_cases hbk : b = k
        · have : b ≠ a := by omega
          simp [hbk, show k ≠ a from fun h => hk h.symm]
        · simp only [hbk, if_false]
          by_cases hb : b < k
          · have : b ≠ a := by omega
            simp [hb, this]
          · simp [hb, ih]

/-- Filling a range keeps the canonical form. -/
theorem memFill_wf {m : List Host.Cell} (h : memWf m) (base : Nat) (f : Nat → Byte) (n : Nat) :
    memWf (memFill m base f n) := by
  induction n with
  | zero => exact h
  | succ n ih => exact memWrite_wf ih _ _

/-- What a read gives after a range is filled. -/
theorem memRead_memFill {m : List Host.Cell} (h : memWf m) (base : Nat) (f : Nat → Byte) (n b : Nat) :
    memRead (memFill m base f n) b = if base ≤ b ∧ b < base + n then f (b - base) else memRead m b := by
  induction n with
  | zero => simp [memFill, show ¬(base ≤ b ∧ b < base) by omega]
  | succ n ih =>
    rw [memFill, memRead_memWrite (memFill_wf h base f n), ih]
    by_cases hb : b = base + n
    · simp [hb]
    · by_cases hr : base ≤ b ∧ b < base + n
      · simp [hb, hr, show b < base + (n + 1) by omega]
      · simp [hb, hr, show ¬(base ≤ b ∧ b < base + (n + 1)) by omega]

/-- Every entry after a range is filled is an old one or lies in the range. -/
theorem mem_memFill {m : List Host.Cell} {base : Nat} {f : Nat → Byte} {n : Nat} {c : Host.Cell}
    (h : c ∈ memFill m base f n) : c ∈ m ∨ (base ≤ c.1 ∧ c.1 < base + n) := by
  induction n with
  | zero => exact .inl h
  | succ n ih =>
    rcases mem_memWrite h with h | ⟨rfl, -⟩
    · rcases ih h with h | h
      · exact .inl h
      · exact .inr (by omega)
    · exact .inr ⟨by simp, by simp⟩

end Sys2Proof.Laws
end

