-- ==== Sys2Proof/Laws/State.lean ====
section
/-! SUPPORT. One lemma per field per named update of the state, each true by unfolding the update, so that no proof unfolds a record update. -/

namespace Sys2Proof.Laws

open Sys2Proof Sys2Proof.Machine

/-! ### Updates of one instance -/

@[simp] theorem forgetLatch_base (aw d : Nat) (e : Engine) : (forgetLatch aw d e).base = e.base := by simp only [forgetLatch]
@[simp] theorem forgetLatch_lanes (aw d : Nat) (e : Engine) : (forgetLatch aw d e).lanes = e.lanes := by simp only [forgetLatch]
@[simp] theorem forgetLatch_phase (aw d : Nat) (e : Engine) : (forgetLatch aw d e).phase = e.phase := by simp only [forgetLatch]
@[simp] theorem forgetLatch_round (aw d : Nat) (e : Engine) : (forgetLatch aw d e).round = e.round := by simp only [forgetLatch]
@[simp] theorem forgetLatch_status (aw d : Nat) (e : Engine) : (forgetLatch aw d e).status = e.status := by simp only [forgetLatch]
@[simp] theorem forgetLatch_statePtr (aw d : Nat) (e : Engine) : (forgetLatch aw d e).statePtr = e.statePtr := by simp only [forgetLatch]
@[simp] theorem forgetLatch_inPtr (aw d : Nat) (e : Engine) : (forgetLatch aw d e).inPtr = e.inPtr := by simp only [forgetLatch]
@[simp] theorem forgetLatch_statePtrWritten (aw d : Nat) (e : Engine) : (forgetLatch aw d e).statePtrWritten = e.statePtrWritten := by simp only [forgetLatch]
@[simp] theorem forgetLatch_inPtrWritten (aw d : Nat) (e : Engine) : (forgetLatch aw d e).inPtrWritten = e.inPtrWritten := by simp only [forgetLatch]
@[simp] theorem forgetLatch_bus (aw d : Nat) (e : Engine) : (forgetLatch aw d e).bus = e.bus := by simp only [forgetLatch]

@[simp] theorem forgetLanes_base (d : Nat) (e : Engine) : (forgetLanes d e).base = e.base := by simp only [forgetLanes]
@[simp] theorem forgetLanes_phase (d : Nat) (e : Engine) : (forgetLanes d e).phase = e.phase := by simp only [forgetLanes]
@[simp] theorem forgetLanes_curW (d : Nat) (e : Engine) : (forgetLanes d e).curW = e.curW := by simp only [forgetLanes]
@[simp] theorem forgetLanes_curOp (d : Nat) (e : Engine) : (forgetLanes d e).curOp = e.curOp := by simp only [forgetLanes]
@[simp] theorem forgetLanes_curLen (d : Nat) (e : Engine) : (forgetLanes d e).curLen = e.curLen := by simp only [forgetLanes]
@[simp] theorem forgetLanes_curSp (d : Nat) (e : Engine) : (forgetLanes d e).curSp = e.curSp := by simp only [forgetLanes]
@[simp] theorem forgetLanes_curIp (d : Nat) (e : Engine) : (forgetLanes d e).curIp = e.curIp := by simp only [forgetLanes]
@[simp] theorem forgetLanes_status (d : Nat) (e : Engine) : (forgetLanes d e).status = e.status := by simp only [forgetLanes]
@[simp] theorem forgetLanes_statePtr (d : Nat) (e : Engine) : (forgetLanes d e).statePtr = e.statePtr := by simp only [forgetLanes]
@[simp] theorem forgetLanes_inPtr (d : Nat) (e : Engine) : (forgetLanes d e).inPtr = e.inPtr := by simp only [forgetLanes]
@[simp] theorem forgetLanes_statePtrWritten (d : Nat) (e : Engine) : (forgetLanes d e).statePtrWritten = e.statePtrWritten := by simp only [forgetLanes]
@[simp] theorem forgetLanes_inPtrWritten (d : Nat) (e : Engine) : (forgetLanes d e).inPtrWritten = e.inPtrWritten := by simp only [forgetLanes]
@[simp] theorem forgetLanes_bus (d : Nat) (e : Engine) : (forgetLanes d e).bus = e.bus := by simp only [forgetLanes]

@[simp] theorem latch_base (aw : Nat) (w : Word) (e : Engine) : (latch aw w e).base = e.base := by simp only [latch]
@[simp] theorem latch_lanes (aw : Nat) (w : Word) (e : Engine) : (latch aw w e).lanes = e.lanes := by simp only [latch]
@[simp] theorem latch_phase (aw : Nat) (w : Word) (e : Engine) : (latch aw w e).phase = .check := by simp only [latch]
@[simp] theorem latch_round (aw : Nat) (w : Word) (e : Engine) : (latch aw w e).round = e.round := by simp only [latch]
@[simp] theorem latch_curW (aw : Nat) (w : Word) (e : Engine) : (latch aw w e).curW = w := by simp only [latch]
@[simp] theorem latch_curOp (aw : Nat) (w : Word) (e : Engine) : (latch aw w e).curOp = cmdOp w := by simp only [latch]
@[simp] theorem latch_curLen (aw : Nat) (w : Word) (e : Engine) : (latch aw w e).curLen = cmdLen w := by simp only [latch]
@[simp] theorem latch_curSp (aw : Nat) (w : Word) (e : Engine) : (latch aw w e).curSp = maskAddr aw e.statePtr := by simp only [latch]
@[simp] theorem latch_curIp (aw : Nat) (w : Word) (e : Engine) : (latch aw w e).curIp = maskAddr aw e.inPtr := by simp only [latch]
@[simp] theorem latch_status (aw : Nat) (w : Word) (e : Engine) : (latch aw w e).status = mkStatus true false 0 := by simp only [latch]
@[simp] theorem latch_statePtr (aw : Nat) (w : Word) (e : Engine) : (latch aw w e).statePtr = e.statePtr := by simp only [latch]
@[simp] theorem latch_inPtr (aw : Nat) (w : Word) (e : Engine) : (latch aw w e).inPtr = e.inPtr := by simp only [latch]
@[simp] theorem latch_statePtrWritten (aw : Nat) (w : Word) (e : Engine) : (latch aw w e).statePtrWritten = e.statePtrWritten := by simp only [latch]
@[simp] theorem latch_inPtrWritten (aw : Nat) (w : Word) (e : Engine) : (latch aw w e).inPtrWritten = e.inPtrWritten := by simp only [latch]
@[simp] theorem latch_bus (aw : Nat) (w : Word) (e : Engine) : (latch aw w e).bus = e.bus := by simp only [latch]

@[simp] theorem engineAfterReset_base (aw d : Nat) (e : Engine) : (engineAfterReset aw d e).base = e.base := by simp only [engineAfterReset, forgetLanes, forgetLatch]
@[simp] theorem engineAfterReset_phase (aw d : Nat) (e : Engine) : (engineAfterReset aw d e).phase = .idle := by simp only [engineAfterReset, forgetLanes, forgetLatch]
@[simp] theorem engineAfterReset_status (aw d : Nat) (e : Engine) : (engineAfterReset aw d e).status = 0 := by simp only [engineAfterReset, forgetLanes, forgetLatch]
@[simp] theorem engineAfterReset_statePtrWritten (aw d : Nat) (e : Engine) : (engineAfterReset aw d e).statePtrWritten = false := by simp only [engineAfterReset, forgetLanes, forgetLatch]
@[simp] theorem engineAfterReset_inPtrWritten (aw d : Nat) (e : Engine) : (engineAfterReset aw d e).inPtrWritten = false := by simp only [engineAfterReset, forgetLanes, forgetLatch]

/-! ### Completion -/

@[simp] theorem complete_params (err : ErrCode) (s : State) : (complete err s).params = s.params := by simp only [complete, forgetLatch]
@[simp] theorem complete_others (err : ErrCode) (s : State) : (complete err s).others = s.others := by simp only [complete, forgetLatch]
@[simp] theorem complete_mem (err : ErrCode) (s : State) : (complete err s).mem = s.mem := by simp only [complete, forgetLatch]
@[simp] theorem complete_agenda (err : ErrCode) (s : State) : (complete err s).agenda = s.agenda := by simp only [complete, forgetLatch]
@[simp] theorem complete_host (err : ErrCode) (s : State) : (complete err s).host = s.host := by simp only [complete, forgetLatch]
@[simp] theorem complete_faultLog (err : ErrCode) (s : State) : (complete err s).faultLog = if err = .noError then s.faultLog else s.faultLog ++ [err] := by simp only [complete, forgetLatch]
@[simp] theorem complete_draws (err : ErrCode) (s : State) : (complete err s).draws = s.draws + 1 := by simp only [complete, forgetLatch]
@[simp] theorem complete_eng_base (err : ErrCode) (s : State) : (complete err s).eng.base = s.eng.base := by simp only [complete, forgetLatch]
@[simp] theorem complete_eng_lanes (err : ErrCode) (s : State) : (complete err s).eng.lanes = s.eng.lanes := by simp only [complete, forgetLatch]
@[simp] theorem complete_eng_phase (err : ErrCode) (s : State) : (complete err s).eng.phase = .idle := by simp only [complete, forgetLatch]
@[simp] theorem complete_eng_round (err : ErrCode) (s : State) : (complete err s).eng.round = s.eng.round := by simp only [complete, forgetLatch]
@[simp] theorem complete_eng_status (err : ErrCode) (s : State) : (complete err s).eng.status = mkStatus false true (errCode err) := by simp only [complete, forgetLatch]
@[simp] theorem complete_eng_statePtr (err : ErrCode) (s : State) : (complete err s).eng.statePtr = s.eng.statePtr := by simp only [complete, forgetLatch]
@[simp] theorem complete_eng_inPtr (err : ErrCode) (s : State) : (complete err s).eng.inPtr = s.eng.inPtr := by simp only [complete, forgetLatch]
@[simp] theorem complete_eng_statePtrWritten (err : ErrCode) (s : State) : (complete err s).eng.statePtrWritten = s.eng.statePtrWritten := by simp only [complete, forgetLatch]
@[simp] theorem complete_eng_inPtrWritten (err : ErrCode) (s : State) : (complete err s).eng.inPtrWritten = s.eng.inPtrWritten := by simp only [complete, forgetLatch]
@[simp] theorem complete_eng_bus (err : ErrCode) (s : State) : (complete err s).eng.bus = s.eng.bus := by simp only [complete, forgetLatch]

@[simp] theorem completeRun_params (err : ErrCode) (s : State) : (completeRun err s).params = s.params := by simp only [completeRun, complete, forgetLatch, forgetLanes]
@[simp] theorem completeRun_others (err : ErrCode) (s : State) : (completeRun err s).others = s.others := by simp only [completeRun, complete, forgetLatch, forgetLanes]
@[simp] theorem completeRun_mem (err : ErrCode) (s : State) : (completeRun err s).mem = s.mem := by simp only [completeRun, complete, forgetLatch, forgetLanes]
@[simp] theorem completeRun_agenda (err : ErrCode) (s : State) : (completeRun err s).agenda = s.agenda := by simp only [completeRun, complete, forgetLatch, forgetLanes]
@[simp] theorem completeRun_host (err : ErrCode) (s : State) : (completeRun err s).host = s.host := by simp only [completeRun, complete, forgetLatch, forgetLanes]
@[simp] theorem completeRun_faultLog (err : ErrCode) (s : State) : (completeRun err s).faultLog = if err = .noError then s.faultLog else s.faultLog ++ [err] := by simp only [completeRun, complete, forgetLatch, forgetLanes]
@[simp] theorem completeRun_draws (err : ErrCode) (s : State) : (completeRun err s).draws = s.draws + 1 := by simp only [completeRun, complete, forgetLatch, forgetLanes]
@[simp] theorem completeRun_eng_base (err : ErrCode) (s : State) : (completeRun err s).eng.base = s.eng.base := by simp only [completeRun, complete, forgetLatch, forgetLanes]
@[simp] theorem completeRun_eng_phase (err : ErrCode) (s : State) : (completeRun err s).eng.phase = .idle := by simp only [completeRun, complete, forgetLatch, forgetLanes]
@[simp] theorem completeRun_eng_status (err : ErrCode) (s : State) : (completeRun err s).eng.status = mkStatus false true (errCode err) := by simp only [completeRun, complete, forgetLatch, forgetLanes]
@[simp] theorem completeRun_eng_statePtr (err : ErrCode) (s : State) : (completeRun err s).eng.statePtr = s.eng.statePtr := by simp only [completeRun, complete, forgetLatch, forgetLanes]
@[simp] theorem completeRun_eng_inPtr (err : ErrCode) (s : State) : (completeRun err s).eng.inPtr = s.eng.inPtr := by simp only [completeRun, complete, forgetLatch, forgetLanes]
@[simp] theorem completeRun_eng_statePtrWritten (err : ErrCode) (s : State) : (completeRun err s).eng.statePtrWritten = s.eng.statePtrWritten := by simp only [completeRun, complete, forgetLatch, forgetLanes]
@[simp] theorem completeRun_eng_inPtrWritten (err : ErrCode) (s : State) : (completeRun err s).eng.inPtrWritten = s.eng.inPtrWritten := by simp only [completeRun, complete, forgetLatch, forgetLanes]
@[simp] theorem completeRun_eng_bus (err : ErrCode) (s : State) : (completeRun err s).eng.bus = s.eng.bus := by simp only [completeRun, complete, forgetLatch, forgetLanes]

/-! ### The phases -/

@[simp] theorem popBus_params (s : State) : (popBus s).params = s.params := by simp only [popBus]
@[simp] theorem popBus_others (s : State) : (popBus s).others = s.others := by simp only [popBus]
@[simp] theorem popBus_mem (s : State) : (popBus s).mem = s.mem := by simp only [popBus]
@[simp] theorem popBus_agenda (s : State) : (popBus s).agenda = s.agenda := by simp only [popBus]
@[simp] theorem popBus_host (s : State) : (popBus s).host = s.host := by simp only [popBus]
@[simp] theorem popBus_faultLog (s : State) : (popBus s).faultLog = s.faultLog := by simp only [popBus]
@[simp] theorem popBus_draws (s : State) : (popBus s).draws = s.draws := by simp only [popBus]
@[simp] theorem popBus_eng_base (s : State) : (popBus s).eng.base = s.eng.base := by simp only [popBus]
@[simp] theorem popBus_eng_lanes (s : State) : (popBus s).eng.lanes = s.eng.lanes := by simp only [popBus]
@[simp] theorem popBus_eng_phase (s : State) : (popBus s).eng.phase = s.eng.phase := by simp only [popBus]
@[simp] theorem popBus_eng_round (s : State) : (popBus s).eng.round = s.eng.round := by simp only [popBus]
@[simp] theorem popBus_eng_curW (s : State) : (popBus s).eng.curW = s.eng.curW := by simp only [popBus]
@[simp] theorem popBus_eng_curOp (s : State) : (popBus s).eng.curOp = s.eng.curOp := by simp only [popBus]
@[simp] theorem popBus_eng_curLen (s : State) : (popBus s).eng.curLen = s.eng.curLen := by simp only [popBus]
@[simp] theorem popBus_eng_curSp (s : State) : (popBus s).eng.curSp = s.eng.curSp := by simp only [popBus]
@[simp] theorem popBus_eng_curIp (s : State) : (popBus s).eng.curIp = s.eng.curIp := by simp only [popBus]
@[simp] theorem popBus_eng_status (s : State) : (popBus s).eng.status = s.eng.status := by simp only [popBus]
@[simp] theorem popBus_eng_statePtr (s : State) : (popBus s).eng.statePtr = s.eng.statePtr := by simp only [popBus]
@[simp] theorem popBus_eng_inPtr (s : State) : (popBus s).eng.inPtr = s.eng.inPtr := by simp only [popBus]
@[simp] theorem popBus_eng_statePtrWritten (s : State) : (popBus s).eng.statePtrWritten = s.eng.statePtrWritten := by simp only [popBus]
@[simp] theorem popBus_eng_inPtrWritten (s : State) : (popBus s).eng.inPtrWritten = s.eng.inPtrWritten := by simp only [popBus]
@[simp] theorem popBus_eng_bus (s : State) : (popBus s).eng.bus = s.eng.bus.tail := by simp only [popBus]

@[simp] theorem recordResult_params (s : State) : (recordResult s).params = s.params := by simp only [recordResult]
@[simp] theorem recordResult_eng (s : State) : (recordResult s).eng = s.eng := by simp only [recordResult]
@[simp] theorem recordResult_others (s : State) : (recordResult s).others = s.others := by simp only [recordResult]
@[simp] theorem recordResult_mem (s : State) : (recordResult s).mem = s.mem := by simp only [recordResult]
@[simp] theorem recordResult_agenda (s : State) : (recordResult s).agenda = s.agenda := by simp only [recordResult]
@[simp] theorem recordResult_host_unreleased (s : State) : (recordResult s).host.unreleased = s.host.unreleased := by simp only [recordResult]
@[simp] theorem recordResult_host_unordered (s : State) : (recordResult s).host.unordered = s.host.unordered := by simp only [recordResult]
@[simp] theorem recordResult_host_readData (s : State) : (recordResult s).host.readData = s.host.readData := by simp only [recordResult]
@[simp] theorem recordResult_faultLog (s : State) : (recordResult s).faultLog = s.faultLog := by simp only [recordResult]
@[simp] theorem recordResult_draws (s : State) : (recordResult s).draws = s.draws := by simp only [recordResult]

@[simp] theorem roundPhase_params (s : State) : (roundPhase s).params = s.params := by simp only [roundPhase]
@[simp] theorem roundPhase_others (s : State) : (roundPhase s).others = s.others := by simp only [roundPhase]
@[simp] theorem roundPhase_mem (s : State) : (roundPhase s).mem = s.mem := by simp only [roundPhase]
@[simp] theorem roundPhase_agenda (s : State) : (roundPhase s).agenda = s.agenda := by simp only [roundPhase]
@[simp] theorem roundPhase_host (s : State) : (roundPhase s).host = s.host := by simp only [roundPhase]
@[simp] theorem roundPhase_faultLog (s : State) : (roundPhase s).faultLog = s.faultLog := by simp only [roundPhase]
@[simp] theorem roundPhase_draws (s : State) : (roundPhase s).draws = s.draws := by simp only [roundPhase]
@[simp] theorem roundPhase_eng_base (s : State) : (roundPhase s).eng.base = s.eng.base := by simp only [roundPhase]
@[simp] theorem roundPhase_eng_lanes (s : State) : (roundPhase s).eng.lanes = keccakF s.eng.lanes := by simp only [roundPhase]
@[simp] theorem roundPhase_eng_phase (s : State) : (roundPhase s).eng.phase = .store := by simp only [roundPhase]
@[simp] theorem roundPhase_eng_round (s : State) : (roundPhase s).eng.round = 23 := by simp only [roundPhase]
@[simp] theorem roundPhase_eng_curW (s : State) : (roundPhase s).eng.curW = s.eng.curW := by simp only [roundPhase]
@[simp] theorem roundPhase_eng_curOp (s : State) : (roundPhase s).eng.curOp = s.eng.curOp := by simp only [roundPhase]
@[simp] theorem roundPhase_eng_curLen (s : State) : (roundPhase s).eng.curLen = s.eng.curLen := by simp only [roundPhase]
@[simp] theorem roundPhase_eng_curSp (s : State) : (roundPhase s).eng.curSp = s.eng.curSp := by simp only [roundPhase]
@[simp] theorem roundPhase_eng_curIp (s : State) : (roundPhase s).eng.curIp = s.eng.curIp := by simp only [roundPhase]
@[simp] theorem roundPhase_eng_status (s : State) : (roundPhase s).eng.status = s.eng.status := by simp only [roundPhase]
@[simp] theorem roundPhase_eng_statePtr (s : State) : (roundPhase s).eng.statePtr = s.eng.statePtr := by simp only [roundPhase]
@[simp] theorem roundPhase_eng_inPtr (s : State) : (roundPhase s).eng.inPtr = s.eng.inPtr := by simp only [roundPhase]
@[simp] theorem roundPhase_eng_statePtrWritten (s : State) : (roundPhase s).eng.statePtrWritten = s.eng.statePtrWritten := by simp only [roundPhase]
@[simp] theorem roundPhase_eng_inPtrWritten (s : State) : (roundPhase s).eng.inPtrWritten = s.eng.inPtrWritten := by simp only [roundPhase]
@[simp] theorem roundPhase_eng_bus (s : State) : (roundPhase s).eng.bus = s.eng.bus := by simp only [roundPhase]

@[simp] theorem resetEngine_params (s : State) : (resetEngine s).params = s.params := by simp only [resetEngine]
@[simp] theorem resetEngine_eng (s : State) : (resetEngine s).eng = engineAfterReset s.params.aw s.draws s.eng := by simp only [resetEngine]
@[simp] theorem resetEngine_others (s : State) : (resetEngine s).others = s.others := by simp only [resetEngine]
@[simp] theorem resetEngine_mem (s : State) : (resetEngine s).mem = if s.eng.busy then freeState s.params.aw s.draws s.eng.spAddr s.mem else s.mem := by simp only [resetEngine]
@[simp] theorem resetEngine_agenda (s : State) : (resetEngine s).agenda = s.agenda := by simp only [resetEngine]
@[simp] theorem resetEngine_host (s : State) : (resetEngine s).host = s.host := by simp only [resetEngine]
@[simp] theorem resetEngine_faultLog (s : State) : (resetEngine s).faultLog = s.faultLog := by simp only [resetEngine]
@[simp] theorem resetEngine_draws (s : State) : (resetEngine s).draws = s.draws + 1 := by simp only [resetEngine]

/-! ### The host's side -/

@[simp] theorem acceptCmd_params (w : Word) (s : State) : (acceptCmd w s).params = s.params := by simp only [acceptCmd]
@[simp] theorem acceptCmd_eng (w : Word) (s : State) : (acceptCmd w s).eng = latch s.params.aw w s.eng := by simp only [acceptCmd]
@[simp] theorem acceptCmd_others (w : Word) (s : State) : (acceptCmd w s).others = s.others := by simp only [acceptCmd]
@[simp] theorem acceptCmd_mem (w : Word) (s : State) : (acceptCmd w s).mem = s.mem := by simp only [acceptCmd]
@[simp] theorem acceptCmd_agenda (w : Word) (s : State) : (acceptCmd w s).agenda = s.agenda := by simp only [acceptCmd]
@[simp] theorem acceptCmd_faultLog (w : Word) (s : State) : (acceptCmd w s).faultLog = s.faultLog := by simp only [acceptCmd]
@[simp] theorem acceptCmd_draws (w : Word) (s : State) : (acceptCmd w s).draws = s.draws := by simp only [acceptCmd]

@[simp] theorem returnRead_params (v : Word) (s : State) : (returnRead v s).params = s.params := by simp only [returnRead]
@[simp] theorem returnRead_eng (v : Word) (s : State) : (returnRead v s).eng = s.eng := by simp only [returnRead]
@[simp] theorem returnRead_others (v : Word) (s : State) : (returnRead v s).others = s.others := by simp only [returnRead]
@[simp] theorem returnRead_mem (v : Word) (s : State) : (returnRead v s).mem = s.mem := by simp only [returnRead]
@[simp] theorem returnRead_agenda (v : Word) (s : State) : (returnRead v s).agenda = s.agenda := by simp only [returnRead]
@[simp] theorem returnRead_faultLog (v : Word) (s : State) : (returnRead v s).faultLog = s.faultLog := by simp only [returnRead]
@[simp] theorem returnRead_draws (v : Word) (s : State) : (returnRead v s).draws = s.draws := by simp only [returnRead]

@[simp] theorem returnRead_readData (v : Word) (s : State) : (returnRead v s).host.readData = v := by simp only [returnRead]

/-! ### Choosing an instance -/

section Swap

variable (j : Nat) (s : State)

@[simp] theorem swapEngine_params : (swapEngine j s).params = s.params := by unfold swapEngine; split <;> rfl
@[simp] theorem swapEngine_mem : (swapEngine j s).mem = s.mem := by unfold swapEngine; split <;> rfl
@[simp] theorem swapEngine_agenda : (swapEngine j s).agenda = s.agenda := by unfold swapEngine; split <;> rfl
@[simp] theorem swapEngine_host : (swapEngine j s).host = s.host := by unfold swapEngine; split <;> rfl
@[simp] theorem swapEngine_faultLog : (swapEngine j s).faultLog = s.faultLog := by unfold swapEngine; split <;> rfl
@[simp] theorem swapEngine_draws : (swapEngine j s).draws = s.draws := by unfold swapEngine; split <;> rfl

end Swap

end Sys2Proof.Laws
end

