-- ==== Sys2Proof/Laws/Ops.lean ====
section
/-! SUPPORT. One lemma per shared operation that says everything it can do. -/

namespace Sys2Proof.Laws

open Sys2Proof Sys2Proof.Machine

/-! ### Outcomes -/

@[simp] theorem andThen_next (s : State) (f : State → Host.Outcome State Fault Refusal) : andThen (.next s) f = f s := by
  simp only [andThen]

@[simp] theorem andThen_fault (r : Fault) (f : State → Host.Outcome State Fault Refusal) :
    andThen (.fault r) f = .fault r := by
  simp only [andThen]

@[simp] theorem andThen_refused (r : Refusal) (f : State → Host.Outcome State Fault Refusal) :
    andThen (.refused r) f = .refused r := by
  simp only [andThen]

theorem andThen_eq_next {o : Host.Outcome State Fault Refusal} {f : State → Host.Outcome State Fault Refusal} {t : State} :
    andThen o f = .next t ↔ ∃ s, o = .next s ∧ f s = .next t := by
  cases o <;> simp

theorem andThen_assoc (o : Host.Outcome State Fault Refusal) (f g : State → Host.Outcome State Fault Refusal) :
    andThen (andThen o f) g = andThen o fun s => andThen (f s) g := by
  cases o <;> simp only [andThen]

/-! ### Address ranges -/

theorem rangeFails_iff {aw sp ip n : Nat} :
    rangeFails aw sp ip n = true ↔ 2 ^ aw < sp + 200 ∨ (0 < n ∧ 2 ^ aw < ip + n) := by
  simp [rangeFails]

theorem rangeFails_false_iff {aw sp ip n : Nat} :
    rangeFails aw sp ip n = false ↔ sp + 200 ≤ 2 ^ aw ∧ (0 < n → ip + n ≤ 2 ^ aw) := by
  simp [rangeFails]

theorem inRange_iff {a base len : Nat} : inRange a base len = true ↔ base ≤ a ∧ a < base + len := by
  simp [inRange]

theorem inRange_false_iff {a base len : Nat} : inRange a base len = false ↔ ¬(base ≤ a ∧ a < base + len) := by
  simp [inRange]

theorem rangesOverlap_iff {a la b lb : Nat} :
    rangesOverlap a la b lb = true ↔ ((0 < la ∧ 0 < lb) ∧ a < b + lb) ∧ b < a + la := by
  simp [rangesOverlap]

/-- A range with no byte overlaps none. -/
@[simp] theorem rangesOverlap_zero (a b lb : Nat) : rangesOverlap a 0 b lb = false := by
  simp [rangesOverlap]

/-- Two ranges overlap exactly where an address lies in both. -/
theorem rangesOverlap_iff_exists {a la b lb : Nat} :
    rangesOverlap a la b lb = true ↔ ∃ x, (a ≤ x ∧ x < a + la) ∧ b ≤ x ∧ x < b + lb := by
  rw [rangesOverlap_iff]
  constructor
  · intro h
    exact ⟨max a b, by omega, by omega⟩
  · rintro ⟨x, h1, h2⟩
    omega

/-- The buffers touch device memory exactly where a byte of S or IN lies in a device region. -/
theorem touchesDevice_iff {p : Params} {sp ip n : Nat} :
    touchesDevice p sp ip n = true ↔ ∃ d ∈ p.devices, ∃ a, d.base ≤ a ∧ a < d.base + d.size ∧
      ((sp ≤ a ∧ a < sp + 200) ∨ (ip ≤ a ∧ a < ip + n)) := by
  simp only [touchesDevice, List.any_eq_true, Bool.or_eq_true, rangesOverlap_iff_exists]
  refine exists_congr fun d => and_congr_right fun _ => ?_
  constructor
  · rintro (⟨x, h1, h2⟩ | ⟨x, h1, h2⟩)
    · exact ⟨x, h2.1, h2.2, .inl h1⟩
    · exact ⟨x, h2.1, h2.2, .inr h1⟩
  · rintro ⟨x, h1, h2, h3 | h3⟩
    · exact .inl ⟨x, h3, h1, h2⟩
    · exact .inr ⟨x, h3, h1, h2⟩

/-- STORE races exactly where a byte of S belongs to another busy instance. -/
theorem storeRaces_iff {others : List Engine} {sp : Nat} :
    storeRaces others sp = true ↔
      ∃ e ∈ others, ∃ a, sp ≤ a ∧ a < sp + 200 ∧ (e.ownsState a = true ∨ e.ownsInput a = true) := by
  simp only [storeRaces, List.any_eq_true, Engine.writeRaces, Engine.ownsState, Engine.ownsInput, Bool.and_eq_true,
    Bool.or_eq_true, rangesOverlap_iff_exists, inRange_iff]
  refine exists_congr fun e => and_congr_right fun _ => ?_
  constructor
  · rintro ⟨hb, ⟨x, h1, h2⟩ | ⟨x, h1, h2⟩⟩
    · exact ⟨x, h1.1, h1.2, .inl ⟨hb, h2⟩⟩
    · exact ⟨x, h1.1, h1.2, .inr ⟨hb, h2⟩⟩
  · rintro ⟨x, h1, h2, ⟨hb, h3⟩ | ⟨hb, h3⟩⟩
    · exact ⟨hb, .inl ⟨x, ⟨h1, h2⟩, h3⟩⟩
    · exact ⟨hb, .inr ⟨x, ⟨h1, h2⟩, h3⟩⟩

/-! ### What a phase writes to memory -/

/-- STORE keeps the canonical form. -/
theorem storeLanes_wf {m : List Host.Cell} (h : memWf m) (sp : Nat) (A : Lanes) : memWf (storeLanes m sp A) := by
  unfold storeLanes
  exact memFill_wf h _ _ _

/-- What a read gives after STORE: the lanes' byte in the 200 bytes, the old byte elsewhere. -/
theorem memRead_storeLanes {m : List Host.Cell} (h : memWf m) (sp : Nat) (A : Lanes) (a : Nat) :
    memRead (storeLanes m sp A) a = if sp ≤ a ∧ a < sp + 200 then laneByte A (a - sp) else memRead m a := by
  unfold storeLanes
  exact memRead_memFill h _ _ _ _

/-- Every entry after STORE is an old one or lies in the 200 bytes. -/
theorem mem_storeLanes {m : List Host.Cell} {sp : Nat} {A : Lanes} {c : Host.Cell} (h : c ∈ storeLanes m sp A) :
    c ∈ m ∨ (sp ≤ c.1 ∧ c.1 < sp + 200) := by
  unfold storeLanes at h
  exact mem_memFill h

/-- Freeing a state buffer keeps the canonical form. -/
theorem freeState_wf {m : List Host.Cell} (h : memWf m) (aw d sp : Nat) : memWf (freeState aw d sp m) := by
  unfold freeState
  exact memFill_wf h _ _ _

/-- What a read gives after a state buffer is freed: a free value in its bytes within the space, the old byte elsewhere. -/
theorem memRead_freeState {m : List Host.Cell} (h : memWf m) (aw d sp a : Nat) :
    memRead (freeState aw d sp m) a =
      if sp ≤ a ∧ a < sp + 200 ∧ a < 2 ^ aw then Config.freeByte d a else memRead m a := by
  unfold freeState
  rw [memRead_memFill h]
  by_cases h1 : sp ≤ a ∧ a < sp + min 200 (2 ^ aw - sp)
  · rw [if_pos h1, if_pos (by omega)]
    congr 1
    omega
  · rw [if_neg h1, if_neg (by omega)]

/-- Every entry after a state buffer is freed is an old one or lies in its bytes within the space. -/
theorem mem_freeState {m : List Host.Cell} {aw d sp : Nat} {c : Host.Cell} (h : c ∈ freeState aw d sp m) :
    c ∈ m ∨ (sp ≤ c.1 ∧ c.1 < sp + 200 ∧ c.1 < 2 ^ aw) := by
  unfold freeState at h
  rcases mem_memFill h with h | h
  · exact .inl h
  · exact .inr (by omega)

/-! ### The phases -/

/-- Everything LOAD can do when it answers a next state. -/
theorem loadPhase_cases {n : Nat} {s t : State} (h : loadPhase n s = .next t) :
    touchesDevice s.params s.eng.spAddr s.eng.ipAddr n = false ∧
    ((busReply s.params s.eng.bus = .hang ∧ t = { s with eng := { s.eng with phase := .load } }) ∨
     (busReply s.params s.eng.bus = .error ∧ t = completeRun .bus (popBus s)) ∨
     (busReply s.params s.eng.bus = .ok ∧
        t = { popBus s with
          eng := { (popBus s).eng with lanes := lanesFromBytes (loadByte s.others s.mem s.draws s.eng.spAddr s.eng.ipAddr n), round := 0, phase := .round }
          draws := s.draws + 2 })) := by
  unfold loadPhase at h
  split at h
  · cases h
  · rename_i hd
    refine ⟨by simpa using hd, ?_⟩
    cases hb : busReply s.params s.eng.bus <;> simp only [hb] at h <;> cases h <;> simp

/-- Everything STORE can do when it answers a next state. -/
theorem storePhase_cases {s t : State} (h : storePhase s = .next t) :
    storeRaces s.others s.eng.spAddr = false ∧
    ((busReply s.params s.eng.bus = .hang ∧ t = { s with eng := { s.eng with phase := .store } }) ∨
     (busReply s.params s.eng.bus = .error ∧
        t = completeRun .bus (recordResult { popBus s with
          mem := freeState s.params.aw s.draws s.eng.spAddr s.mem
          draws := s.draws + 1 })) ∨
     (busReply s.params s.eng.bus = .ok ∧
        t = completeRun .noError (recordResult { popBus s with
          mem := storeLanes s.mem s.eng.spAddr s.eng.lanes }))) := by
  unfold storePhase at h
  split at h
  · cases h
  · rename_i hd
    refine ⟨by simpa using hd, ?_⟩
    cases hb : busReply s.params s.eng.bus <;> simp only [hb] at h <;> cases h <;> simp

/-- Everything a command's transaction can do when it answers a next state: RANGE, an end in LOAD, or STORE's end. -/
theorem runCommand_cases {n : Nat} {s t : State} (h : runCommand n s = .next t) :
    (rangeFails s.params.aw s.eng.spAddr s.eng.ipAddr n = true ∧ t = complete .range s) ∨
    (rangeFails s.params.aw s.eng.spAddr s.eng.ipAddr n = false ∧
      ((loadPhase n s = .next t ∧ t.eng.phase ≠ .round) ∨
       ∃ u, loadPhase n s = .next u ∧ u.eng.phase = .round ∧ storePhase (roundPhase u) = .next t)) := by
  unfold runCommand at h
  split at h
  · rename_i hr
    cases h
    exact .inl ⟨hr, rfl⟩
  · rename_i hr
    refine .inr ⟨by simpa using hr, ?_⟩
    obtain ⟨u, hu, ht⟩ := andThen_eq_next.1 h
    split at ht
    · rename_i hp
      exact .inr ⟨u, hu, hp, ht⟩
    · rename_i hp
      cases ht
      exact .inl ⟨hu, hp⟩

/-- Everything a sequencer step can do when it answers a next state. -/
theorem engineStep_cases {s t : State} (h : engineStep s = .next t) :
    (s.eng.phase = .idle ∧ t = s) ∨ (s.eng.phase = .check ∧ t = checkPhase s) ∨
    (s.eng.phase = .load ∧ loadPhase s.eng.inLen s = .next t) ∨
    (s.eng.phase = .round ∧ s.eng.round.toNat < 24 ∧ t = roundStep s) ∨
    (s.eng.phase = .store ∧ storePhase s = .next t) := by
  unfold engineStep at h
  cases hp : s.eng.phase <;> simp only [hp] at h
  · cases h; simp
  · cases h; simp
  · simp [h]
  · split at h
    · rename_i hr
      cases h
      exact .inr (.inr (.inr (.inl ⟨rfl, hr, rfl⟩)))
    · cases h
  · simp [h]

/-- Everything CHECK can do: complete with the first failing check, or go on to LOAD. -/
theorem checkPhase_eq (s : State) :
    checkPhase s =
      if firstCheckError s.params.aw s.eng.curW s.eng.spAddr s.eng.ipAddr = .noError then
        { s with eng := { s.eng with phase := .load } }
      else complete (firstCheckError s.params.aw s.eng.curW s.eng.spAddr s.eng.ipAddr) s := by
  unfold checkPhase firstCheckError
  cases hd : decode s.eng.curW with
  | error e => cases e <;> simp [decodeErrCode]
  | ok i => by_cases hr : rangeFails s.params.aw s.eng.spAddr s.eng.ipAddr (instrInLen i) = true <;> simp [hr]

/-- Everything an accepted or refused CMD write can do. -/
theorem writeCmd_cases {w : Word} {s t : State} (h : writeCmd w s = .next t) :
    s.eng.busy = false ∧ s.eng.statePtrWritten = true ∧ (wordNeedsInput w = true → s.eng.inPtrWritten = true) ∧
      releaseMissing w s = false ∧ t = acceptCmd w s := by
  unfold writeCmd at h
  split at h
  · cases h
  split at h
  · cases h
  split at h
  · cases h
  split at h
  · cases h
  · cases h
    simp_all

/-! ### Choosing an instance -/

@[simp] theorem withEngine_zero (f : State → Host.Outcome State Fault Refusal) (s : State) : withEngine 0 f s = f s := by
  simp only [withEngine]

/-- An operation that leaves `others` alone, run for instance j + 1. -/
theorem withEngine_succ {j : Nat} {f : State → Host.Outcome State Fault Refusal} {s t : State}
    (h : withEngine (j + 1) f s = .next t) :
    j < s.others.length ∧ ∃ u, f (swapEngine j s) = .next u ∧ t = swapEngine j u := by
  simp only [withEngine] at h
  split at h
  · rename_i hj
    obtain ⟨u, hu, ht⟩ := andThen_eq_next.1 h
    cases ht
    exact ⟨hj, u, hu, rfl⟩
  · cases h

/-- Exchanging twice changes nothing. -/
theorem swapEngine_swapEngine (j : Nat) (s : State) : swapEngine j (swapEngine j s) = s := by
  cases h : s.others[j]? with
  | none =>
    have : swapEngine j s = s := by simp [swapEngine, h]
    rw [this, this]
  | some e =>
    obtain ⟨hj, he⟩ := List.getElem?_eq_some_iff.1 h
    have h1 : swapEngine j s = { s with eng := e, others := s.others.set j s.eng } := by simp [swapEngine, h]
    rw [h1]
    simp [swapEngine, List.getElem?_set_self hj, ← he]

/-- An instance brought to `eng` is the one of that number. -/
theorem focus_eng {k : Nat} {s : State} {e : Engine} (h : s.engineAt k = some e) : (focus k s).eng = e := by
  cases k with
  | zero => simpa [State.engineAt, focus] using h
  | succ j =>
    have h : s.others[j]? = some e := by simpa [State.engineAt] using h
    simp [focus, swapEngine, h]

/-- Instances are numbered up to the length of `others`. -/
theorem engineAt_eq_some {k : Nat} {s : State} (h : k ≤ s.others.length) : ∃ e, s.engineAt k = some e :=
  ⟨_, List.getElem?_eq_getElem (by simpa using Nat.lt_succ_of_le h)⟩

/-- An instance number of the platform is at most the length of `others`. -/
theorem le_of_engineAt {k : Nat} {s : State} {e : Engine} (h : s.engineAt k = some e) : k ≤ s.others.length := by
  have := (List.getElem?_eq_some_iff.1 h).1
  simpa [Nat.lt_succ_iff] using this

/-- An instance acts at `eng` and goes back to its place. -/
theorem withEngine_eq_focus {k : Nat} {s : State} (h : k ≤ s.others.length)
    (f : State → Host.Outcome State Fault Refusal) :
    withEngine k f s = andThen (f (focus k s)) fun t => .next (focus k t) := by
  cases k with
  | zero => cases hf : f s <;> simp [focus, hf]
  | succ j => simp only [withEngine, focus, if_pos (Nat.lt_of_succ_le h)]

/-- The first block that holds the address answers, with its place in the list and the offset. -/
theorem findBlock_eq {es : List Engine} {addr k n : Nat} {e : Engine} (he : es[k]? = some e)
    (ha : inRange addr e.base 0x20 = true)
    (hf : ∀ (j : Nat) (e' : Engine), j < k → es[j]? = some e' → inRange addr e'.base 0x20 = false) :
    findBlock es addr n = some (n + k, addr - e.base) := by
  induction es generalizing k n with
  | nil => simp at he
  | cons a es ih =>
    cases k with
    | zero =>
      obtain rfl : a = e := by simpa using he
      simp [findBlock, ha]
    | succ k =>
      have h0 := hf 0 a (by omega) (by simp)
      rw [findBlock, if_neg (by simp [h0]), ih (by simpa using he) fun j e' hj h => hf (j + 1) e' (by omega) (by simpa using h)]
      congr 2
      omega

/-- A busy instance at `eng` that can step is the next to run. -/
theorem nextToRun_zero {s : State} (hb : s.eng.busy = true) (hs : standsStill s = false) : nextToRun s = some 0 := by
  unfold nextToRun
  rw [List.range_succ_eq_map, List.find?_cons_of_pos]
  simp [focus, hb, hs]

/-- Whoever is the next to run is busy and can step. -/
theorem nextToRun_some {s : State} {k : Nat} (h : nextToRun s = some k) :
    k ≤ s.others.length ∧ (focus k s).eng.busy = true ∧ standsStill (focus k s) = false := by
  have h1 := List.find?_some h
  have h2 := List.mem_of_find?_eq_some h
  simp only [Bool.and_eq_true, Bool.not_eq_true'] at h1
  exact ⟨Nat.lt_succ_iff.1 (List.mem_range.1 h2), h1⟩

/-- Where none is the next to run, every busy instance stands still. -/
theorem nextToRun_none {s : State} (h : nextToRun s = none) {k : Nat} (hk : k ≤ s.others.length)
    (hb : (focus k s).eng.busy = true) : standsStill (focus k s) = true := by
  have := List.find?_eq_none.1 h k (List.mem_range.2 (Nat.lt_succ_of_le hk))
  simpa [hb] using this

/-- An instance that stands still is where its step leaves it. -/
theorem engineStep_standsStill {s : State} (h : standsStill s = true) : engineStep s = .next s := by
  unfold standsStill at h
  unfold engineStep
  cases hp : s.eng.phase <;> simp only [hp] at h ⊢
  all_goals first | cases h | skip
  · simp only [Bool.and_eq_true, Bool.not_eq_true', beq_iff_eq] at h
    simp only [loadPhase, h.1, h.2, ← hp]
    simp
  · simp only [Bool.and_eq_true, Bool.not_eq_true', beq_iff_eq] at h
    simp only [storePhase, h.1, h.2, ← hp]
    simp

/-! ### The host's record of stored results -/

/-- What is left of the records: a byte is in one exactly if it was and `p` does not pick it. -/
theorem mem_dropBytes {p : Nat → Bool} {l : List HostResult} {r : HostResult} (h : r ∈ dropBytes p l) {a : Nat}
    (ha : a ∈ r.bytes) : p a = false := by
  simp only [dropBytes, List.mem_filter, List.mem_map] at h
  obtain ⟨⟨q, -, rfl⟩, -⟩ := h
  simpa using (List.mem_filter.1 ha).2

/-- After a STORE the only record of a byte of S is that instance's. -/
theorem recordResult_base {s : State} {r : HostResult} {a : Nat} (h : r ∈ (recordResult s).host.results) (ha : a ∈ r.bytes)
    (hs : inRange a s.eng.spAddr 200 = true) : r.base = s.eng.base := by
  simp only [recordResult, List.mem_append, List.mem_singleton] at h
  rcases h with h | rfl
  · rw [mem_dropBytes h ha] at hs
    cases hs
  · rfl

/-! ### Sequencer runs -/

/-- A run of the sequencer in two parts. -/
theorem engineSteps_add (m n : Nat) (s : State) :
    engineSteps (m + n) s = andThen (engineSteps m s) (engineSteps n) := by
  induction m generalizing s with
  | zero => simp [engineSteps]
  | succ m ih =>
    rw [Nat.add_right_comm, engineSteps, engineSteps, andThen_assoc]
    congr 1
    funext t
    exact ih t

/-- A run of the sequencer with its last step taken apart. -/
theorem engineSteps_succ_right (n : Nat) (s : State) :
    engineSteps (n + 1) s = andThen (engineSteps n s) engineStep := by
  rw [engineSteps_add]
  congr 1
  funext t
  rw [engineSteps]
  cases engineStep t <;> simp [engineSteps]

/-- A sequencer that stands still stands still for ever. -/
theorem engineSteps_fix {s : State} (h : engineStep s = .next s) (n : Nat) : engineSteps n s = .next s := by
  induction n with
  | zero => simp only [engineSteps]
  | succ n ih => rw [engineSteps, h, andThen_next, ih]

/-! ### Reads -/

/-- A read of the port is a read of memory where no other busy instance owns the byte. -/
theorem portRead_eq {others : List Engine} {a : Nat} (h : ∀ e ∈ others, e.ownsState a = false) (m : List Host.Cell)
    (d : Nat) : portRead others m d a = memRead m a := by
  have : others.any (fun e => e.ownsState a) = false := by
    simpa using h
  simp [portRead, this]

end Sys2Proof.Laws
end

