-- ==== Sys2Proof/Laws/PerInstr.lean ====
section
/-! SUPPORT. Per-instruction statements about the syntax: the command word of an instruction sets no reserved field
(spec 30_encoding.md R90). -/

namespace Sys2Proof.Laws.ReservedClear

/-- The encoded word has RSV0, RSV1 and RSV2 equal to 0. -/
def Statement (i : Instr) : Prop := cmdReservedSet (encode i) = false

theorem permute : Statement .permute := by
  unfold Statement
  decide

theorem absorb (len : BitVec 8) : Statement (.absorb len) := by
  unfold Statement
  have h0 : cmdRsv0 (encode (.absorb len)) = 0 := by
    apply BitVec.eq_of_getLsbD_eq
    intro k hk
    have : k < 4 := hk
    simp only [cmdRsv0, encode, BitVec.getLsbD_extractLsb', BitVec.getLsbD_or, BitVec.getLsbD_shiftLeft]
    interval_cases k <;> simp
  have h1 : cmdRsv1 (encode (.absorb len)) = 0 := by
    apply BitVec.eq_of_getLsbD_eq
    intro k hk
    have : ¬(16 + k - 8 < 8) := by omega
    simp [cmdRsv1, encode, BitVec.getLsbD_extractLsb', BitVec.getLsbD_or, BitVec.getLsbD_shiftLeft]
    intro _
    interval_cases k <;> simp
  have h2 : cmdRsv2 (encode (.absorb len)) = 0 := by
    apply BitVec.eq_of_getLsbD_eq
    intro k hk
    simp [cmdRsv2, encode, BitVec.getLsbD_extractLsb', BitVec.getLsbD_or, BitVec.getLsbD_shiftLeft]
    intro _
    interval_cases k <;> simp
  simp [cmdReservedSet, h0, h1, h2]

end Sys2Proof.Laws.ReservedClear
end

