-- ==== Sys2Proof/Laws/Round.lean ====
section
/-! SUPPORT. The laws of the lane array: reading a lane of an array given lane by lane, equality lane by lane, and what the Lane
Store's functions depend on. -/

namespace Sys2Proof.Laws

open Sys2Proof Sys2Proof.Machine

/-- A lane of an array given by column and row. -/
@[simp] theorem lane_lanesXY (f : Nat → Nat → Lane) (x y : Nat) : lane (lanesXY f) x y = f (x % 5) (y % 5) := by
  have hx : (x % 5 + 5 * (y % 5)) % 5 = x % 5 := by omega
  have hy : (x % 5 + 5 * (y % 5)) / 5 = y % 5 := by omega
  unfold lane lanesXY lanesOf
  rw [Vector.getElem_ofFn]
  simp only [hx, hy]

/-- A lane of an array given by flat index. -/
@[simp] theorem lane_lanesOf (f : Nat → Lane) (x y : Nat) : lane (lanesOf f) x y = f (x % 5 + 5 * (y % 5)) := by
  unfold lane lanesOf
  rw [Vector.getElem_ofFn]

/-- Coordinates are taken modulo 5. -/
@[simp] theorem lane_mod_x (A : Lanes) (x y : Nat) : lane A (x % 5) y = lane A x y := by
  simp only [lane, Nat.mod_mod]

@[simp] theorem lane_mod_y (A : Lanes) (x y : Nat) : lane A x (y % 5) = lane A x y := by
  simp only [lane, Nat.mod_mod]

/-- Two arrays with the same 25 lanes are equal. -/
theorem lanes_ext {A B : Lanes} (h : ∀ x y, x < 5 → y < 5 → lane A x y = lane B x y) : A = B := by
  apply Vector.ext
  intro i hi
  have := h (i % 5) (i / 5) (by omega) (by omega)
  have e : i % 5 % 5 + 5 * (i / 5 % 5) = i := by omega
  simpa only [lane, e] using this

/-- LE64 depends on eight bytes. -/
theorem le64_congr {b c : Nat → Byte} (h : ∀ j, j < 8 → b j = c j) : le64 b = le64 c := by
  unfold le64
  rw [h 0 (by omega), h 1 (by omega), h 2 (by omega), h 3 (by omega), h 4 (by omega), h 5 (by omega), h 6 (by omega),
    h 7 (by omega)]

/-- The lanes loaded depend on 200 bytes. -/
theorem lanesFromBytes_congr {f g : Nat → Byte} (h : ∀ k, k < 200 → f k = g k) :
    lanesFromBytes f = lanesFromBytes g := by
  apply lanes_ext
  intro x y hx hy
  simp only [lanesFromBytes, lane_lanesOf]
  exact le64_congr fun j hj => h _ (by omega)

/-- The last of F's rounds. -/
theorem keccakF_last (A : Lanes) : keccakF A = rnd (roundsF A 23) 23 := by
  unfold keccakF
  rw [roundsF]

end Sys2Proof.Laws
end

