-- ==== Sys2Proof/Tests/Slice0.lean ====
section
/-! SUPPORT. Tests against spec 95_test_vectors.md, and a witness for every statement that has hypotheses. Every
expected value is the spec's own. -/

namespace Sys2Proof.Tests

open Sys2Proof Sys2Proof.Machine Sys2Proof.Laws

/-! ### Well-formedness: an ill-formed term for its one check -/

theorem test_wf_refuses_long_absorb : (Instr.absorb 201).wf = false ∧ (Instr.absorb 200).wf = true := by decide

/-! ### Decoding: V-DEC-1 to V-DEC-17, and words written out bit by bit -/

theorem test_decode_permute_bits :
    decode 0b0000000000000000000000000000000000000000000000000000000000000001 = .ok .permute := by decide

theorem test_decode_absorb_bits :
    decode 0b0000000000000000000000000000000000000000000000001010100000000010 = .ok (.absorb 168) := by decide

theorem test_decode_illegal_words :
    ([0x0, 0x101, 0x11, 0x10001, 0x100000001, 0xFF12, 0x1C902, 0x3, 0xF, 0x8801] : List Word).all
      (fun w => decide (decode w = .error .illegalCmd)) = true := by decide

theorem test_decode_length_words : decode 0xC902 = .error .length ∧ decode 0xFF02 = .error .length := by decide

theorem test_decode_absorb_bounds : decode 0x2 = .ok (.absorb 0) ∧ decode 0xC802 = .ok (.absorb 200) := by decide

theorem test_table_words :
    decodeTableWord 32 1 = some .permute ∧ decodeTableWord 32 0x8802 = some (.absorb 136) ∧
    decodeTableWord 32 0xC902 = none := by decide

theorem test_assembler_bounds :
    assembleAbsorb 255 = some 0xFF02 ∧ assembleAbsorb 256 = none ∧
    assembleAbsorbWarns 200 = false ∧ assembleAbsorbWarns 201 = true ∧ assembleAbsorbWarns 256 = false := by decide

/-! ### The round function -/

/-- The lanes of a list, 0 beyond it. -/
def lanesList (l : List Lane) : Lanes := lanesOf fun i => l.getD i 0

/-- The lanes as a list. -/
def showLanes (A : Lanes) : List Lane := (List.range 25).map fun i => lane A (i % 5) (i / 5)

/-- Section 2.7's input: lane i holds i. -/
def countLanes : Lanes := lanesOf fun i => BitVec.ofNat 64 i

/-- V-ROT-1 to V-ROT-6. -/
theorem test_rotl64 :
    rotl64 0x8000000000000001 1 = 0x3 ∧ rotl64 0x1 63 = 0x8000000000000000 ∧
    rotl64 0x0123456789ABCDEF 0 = 0x0123456789ABCDEF ∧ rotl64 0x0123456789ABCDEF 4 = 0x123456789ABCDEF0 ∧
    rotl64 0x0123456789ABCDEF 32 = 0x89ABCDEF01234567 ∧ rotl64 0xFFFFFFFFFFFFFFFF 17 = 0xFFFFFFFFFFFFFFFF := by decide

/-- V-THETA-2: the rotation by one wraps. -/
theorem test_theta_wraps :
    showLanes (theta (lanesList [0, 0x8000000000000000])) =
      [1, 0x8000000000000000, 0x8000000000000000, 0, 0, 1, 0, 0x8000000000000000, 0, 0, 1, 0, 0x8000000000000000,
      0, 0] ++
      [1, 0, 0x8000000000000000, 0, 0, 1, 0, 0x8000000000000000, 0, 0] := by decide +kernel

/-- Section 2.7, THETA. -/
theorem test_theta_count : showLanes (theta countLanes) =
    [0x1A, 0x9, 0xD, 0x1D, 0x2F, 0x1F, 0xE, 0x8, 0x16, 0x22, 0x10, 0x3, 0x3] ++
    [0x13, 0x25, 0x15, 0x18, 0x1E, 0xC, 0x38, 0xE, 0x1D, 0x19, 0x9, 0x33] := by decide +kernel

/-- Section 2.7, RHO. -/
theorem test_rho_count : showLanes (rho (lanesList
    ([0x1A, 0x9, 0xD, 0x1D, 0x2F, 0x1F, 0xE, 0x8, 0x16, 0x22, 0x10, 0x3, 0x3] ++
    [0x13, 0x25, 0x15, 0x18, 0x1E, 0xC, 0x38, 0xE, 0x1D, 0x19, 0x9, 0x33]))) =
    [0x1A, 0x12, 0x4000000000000003, 0x1D0000000, 0x178000000, 0x1F000000000, 0xE00000000000, 0x200,
      0xB00000000000000, 0x2200000, 0x80, 0xC00, 0x180000000000] ++
    [0x26000000, 0x128000000000, 0x2A0000000000, 0x3000000000000, 0xF0000, 0x1800000, 0x3800, 0x380000, 0x74,
      0x2000000000000003, 0x900000000000000, 0xCC000] := by decide +kernel

/-- V-PI-1. -/
theorem test_pi_count : showLanes (pi countLanes) =
    [0, 6, 12, 18, 24, 3, 9, 10, 16, 22, 1, 7, 13, 19, 20, 4, 5, 11, 17, 23, 2, 8, 14, 15, 21] := by decide +kernel

/-- V-CHI-7: every right-hand side reads the row before Chi. -/
theorem test_chi_reads_old_row : (showLanes (chi (lanesList [0xF, 0x33, 0x55, 0, 0xFFFFFFFFFFFFFFFF]))).take 5 =
    [0x4B, 0x33, 0xFFFFFFFFFFFFFFAA, 0, 0xFFFFFFFFFFFFFFCF] := by decide +kernel

/-- V-IOTA-4: only lane 0 changes. -/
theorem test_iota_lane_zero : (showLanes (iota (lanesOf fun _ => 0xFFFFFFFFFFFFFFFF) 2)).take 2 =
    [0x7FFFFFFFFFFF7F75, 0xFFFFFFFFFFFFFFFF] := by decide +kernel

/-- Section 2.7, the whole round. -/
theorem test_round_count : showLanes (rnd countLanes 0) =
    [0x18000000001B, 0xE00001800000, 0x1800000CC000, 0x180001A, 0xE000000CC000, 0x1D0000080, 0x3000002200000,
      0x2000000000000083, 0x30001D0000000, 0x2000000002200003, 0x26000012, 0x3A00, 0x26380000] ++
    [0x3812, 0x380200, 0x178000C00, 0x1F0000F0000, 0x900000000000C00, 0x1780F0000, 0x90001F000000000,
      0x4000128000000003, 0xB00280000000000, 0x128000000074, 0x40002A0000000003, 0xB00000000000074] := by decide +kernel

/-- Section 2.7, the fused form. -/
theorem test_fused_round_count : showLanes (fusedRnd countLanes 0) = showLanes (rnd countLanes 0) := by decide +kernel

/-- V-MEM-1. -/
theorem test_le64 : le64 (fun j => BitVec.ofNat 8 (j + 1)) = 0x0807060504030201 := by decide +kernel

/-! ### States for the tests -/

/-- A platform with 256 bytes of memory: the highest legal STATE_PTR is 56. -/
def tiny : Params := { Params.reference with aw := 8, portMap := [⟨0, 0, 256⟩] }

/-- An idle instance with both pointers written. -/
def idleEngine (sp ip : Word) : Engine :=
  { Engine.reset 0x1000 with statePtr := sp, inPtr := ip, statePtrWritten := true, inPtrWritten := true }

/-- A machine with that instance. -/
def idleState (p : Params) (sp ip : Word) (m : List Host.Cell) : State :=
  { State.reset with params := p, eng := idleEngine sp ip, mem := m }

/-- The same machine with the word w just accepted. -/
def testState (p : Params) (w sp ip : Word) (m : List Host.Cell) : State :=
  { idleState p sp ip m with eng := latch p.aw w (idleEngine sp ip) }

/-- Memory that holds the bytes from an address on. -/
def bytesAt (base : Nat) (l : List Byte) : List Host.Cell := memFill [] base (fun k => l.getD k 0) l.length

/-- What a test looks at of an outcome: STATUS and the first n entries of memory. -/
def showCells (n : Nat) (o : Host.Outcome State Fault Refusal) : Option (Word × List Host.Cell) :=
  match o with
  | .next t => some (t.eng.status, t.mem.take n)
  | _ => none

/-- What a test looks at after LOAD: the phase and lanes 0 and 16. -/
def showLoad (o : Host.Outcome State Fault Refusal) : Option (Phase × Lane × Lane) :=
  match o with
  | .next t => some (t.eng.phase, lane t.eng.lanes 0 0, lane t.eng.lanes 1 3)
  | _ => none

/-! ### The two instructions -/

/-- P4's last command at its STORE: lane 0 of V-F-1 goes to memory lowest byte first, at the
highest legal address. -/
theorem test_permute_store :
    showCells 8 (engineStep { testState Params.reference 1 0xFFFFFF38 0 [] with
      eng := { latch 32 1 (idleEngine 0xFFFFFF38 0) with phase := .store, lanes := lanesList [0xF1258F7940E1DDE7] } }) =
      some (0x02, [(0xFFFFFF38, 0xE7), (0xFFFFFF39, 0xDD), (0xFFFFFF3A, 0xE1), (0xFFFFFF3B, 0x40)] ++
        [(0xFFFFFF3C, 0x79), (0xFFFFFF3D, 0x8F), (0xFFFFFF3E, 0x25), (0xFFFFFF3F, 0xF1)]) := by
  decide +kernel

/-- V-RNG-2: one byte higher is RANGE. -/
theorem test_permute_range :
    showCells 8 (exec .permute (testState Params.reference 1 0xFFFFFF39 0 [])) = some (0x32, []) := by
  decide +kernel

/-- P3's LOAD: before F, lane 0 holds the message and the domain byte, and lane 16's top byte is 0x80. -/
theorem test_absorb_load :
    showLoad (engineStep { testState Params.reference 0x8802 0x1000 0x2000 (memWrite (bytesAt 0x2000 [0x61, 0x62,
      0x63, 0x06]) 0x2087 0x80)
      with eng := { latch 32 0x8802 (idleEngine 0x1000 0x2000) with phase := .load } }) =
      some (.round, 0x0000000006636261, 0x8000000000000000) := by
  decide +kernel

/-- P7's LOAD: the input overlaps the state from a lower address and is read as it was before the command. -/
theorem test_absorb_overlap :
    ((List.range 16).map fun k => laneByte (lanesFromBytes (loadByte []
        (bytesAt 0x0FF8 ([1, 2, 3, 4, 5, 6, 7, 8, 0xE7, 0xDD, 0xE1, 0x40, 0x79, 0x8F, 0x25, 0xF1] ++
          [0x8A, 0x47, 0xC0, 0x33, 0xF9, 0xCC, 0xD5, 0x84])) 0 0x1000 0x0FF8 16)) k) =
      [0xE6, 0xDF, 0xE2, 0x44, 0x7C, 0x89, 0x22, 0xF9, 0x6D, 0x9A, 0x21, 0x73, 0x80, 0x43, 0xF0, 0x75] := by
  decide +kernel

/-! ### The register block -/

/-- V-REG-1, V-REG-2, V-REG-3. -/
theorem test_registers :
    (∃ t u, writeReg 0x10 0x123456789ABCDEF0 State.reset = .next t ∧ readReg 0x10 t = .next u ∧
      u.host.readData = 0x9ABCDEF0) ∧
    (∃ t, readReg 0x00 State.reset = .next t ∧ t.host.readData = 0) ∧
    writeReg 0x08 0xFF State.reset = .next State.reset := by
  refine ⟨⟨_, _, rfl, rfl, by decide⟩, ⟨_, rfl, rfl⟩, rfl⟩

/-! ### Witnesses: for each statement with hypotheses, a concrete input that meets them all. Addresses are at their bounds: with
AW = 8 the highest legal STATE_PTR is 56, and the highest IN_PTR for n bytes is 256 − n. -/

/-- StepRunsDecodedInstruction. -/
theorem test_witness_step :
    (let s := testState tiny 1 56 0 [];
      s.agenda = [] ∧ s.eng.busy = true ∧ s.eng.phase = .check ∧ decode s.eng.curW = .ok .permute) ∧
    decodeTableWord 32 0xC802 = some (.absorb 200) ∧
    ({ State.reset with agenda := [.hostRelease] } : State).agenda = .hostRelease :: [] := by decide

/-- IdleMachineDoesNothing. -/
theorem test_witness_idle : State.reset.agenda = [] ∧ ∀ e ∈ State.reset.eng :: State.reset.others, e.busy = false := by
  decide

/-- PermuteCompletes. -/
theorem test_witness_permute : memWf (testState tiny 1 56 0 [(56, 7)]).mem ∧ (testState tiny 1 56 0 [(56, 7)]).Clear 0 := by
  refine ⟨by decide, ?_⟩
  constructor <;> decide

/-- AbsorbCompletes, with no byte and with 200 bytes, and AbsorbOwnStateZeroesInput. -/
theorem test_witness_absorb :
    (testState tiny 2 56 255 []).Clear (0#8).toNat ∧ (testState tiny 0xC802 56 56 [(56, 7)]).Clear (200#8).toNat ∧
    memWf (testState tiny 0xC802 56 56 [(56, 7)]).mem ∧ (200#8).toNat ≤ 200 ∧
    (testState tiny 0xC802 56 56 [(56, 7)]).eng.curIp = (testState tiny 0xC802 56 56 [(56, 7)]).eng.curSp := by
  refine ⟨?_, ?_, by decide, by decide, by decide⟩ <;> constructor <;> decide

/-- AbsorbTooLongRaisesLength. -/
theorem test_witness_too_long :
    (let s := testState tiny 0xC902 255 255 [];
      s.eng.phase = .check ∧ cmdReservedSet s.eng.curW = false ∧ s.eng.curW.toNat % 16 = 2 ∧
        200 < s.eng.curW.toNat / 256 % 256) ∧ 200 < (201#8).toNat := by decide

/-- RangeRaisedWhereBufferWraps: the state buffer one byte too high, the input alone one byte too high, and a run that logs it
after an earlier RANGE. -/
theorem test_witness_range :
    (let s := testState tiny 1 57 0 [];
      2 ^ s.params.aw < s.eng.curSp.toNat + 200) ∧
    (let s := testState tiny 0x202 56 255 [];
      (2#8).toNat ≤ 200 ∧ 0 < (2#8).toNat ∧ 2 ^ s.params.aw < s.eng.curIp.toNat + (2#8).toNat) ∧
    (let s : State := { testState tiny 1 57 0 [] with faultLog := [.range] };
      ∃ t, exec .permute s = .next t ∧ t.faultLog = s.faultLog ++ [.range]) := by
  refine ⟨by decide, by decide, complete .range { testState tiny 1 57 0 [] with faultLog := [.range] }, ?_, by decide⟩
  simp only [exec, execPermute, runCommand]
  exact if_pos (by decide)

/-- CheckErrorReportedOnce: each code, and the first of several. -/
theorem test_witness_check_error :
    firstCheckError 8 0x0 255 0 = .illegalCmd ∧ firstCheckError 8 0xC902 255 0 = .length ∧
    firstCheckError 8 0x1 57 0 = .range ∧ (testState tiny 0 255 0 []).eng.phase = .check ∧
    decode (testState tiny 0 255 0 []).eng.curW = .error .illegalCmd := by decide

/-- STATUS after ILLEGAL_CMD (section 2.11), which beats RANGE (V-RNG-8). -/
theorem test_illegal_status : showCells 8 (engineStep (testState tiny 0 255 0 [(3, 1)])) = some (0x12, [(3, 1)]) := by
  decide +kernel

/-- A platform that reports bus errors and can stall. -/
def rough : Params := { tiny with busErrors := true, busCanStall := true }

/-- BusErrorInLoadWritesNothing, BusErrorInStoreFreesState and StalledAccessIsStuck, which differ in the platform's answers. -/
theorem test_witness_bus :
    (let s := testState rough 0x802 56 248 [];
      (Instr.absorb 8).wf = true ∧ memWf s.mem ∧ s.eng.inLen = instrInLen (.absorb 8) ∧
      rangeFails s.params.aw s.eng.spAddr s.eng.ipAddr (instrInLen (.absorb 8)) = false ∧
      touchesDevice s.params s.eng.spAddr s.eng.ipAddr (instrInLen (.absorb 8)) = false ∧
      storeRaces s.others s.eng.spAddr = false) ∧
    busReply rough [.error] = .error ∧ busReply rough [.hang] = .hang ∧
    busReply rough [.ok, .error] = .ok ∧ busReply rough [BusReply.ok, .error].tail = .error ∧
    busReply rough [.ok, .hang] = .ok ∧ busReply rough [BusReply.ok, .hang].tail = .hang := by decide

/-- A second instance, busy with the 200 bytes from 0 and the byte at 255. -/
def busyOther : Engine := latch 8 0x102 { idleEngine 0 255 with base := 0x2000 }

/-- DeviceAndRacingBuffersRefused: a device at the last byte of S, and another instance's S; BusErrorInStoreFreesState's
platform has no device in the way. -/
theorem test_witness_refusals :
    (let p := { tiny with devices := [⟨255, 1⟩] };
      let s := testState p 1 56 0 []
      Instr.permute.wf = true ∧ rangeFails s.params.aw s.eng.spAddr s.eng.ipAddr (instrInLen .permute) = false ∧
      ∃ d ∈ s.params.devices, d.base ≤ 255 ∧ 255 < d.base + d.size ∧ s.eng.spAddr ≤ 255 ∧ 255 < s.eng.spAddr + 200) ∧
    (let s : State := { testState tiny 1 56 0 [] with others := [busyOther] };
      rangeFails s.params.aw s.eng.spAddr s.eng.ipAddr (instrInLen .permute) = false ∧ s.params.devices = [] ∧
      busReply s.params s.eng.bus = .ok ∧
      ∃ e ∈ s.others, s.eng.spAddr ≤ 199 ∧ 199 < s.eng.spAddr + 200 ∧ e.ownsState 199 = true) := by decide

/-- A state in which the engine has just been given a command that is too long, for the statements about a step. -/
def longState : State := testState tiny 0xC902 56 56 []

/-- What its step gives. -/
theorem step_longState : step longState = .next (complete .length longState) := by
  simp [step, show longState.agenda = [] by decide, runEngines,
    nextToRun_zero (show longState.eng.busy = true by decide) (by decide), autoStep,
    show longState.eng.phase = .check by decide, show decode longState.eng.curW = .error .length by decide, decodeErrCode]

/-- CommandFrame, on a run that ends with a bus error in LOAD. -/
theorem test_witness_frame :
    ∃ s t, memWf s.mem ∧ exec .permute s = .next t ∧ t.eng.status = 0x42 := by
  let s : State := { testState rough 1 56 0 [(3, 1)] with
    eng := { latch 8 1 (idleEngine 56 0) with bus := [.error] } }
  refine ⟨s, completeRun .bus (popBus s), by decide, ?_, by decide⟩
  have h1 : rangeFails s.params.aw s.eng.spAddr s.eng.ipAddr 0 = false := by decide
  have h2 : touchesDevice s.params s.eng.spAddr s.eng.ipAddr 0 = false := by decide
  have h3 : busReply s.params s.eng.bus = .error := by decide
  simp [exec, execPermute, runCommand, loadPhase, h1, h2, h3]

/-- OnlyFootprintMatters: a byte below S differs. -/
theorem test_witness_footprint :
    memWf (testState tiny 1 56 0 [(55, 7)]).mem ∧ memWf ([] : List Host.Cell) ∧
    ∀ a, inRange a (testState tiny 1 56 0 [(55, 7)]).eng.spAddr 200 = true ∨
        inRange a (testState tiny 1 56 0 [(55, 7)]).eng.ipAddr (instrInLen .permute) = true →
      memRead [] a = memRead (testState tiny 1 56 0 [(55, 7)]).mem a := by
  refine ⟨by decide, by decide, fun a ha => ?_⟩
  have h1 : (testState tiny 1 56 0 [(55, 7)]).eng.spAddr = 56 := by decide
  have h2 : (testState tiny 1 56 0 [(55, 7)]).mem = [(55, 7)] := rfl
  rw [h1] at ha
  rw [h2]
  have : a ≠ 55 := by
    rintro rfl
    rcases ha with ha | ha
    · exact absurd ha (by decide)
    · exact absurd ha (by simp [inRange, instrInLen])
  simp [memRead, this]

/-- ChiActsOnRowBits: two states that differ in another row. -/
theorem test_witness_chi :
    ∀ x, x < 5 → (lane (lanesXY fun _ y => if y = 1 then 1 else 0) x 0).getLsbD 0 =
      (lane (Vector.replicate 25 0) x 0).getLsbD 0 := by
  intro x hx
  interval_cases x <;> decide +kernel

/-- ThetaFixesEvenParity, on V-THETA-4's state. -/
theorem test_witness_theta :
    ∀ x, x < 5 → columnParity (lanesList [0xDEADBEEF, 0, 0, 0, 0, 0xDEADBEEF]) x = 0 := by
  intro x hx
  interval_cases x <;> decide +kernel

/-- The bounded indices of RotateMovesBits, StepMappingsByLane, TablesMatchDerivations and LaneStoreIsLittleEndian at their bounds. -/
theorem test_witness_bounds :
    (1 ≤ 63 ∧ 63 ≤ 63 ∧ 63 < 64) ∧ (4 < 5 ∧ 23 < 24 ∧ 24 < 25 ∧ 199 < 200) ∧
    rcRom 23 = 0x8000000080008008 ∧ rhoOffset 24 = 14 ∧ piDst 24 = 4 := by decide

/-- EveryRoundConstantMatters: another constant for the last round. -/
theorem test_witness_rom : 23 < 24 ∧ (0 : Lane) ≠ rcRom 23 := by decide

/-- PhasedRunIsTransaction. -/
theorem test_witness_phased :
    let s := testState tiny 0x802 56 248 []
    s.eng.phase = .check ∧ s.eng.curOp = cmdOp s.eng.curW ∧ s.eng.curLen = cmdLen s.eng.curW := by decide

/-- TransactionView, for a command that runs. -/
theorem test_witness_transaction :
    let s := testState tiny 1 56 0 [(56, 7)]
    memWf s.mem ∧ s.agenda = [] ∧ s.eng.busy = true ∧ s.eng.phase = .check ∧
    ∀ i, decode s.eng.curW = .ok i → rangeFails s.params.aw s.eng.spAddr s.eng.ipAddr (instrInLen i) = false →
      s.Clear (instrInLen i) := by
  refine ⟨by decide, by decide, by decide, by decide, fun i hi _ => ?_⟩
  have h : decode (testState tiny 1 56 0 [(56, 7)]).eng.curW = .ok .permute := by decide
  rw [h] at hi
  cases hi
  constructor <;> decide

/-- RoundStepRunsOneRound and RoundPhaseComputesF: the first and the last round. -/
theorem test_witness_round :
    (let s : State := { State.reset with eng := { Engine.reset 0 with phase := .round } };
      s.eng.phase = .round ∧ s.eng.round = 0 ∧ s.eng.round.toNat < 23) ∧
    (let s : State := { State.reset with eng := { Engine.reset 0 with phase := .round, round := 23 } };
      s.eng.phase = .round ∧ s.eng.round.toNat = 23 ∧ s.eng.round.toNat < 24) := by decide

/-- The invariant of the state with the command that is too long. -/
theorem longState_inv : longState.Inv := by
  constructor
  · decide
  · decide
  · intro e he
    have : e = longState.eng := by simpa [longState, testState, idleState, State.reset] using he
    subst this
    constructor <;> decide
  · decide
  · decide
  · decide
  · decide

/-- CommandCompletesInBoundedSteps, and with its step StepKeepsInvariant, PlatformIsFixed, NoBusErrorWithoutParameter,
FaultLogRecordsEveryError, StatusChangesOnlyAtCommandEnds and NoBusyInstanceIsPassedOver. -/
theorem test_witness_steps :
    longState.Inv ∧ longState.agenda = [] ∧ longState.params.busCanStall = false ∧ longState.params.busErrors = false ∧
    engineSteps 27 longState = .next (complete .length longState) ∧ step longState = .next (complete .length longState) ∧
    longState.engineAt 0 = some longState.eng ∧
    (complete .length longState).engineAt 0 = some (complete .length longState).eng ∧
    (complete .length longState).eng.status ≠ longState.eng.status ∧
    statusErr (complete .length longState).eng.status ≠ 0 := by
  refine ⟨longState_inv, by decide, by decide, by decide, ?_, step_longState, rfl, rfl, by decide, by decide⟩
  have h1 : engineStep longState = .next (complete .length longState) := by
    simp [engineStep, show longState.eng.phase = .check by decide, checkPhase,
      show decode longState.eng.curW = .error .length by decide, decodeErrCode]
  have h2 : engineStep (complete .length longState) = .next (complete .length longState) := by
    simp [engineStep]
  rw [show 27 = 26 + 1 from rfl, engineSteps, h1, andThen_next, engineSteps_fix h2]

/-- Two busy instances, the first waiting in LOAD for an access that never completes. -/
def stalledState : State :=
  { testState rough 1 56 0 [] with
    eng := { latch 8 1 (idleEngine 56 0) with phase := .load, bus := [.hang] }
    others := [latch 8 0xC902 { idleEngine 0 0 with base := 0x2000 }] }

/-- R249: the second instance is the one to run; where it stalls too, none is. -/
theorem test_stalled_passed_by :
    standsStill stalledState = true ∧ nextToRun stalledState = some 1 ∧
    nextToRun { stalledState with others := [stalledState.eng] } = none := by decide

/-- CmdWriteLatchesCommand and UnreleasedInputRefused: nothing missing, and a release missing. -/
theorem test_witness_cmd :
    (let s := idleState { tiny with aw := 64 } 56 56 [];
      s.eng.busy = false ∧ s.eng.statePtrWritten = true ∧ s.eng.inPtrWritten = true ∧ releaseMissing 0x802 s = false ∧
      s.params.aw ≤ 64) ∧
    (let s : State := { idleState { tiny with hostRelease := true } 56 56 [] with host := ⟨[255], [], [], 0⟩ };
      s.params.aw ≤ 64 ∧ s.eng.busy = false ∧ s.eng.statePtrWritten = true ∧ wordNeedsInput 1 = false ∧
      s.params.hostRelease = true ∧ decode 1 = .ok .permute ∧ s.eng.statePtr.toNat % 2 ^ s.params.aw + 200 ≤ 2 ^ s.params.aw ∧
      255 ∈ s.host.unreleased ∧ s.eng.statePtr.toNat % 2 ^ s.params.aw ≤ 255 ∧
      255 < s.eng.statePtr.toNat % 2 ^ s.params.aw + 200 ∧ releaseMissing 1 s = true ∧
      releaseMissing 1 { s with host := ⟨[55], [], [], 0⟩ } = false) := by
  decide

/-- NextCommandIgnoresPreviousStatus: after a success and after an error. -/
theorem test_witness_next_command :
    let s : State := { idleState tiny 56 0 [] with eng := { idleEngine 56 0 with status := 0x42 } }
    s.eng.busy = false ∧ statusBusy 0x02 = false ∧ ∃ t, writeReg 0x00 1 s = .next t := by
  refine ⟨by decide, by decide, _, rfl⟩

/-- CmdWriteWhileBusyRefused: a block at a multiple of 8, one that is not, and the block of the second instance. -/
theorem test_witness_cmd_busy :
    let s : State := { testState tiny 1 56 0 [] with agenda := [.regWrite 0x1000 8 1] }
    s.eng.busy = true ∧ s.agenda = .regWrite s.eng.base 8 1 :: [] ∧ s.eng.base % 8 = 0 ∧
    step { s with eng := { s.eng with base := 0x1004 }, agenda := [.regWrite 0x1004 8 1] } =
      .refused .badRegisterAccess ∧
    (let u : State := { State.reset with others := [busyOther], agenda := [.regWrite 0x2000 8 1] };
      u.engineAt 1 = some busyOther ∧ busyOther.busy = true ∧ inRange busyOther.base u.eng.base 0x20 = false ∧
      u.agenda = .regWrite busyOther.base 8 1 :: [] ∧ step u = .refused .cmdWhileBusy) := by
  refine ⟨by decide, by decide, by decide, rfl, by decide, by decide, by decide, by decide, rfl⟩

/-- UnwrittenPointersRefused: right after reset, and with STATE_PTR alone written. -/
theorem test_witness_unwritten :
    State.reset.eng.statePtrWritten = false ∧ State.reset.eng.inPtrWritten = false ∧ State.reset.eng.busy = false ∧
    (1#8) ≠ 0 ∧
    (let s : State := { State.reset with eng := { Engine.reset 0 with statePtrWritten := true } };
      s.eng.busy = false ∧ s.eng.statePtrWritten = true ∧ s.params.hostRelease = false) := by decide

/-- PointerWritesLeaveRunningCommand: a write of each pointer while the instance is busy. -/
theorem test_witness_pointer_writes :
    (∃ t, writeReg 0x10 5 (testState tiny 1 56 0 []) = .next t) ∧
    (∃ t, writeReg 0x18 5 (testState tiny 1 56 0 []) = .next t) := ⟨⟨_, rfl⟩, ⟨_, rfl⟩⟩

/-- CmdReadsZeroStatusIgnoresWrites, PointerRegistersKeepAddressBits and RegisterBlockAccessForms: a legal access, a wrong
offset, a wrong size, and an address that is no multiple of 8. -/
theorem test_witness_registers :
    State.reset.params.hostDeviceOrder = false ∧ State.reset.params.aw ≤ 64 ∧
    (0x18 < 0x20 ∧ legalAccess 0x1018 0x18 8 = true) ∧ (0x1F < 0x20 ∧ legalAccess 0x101F 0x1F 8 = false) ∧
    legalAccess 0x1010 0x10 4 = false ∧ legalAccess 0x1014 0x10 8 = false := by decide

/-- RegisterBlockAccessForms for the second instance: its STATE_PTR is written, and the first instance's is not. -/
theorem test_witness_second_block :
    let s : State := { State.reset with others := [busyOther] }
    s.engineAt 1 = some busyOther ∧ inRange (busyOther.base + 0x10) s.eng.base 0x20 = false ∧
    (busyOther.base + 0x10) % 8 = 0 ∧
    ∃ t, hostWrite 0x2010 8 5 s = .next t ∧ t.eng = s.eng ∧
      t.others = [{ busyOther with statePtr := 5, statePtrWritten := true }] := by
  refine ⟨by decide, by decide, by decide, _, rfl, by decide, by decide⟩

/-- ResetAbortsAndFreesState: a busy and an idle instance, the last byte of S in the space. -/
theorem test_witness_reset :
    (let s := testState tiny 1 56 0 [(55, 7)];
      memWf s.mem ∧ s.eng.busy = true ∧ s.eng.spAddr + 199 < 2 ^ s.params.aw ∧
      inRange 55 s.eng.spAddr 200 = false) ∧ (idleState tiny 56 0 []).eng.busy = false := by decide

/-- RacesRefusedOrDrawn and OnlyAbsorbOwnsInput, for the host and for another agent: the last byte of S, and the only byte of IN,
which is no byte of S. -/
theorem test_witness_races :
    let s : State := { State.reset with params := tiny, others := [busyOther] }
    busyOther ∈ s.eng :: s.others ∧ isDevice s.params 199 = false ∧ isDevice s.params 255 = false ∧
    agentAddr s.params .host 199 = some 199 ∧ agentAddr s.params .other 199 = some 199 ∧
    agentAddr s.params .host 255 = some 255 ∧ agentAddr s.params .other 255 = some 255 ∧
    busyOther.busy = true ∧ busyOther.ownsState 199 = true ∧ busyOther.ownsInput 255 = true ∧
    (∀ e ∈ s.eng :: s.others, e.ownsState 255 = false) ∧ ∀ r ∈ s.host.results, 255 ∉ r.bytes := by decide

/-- R44: a word with OP = 2 and a reserved bit set, and one with LEN = 201, use IN_PTR for nothing. -/
theorem test_illegal_word_owns_no_input :
    ({ busyOther with curW := 0x10102 } : Engine).ownsInput 255 = false ∧
    (latch 8 0xC902 (idleEngine 0 55)).ownsInput 255 = false := by decide

/-- DoneReadMakesResultVisible: a stored buffer on a platform that needs HOST_ACQUIRE. -/
theorem test_witness_done :
    let s : State := { idleState { tiny with hostAcquire := true, hostDeviceOrder := true } 56 0 [(255, 7)] with
      eng := { idleEngine 56 0 with status := 0x02 }
      host := ⟨[], [], [⟨0x1000, [254, 255], false⟩], 0⟩ }
    statusDone s.eng.status = true ∧ s.host.unordered = [] ∧ agentAddr s.params .host 255 = some 255 ∧
    isDevice s.params 255 = false ∧ (∀ e ∈ s.eng :: s.others, e.ownsState 255 = false) ∧
    (∀ r ∈ s.host.results, 255 ∈ r.bytes → r.base = s.eng.base) ∧ ∃ r ∈ s.host.results, 255 ∈ r.bytes := by decide

/-- StoredResultReachesHost: the last byte of S, with an older result of another instance in it, on a platform with every
primitive and on one without HOST_ACQUIRE. -/
theorem test_witness_stored :
    let s : State := { testState { tiny with hostAcquire := true, hostDeviceOrder := true } 1 56 0 [] with
      eng := { latch 8 1 (idleEngine 56 0) with phase := .store }
      host := ⟨[], [], [⟨0x2000, [55, 255], false⟩], 0⟩ }
    memWf s.mem ∧ s.eng.phase = .store ∧ storeRaces s.others s.eng.spAddr = false ∧ busReply s.params s.eng.bus = .ok ∧
    s.host.unordered = [] ∧ 199 < 200 ∧ agentAddr s.params .host 255 = some (s.eng.spAddr + 199) ∧
    isDevice s.params (s.eng.spAddr + 199) = false ∧ (∀ e ∈ s.others, e.ownsState (s.eng.spAddr + 199) = false) ∧
    (recordResult s).host.results.map (fun r => (r.base, r.bytes.take 1)) = [(0x2000, [55]), (0x1000, [56])] ∧
    tiny.hostAcquire = false := by decide

/-- MissingOrderRefused: an accepted CMD write where HOST_DEVICE_ORDER is needed, and a result seen and not acquired. -/
theorem test_witness_missing_order :
    (let s := idleState { tiny with hostDeviceOrder := true } 56 0 [];
      s.params.hostDeviceOrder = true ∧ writeReg 0x00 1 s = .next (acceptCmd 1 s)) ∧
    (let s : State := { idleState { tiny with hostAcquire := true } 56 0 [(255, 7)] with
        host := ⟨[], [], [⟨0x1000, [255], true⟩], 0⟩ };
      agentAddr s.params .host 255 = some 255 ∧ isDevice s.params 255 = false ∧
      (∀ e ∈ s.eng :: s.others, e.ownsState 255 = false) ∧
      (∀ r ∈ s.host.results, 255 ∈ r.bytes → r.seen = true) ∧ ∃ r ∈ s.host.results, 255 ∈ r.bytes) := by
  refine ⟨⟨by decide, rfl⟩, by decide⟩

/-- EnginesShareOnlyMemory: a step of instance 1, seen from instance 0. -/
theorem test_witness_engines :
    ∃ s t : State, handle (.engineStep 1) s = .next t ∧ 0 ≠ 1 ∧ s.others.length = 1 := by
  let s : State := { State.reset with params := tiny, others := [{ busyOther with curW := 0xC902 }] }
  refine ⟨s, swapEngine 0 (complete .length (swapEngine 0 s)), ?_, by decide, by decide⟩
  have h0 : (0 < s.others.length) := by decide
  have h1 : (swapEngine 0 s).eng.phase = .check := by decide
  have h2 : decode (swapEngine 0 s).eng.curW = .error .length := by decide
  simp [handle, withEngine, h0, engineStep, h1, checkPhase, h2, decodeErrCode]

/-- HiddenStateIsUnobservable: two idle states with different lanes and latches. -/
theorem test_witness_hidden :
    ∃ s t : State, s.Inv ∧ t.Inv ∧ s.visible = t.visible ∧ s.eng.lanes ≠ t.eng.lanes ∧ s.eng.curW ≠ t.eng.curW := by
  refine ⟨State.reset, { State.reset with eng := { Engine.reset 0 with lanes := Vector.replicate 25 1, curW := 5 } }, ?_, ?_,
    by decide, by decide, by decide⟩
  all_goals
    constructor
    · decide
    · decide
    · intro e he
      simp only [State.reset, List.mem_singleton] at he
      subst he
      constructor <;> decide
    · decide
    · decide
    · decide
    · decide

end Sys2Proof.Tests
end

section
/-! SUPPORT. Everything an event's operation can do when it answers a next state, one lemma per operation. -/

namespace Sys2Proof.Proofs

open Sys2Proof Sys2Proof.Machine Sys2Proof.Laws

/-! ### The engines running on -/

/-- Everything an engine that runs on can do: a transaction, a failed decoding, or the next step of its sequencer. -/
theorem autoStep_cases {s t : State} (h : autoStep s = .next t) :
    (s.eng.phase = .check ∧ ∃ i, decode s.eng.curW = .ok i ∧ exec i s = .next t) ∨
    (s.eng.phase = .check ∧ ∃ e, decode s.eng.curW = .error e ∧ t = complete (decodeErrCode e) s) ∨
    (s.eng.phase ≠ .check ∧ engineStep s = .next t) := by
  unfold autoStep at h
  split at h
  next hp =>
    cases hd : decode s.eng.curW with
    | ok i =>
      simp only [hd] at h
      exact .inl ⟨hp, i, rfl, h⟩
    | error e =>
      simp only [hd] at h
      cases h
      exact .inr (.inl ⟨hp, e, rfl, rfl⟩)
  next hp => exact .inr (.inr ⟨hp, h⟩)

/-- Everything the engines can do with no outside agent acting: the next to run runs on, or nothing happens. -/
theorem runEngines_cases {s t : State} (h : runEngines s = .next t) :
    (∃ k, nextToRun s = some k ∧ withEngine k autoStep s = .next t) ∨ (nextToRun s = none ∧ t = s) := by
  unfold runEngines at h
  cases hk : nextToRun s with
  | some k =>
    simp only [hk] at h
    exact .inl ⟨k, rfl, h⟩
  | none =>
    simp only [hk] at h
    cases h
    exact .inr ⟨rfl, rfl⟩

/-- Everything an instruction's meaning can do: ABSORB's LENGTH, or the transaction with its input length. -/
theorem exec_cases {i : Instr} {s t : State} (h : exec i s = .next t) :
    (i.wf = false ∧ t = complete .length s) ∨ (i.wf = true ∧ runCommand (instrInLen i) s = .next t) := by
  cases i with
  | permute => exact .inr ⟨rfl, h⟩
  | absorb len =>
    simp only [exec, execAbsorb] at h
    split at h
    next hl =>
      cases h
      exact .inl ⟨by simpa [Instr.wf] using hl, rfl⟩
    next hl => exact .inr ⟨by simpa [Instr.wf] using hl, h⟩

/-! ### Register accesses -/

/-- Everything a write in a block can do: CMD, STATUS, STATE_PTR or IN_PTR. -/
theorem writeReg_cases {off : Nat} {v : Word} {s t : State} (h : writeReg off v s = .next t) :
    (off = 0x00 ∧ writeCmd v s = .next t) ∨ (off = 0x08 ∧ t = s) ∨
    (off = 0x10 ∧ t = { s with eng := { s.eng with statePtr := maskAddr s.params.aw v, statePtrWritten := true } }) ∨
    ((off ≠ 0x00 ∧ off ≠ 0x08 ∧ off ≠ 0x10) ∧
      t = { s with eng := { s.eng with inPtr := maskAddr s.params.aw v, inPtrWritten := true } }) := by
  unfold writeReg at h
  split at h
  next h0 => exact .inl ⟨h0, h⟩
  next h0 =>
    split at h
    next h8 =>
      cases h
      exact .inr (.inl ⟨h8, rfl⟩)
    next h8 =>
      split at h
      next h10 =>
        cases h
        exact .inr (.inr (.inl ⟨h10, rfl⟩))
      next h10 =>
        cases h
        exact .inr (.inr (.inr ⟨⟨h0, h8, h10⟩, rfl⟩))

/-- Everything a read in a block can do: CMD, STATUS, STATE_PTR or IN_PTR. -/
theorem readReg_cases {off : Nat} {s t : State} (h : readReg off s = .next t) :
    (off = 0x00 ∧ t = returnRead 0 s) ∨
    (off = 0x08 ∧ (s.params.hostDeviceOrder && s.host.unordered.contains s.eng.base) = false ∧
      t = returnRead s.eng.status (seeDone s)) ∨
    (off = 0x10 ∧ s.eng.statePtrWritten = true ∧ t = returnRead s.eng.statePtr s) ∨
    ((off ≠ 0x00 ∧ off ≠ 0x08 ∧ off ≠ 0x10) ∧ s.eng.inPtrWritten = true ∧ t = returnRead s.eng.inPtr s) := by
  unfold readReg at h
  split at h
  next h0 =>
    cases h
    exact .inl ⟨h0, rfl⟩
  next h0 =>
    split at h
    next h8 =>
      split at h
      · cases h
      next ho =>
        cases h
        exact .inr (.inl ⟨h8, by simpa using ho, rfl⟩)
    next h8 =>
      split at h
      next h10 =>
        split at h
        next hw =>
          cases h
          exact .inr (.inr (.inl ⟨h10, hw, rfl⟩))
        · cases h
      next h10 =>
        split at h
        next hw =>
          cases h
          exact .inr (.inr (.inr ⟨⟨h0, h8, h10⟩, hw, rfl⟩))
        · cases h

/-- A host write that answers a next state is a legal write in an engine's block. -/
theorem hostWrite_cases {addr size : Nat} {v : Word} {s t : State} (h : hostWrite addr size v s = .next t) :
    ∃ k off, findBlock (s.eng :: s.others) addr 0 = some (k, off) ∧ legalAccess addr off size = true ∧
      withEngine k (writeReg off v) s = .next t := by
  unfold hostWrite at h
  split at h
  · cases h
  next k off hb =>
    split at h
    next hl => exact ⟨k, off, hb, hl, h⟩
    · cases h

/-- A host read that answers a next state is a legal read in an engine's block. -/
theorem hostRead_cases {addr size : Nat} {s t : State} (h : hostRead addr size s = .next t) :
    ∃ k off, findBlock (s.eng :: s.others) addr 0 = some (k, off) ∧ legalAccess addr off size = true ∧
      withEngine k (readReg off) s = .next t := by
  unfold hostRead at h
  split at h
  · cases h
  next k off hb =>
    split at h
    next hl => exact ⟨k, off, hb, hl, h⟩
    · cases h

/-- Everything `wait` can do: read STATUS, and with BUSY = 1 go on waiting after every engine's next step. -/
theorem hostWait_cases {base : Nat} {s t : State} (h : hostWait base s = .next t) :
    ∃ u, hostRead (base + 0x08) 8 s = .next u ∧
      ((statusBusy u.host.readData = true ∧ t = { u with agenda := stepAll u ++ .wait base :: u.agenda }) ∨
       (statusBusy u.host.readData = false ∧ t = u)) := by
  unfold hostWait at h
  split at h
  · cases h
  · obtain ⟨u, hu, ht⟩ := andThen_eq_next.1 h
    refine ⟨u, hu, ?_⟩
    split at ht
    next hb =>
      cases ht
      exact .inl ⟨hb, rfl⟩
    next hb =>
      cases ht
      exact .inr ⟨by simpa using hb, rfl⟩

/-! ### Memory accesses of other agents -/

/-- A write by another agent that answers a next state writes one byte of memory, which no busy engine owns, and is recorded
where the host made it. -/
theorem agentWrite_cases {who : Agent} {addr : Nat} {v : Byte} {s t : State} (h : agentWrite who addr v s = .next t) :
    ∃ a, agentAddr s.params who addr = some a ∧ isDevice s.params a = false ∧
      (s.eng :: s.others).any (fun e => e.ownsState a || e.ownsInput a) = false ∧
      t = { s with
        mem := memWrite s.mem a v
        host :=
          if who = .host then
            { s.host with
              unreleased := a :: s.host.unreleased
              results := dropBytes (fun b => b == a) s.host.results }
          else s.host } := by
  unfold agentWrite at h
  split at h
  · cases h
  next a ha =>
    split at h
    · cases h
    next hd =>
      split at h
      · cases h
      next hr =>
        cases h
        exact ⟨a, ha, by simpa using hd, by simpa using hr, rfl⟩

/-- A read by another agent that answers a next state returns a free value, drawn for a racing read or for a result the host has
not seen complete, or the byte of memory. -/
theorem agentRead_cases {who : Agent} {addr : Nat} {s t : State} (h : agentRead who addr s = .next t) :
    ∃ a, agentAddr s.params who addr = some a ∧ isDevice s.params a = false ∧
      ((((s.eng :: s.others).any (fun e => e.ownsState a) = true ∨ (who = .host ∧ unseenResult s a = true)) ∧
          t = { returnRead ((Config.freeByte s.draws a).setWidth 64) s with draws := s.draws + 1 }) ∨
       ((s.eng :: s.others).any (fun e => e.ownsState a) = false ∧
          (who = .host → unseenResult s a = false ∧ unacquiredResult s a = false) ∧
          t = returnRead ((memRead s.mem a).setWidth 64) s)) := by
  unfold agentRead at h
  split at h
  · cases h
  next a ha =>
    simp only at h
    split at h
    · cases h
    next hd =>
      refine ⟨a, ha, by simpa using hd, ?_⟩
      split at h
      next ho =>
        cases h
        exact .inl ⟨.inl ho, rfl⟩
      next ho =>
        split at h
        next hu =>
          cases h
          exact .inl ⟨.inr hu, rfl⟩
        next hu =>
          split at h
          · cases h
          next hq =>
            cases h
            exact .inr ⟨by simpa using ho, fun hw => ⟨by simpa [hw] using hu, by simpa [hw] using hq⟩, rfl⟩

end Sys2Proof.Proofs
end

section
/-! PROOF. What the platform is made of, its parameters (spec 00_scope.md R10) and its engines' addresses (10_state.md R36),
is changed by no operation, and so by no step. -/

namespace Sys2Proof.Proofs

open Sys2Proof Sys2Proof.Machine Sys2Proof.Laws

/-- The parameters of the platform and ENG_BASE of each engine, in order; the list's length is the number of engines. -/
def platformOf (s : State) : Params × List Nat := (s.params, (s.eng :: s.others).map Engine.base)

/-- Two states stand on one platform exactly if they agree in its parameters, the acting engine's address and the others'. -/
theorem platformOf_eq_iff {s t : State} :
    platformOf t = platformOf s ↔
      t.params = s.params ∧ t.eng.base = s.eng.base ∧ t.others.map Engine.base = s.others.map Engine.base := by
  simp [platformOf]

/-- Every next state the operation answers stands on the platform it was given. -/
def KeepsPlatform (f : State → Host.Outcome State Fault Refusal) : Prop :=
  ∀ s t : State, f s = .next t → platformOf t = platformOf s

/-! ### Updates of the state -/

@[simp] theorem platformOf_complete (err : ErrCode) (s : State) : platformOf (complete err s) = platformOf s := by
  simp [platformOf]

@[simp] theorem platformOf_completeRun (err : ErrCode) (s : State) : platformOf (completeRun err s) = platformOf s := by
  simp [platformOf]

@[simp] theorem platformOf_popBus (s : State) : platformOf (popBus s) = platformOf s := by
  simp [platformOf]

@[simp] theorem platformOf_recordResult (s : State) : platformOf (recordResult s) = platformOf s := by
  simp [platformOf]

@[simp] theorem platformOf_roundPhase (s : State) : platformOf (roundPhase s) = platformOf s := by
  simp [platformOf]

@[simp] theorem platformOf_resetEngine (s : State) : platformOf (resetEngine s) = platformOf s := by
  simp [platformOf]

@[simp] theorem platformOf_acceptCmd (w : Word) (s : State) : platformOf (acceptCmd w s) = platformOf s := by
  simp [platformOf]

@[simp] theorem platformOf_returnRead (v : Word) (s : State) : platformOf (returnRead v s) = platformOf s := by
  simp [platformOf]

@[simp] theorem platformOf_seeDone (s : State) : platformOf (seeDone s) = platformOf s := by
  unfold seeDone
  split <;> rfl

@[simp] theorem platformOf_roundStep (s : State) : platformOf (roundStep s) = platformOf s := by
  unfold roundStep
  split <;> rfl

@[simp] theorem platformOf_checkPhase (s : State) : platformOf (checkPhase s) = platformOf s := by
  rw [checkPhase_eq]
  split
  · rfl
  · exact platformOf_complete _ s

/-! ### Operations of the engine at `eng` -/

theorem loadPhase_keepsPlatform (n : Nat) : KeepsPlatform (loadPhase n) := by
  intro s t h
  obtain ⟨-, ⟨-, rfl⟩ | ⟨-, rfl⟩ | ⟨-, rfl⟩⟩ := loadPhase_cases h
  · rfl
  · simp
  · simp [platformOf]

theorem storePhase_keepsPlatform : KeepsPlatform storePhase := by
  intro s t h
  obtain ⟨-, ⟨-, rfl⟩ | ⟨-, rfl⟩ | ⟨-, rfl⟩⟩ := storePhase_cases h
  · rfl
  · simp [platformOf]
  · simp [platformOf]

theorem runCommand_keepsPlatform (n : Nat) : KeepsPlatform (runCommand n) := by
  intro s t h
  obtain ⟨-, rfl⟩ | ⟨-, ⟨hl, -⟩ | ⟨u, hl, -, hst⟩⟩ := runCommand_cases h
  · simp
  · exact loadPhase_keepsPlatform n s t hl
  · calc platformOf t = platformOf (roundPhase u) := storePhase_keepsPlatform _ t hst
      _ = platformOf u := platformOf_roundPhase u
      _ = platformOf s := loadPhase_keepsPlatform n s u hl

theorem exec_keepsPlatform (i : Instr) : KeepsPlatform (exec i) := by
  intro s t h
  obtain ⟨-, rfl⟩ | ⟨-, hr⟩ := exec_cases h
  · simp
  · exact runCommand_keepsPlatform _ s t hr

theorem engineStep_keepsPlatform : KeepsPlatform engineStep := by
  intro s t h
  obtain ⟨-, rfl⟩ | ⟨-, rfl⟩ | ⟨-, hl⟩ | ⟨-, -, rfl⟩ | ⟨-, hst⟩ := engineStep_cases h
  · rfl
  · simp
  · exact loadPhase_keepsPlatform _ s t hl
  · simp
  · exact storePhase_keepsPlatform s t hst

theorem autoStep_keepsPlatform : KeepsPlatform autoStep := by
  intro s t h
  obtain ⟨-, i, -, he⟩ | ⟨-, e, -, rfl⟩ | ⟨-, hs⟩ := autoStep_cases h
  · exact exec_keepsPlatform i s t he
  · simp
  · exact engineStep_keepsPlatform s t hs

theorem reset_keepsPlatform : KeepsPlatform fun s => .next (resetEngine s) := by
  intro s t h
  cases h
  simp

theorem writeReg_keepsPlatform (off : Nat) (v : Word) : KeepsPlatform (writeReg off v) := by
  intro s t h
  obtain ⟨-, hc⟩ | ⟨-, rfl⟩ | ⟨-, rfl⟩ | ⟨-, rfl⟩ := writeReg_cases h
  · obtain ⟨-, -, -, -, rfl⟩ := writeCmd_cases hc
    simp
  · rfl
  · rfl
  · rfl

theorem readReg_keepsPlatform (off : Nat) : KeepsPlatform (readReg off) := by
  intro s t h
  obtain ⟨-, rfl⟩ | ⟨-, -, rfl⟩ | ⟨-, -, rfl⟩ | ⟨-, -, rfl⟩ := readReg_cases h
  all_goals simp

/-! ### Choosing an engine -/

/-- Bringing the same engine to `eng` in two states of one platform gives two states of one platform. -/
theorem platformOf_swapEngine_congr {s t : State} (j : Nat) (h : platformOf t = platformOf s) :
    platformOf (swapEngine j t) = platformOf (swapEngine j s) := by
  obtain ⟨hp, he, ho⟩ := platformOf_eq_iff.1 h
  have hj : (t.others[j]?).map Engine.base = (s.others[j]?).map Engine.base := by
    simpa using congrArg (·[j]?) ho
  cases hs : s.others[j]? with
  | none =>
    have ht : t.others[j]? = none := by simpa [hs] using hj
    simpa [swapEngine, hs, ht] using h
  | some e =>
    obtain ⟨d, ht, hb⟩ : ∃ d, t.others[j]? = some d ∧ d.base = e.base := by simpa [hs] using hj
    simp [platformOf_eq_iff, swapEngine, hs, ht, hp, hb, List.map_set, he, ho]

/-- An operation that keeps the platform keeps it whichever engine acts: the engine goes back to its place. -/
theorem withEngine_keepsPlatform {f : State → Host.Outcome State Fault Refusal} (hf : KeepsPlatform f) (k : Nat) :
    KeepsPlatform (withEngine k f) := by
  intro s t h
  cases k with
  | zero => exact hf s t (by simpa using h)
  | succ j =>
    obtain ⟨-, u, hu, rfl⟩ := withEngine_succ h
    calc platformOf (swapEngine j u) = platformOf (swapEngine j (swapEngine j s)) :=
          platformOf_swapEngine_congr j (hf _ u hu)
      _ = platformOf s := by rw [swapEngine_swapEngine]

/-! ### Events and steps -/

theorem runEngines_keepsPlatform : KeepsPlatform runEngines := by
  intro s t h
  obtain ⟨k, -, hk⟩ | ⟨-, rfl⟩ := runEngines_cases h
  · exact withEngine_keepsPlatform autoStep_keepsPlatform k s t hk
  · rfl

theorem hostWrite_keepsPlatform (addr size : Nat) (v : Word) : KeepsPlatform (hostWrite addr size v) := by
  intro s t h
  obtain ⟨k, off, -, -, hw⟩ := hostWrite_cases h
  exact withEngine_keepsPlatform (writeReg_keepsPlatform off v) k s t hw

theorem hostRead_keepsPlatform (addr size : Nat) : KeepsPlatform (hostRead addr size) := by
  intro s t h
  obtain ⟨k, off, -, -, hr⟩ := hostRead_cases h
  exact withEngine_keepsPlatform (readReg_keepsPlatform off) k s t hr

theorem hostWait_keepsPlatform (base : Nat) : KeepsPlatform (hostWait base) := by
  intro s t h
  obtain ⟨u, hu, ht⟩ := hostWait_cases h
  have hr : platformOf u = platformOf s := hostRead_keepsPlatform _ _ s u hu
  obtain ⟨-, rfl⟩ | ⟨-, rfl⟩ := ht
  · exact hr
  · exact hr

theorem agentWrite_keepsPlatform (who : Agent) (addr : Nat) (v : Byte) : KeepsPlatform (agentWrite who addr v) := by
  intro s t h
  obtain ⟨a, -, -, -, rfl⟩ := agentWrite_cases h
  rfl

theorem agentRead_keepsPlatform (who : Agent) (addr : Nat) : KeepsPlatform (agentRead who addr) := by
  intro s t h
  obtain ⟨a, -, -, ⟨-, rfl⟩ | ⟨-, -, rfl⟩⟩ := agentRead_cases h
  · rfl
  · simp

theorem handle_keepsPlatform (ev : Event) : KeepsPlatform (handle ev) := by
  intro s t h
  cases ev with
  | engineStep k => exact withEngine_keepsPlatform engineStep_keepsPlatform k s t h
  | reset k => exact withEngine_keepsPlatform reset_keepsPlatform k s t h
  | regWrite addr size v => exact hostWrite_keepsPlatform addr size v s t h
  | regRead addr size => exact hostRead_keepsPlatform addr size s t h
  | wait base => exact hostWait_keepsPlatform base s t h
  | memWrite who addr v => exact agentWrite_keepsPlatform who addr v s t h
  | memRead who addr => exact agentRead_keepsPlatform who addr s t h
  | hostRelease | hostAcquire | hostDeviceOrder =>
    cases h
    rfl

theorem step_keepsPlatform : KeepsPlatform step := by
  intro s t h
  unfold step at h
  split at h
  next ev rest _ => exact handle_keepsPlatform ev { s with agenda := rest } t h
  · exact runEngines_keepsPlatform s t h

/-- Settles O53: every operation a step can be keeps the platform, whichever engine acts. -/
theorem platformIsFixed : Obligations.PlatformIsFixed := by
  unfold Obligations.PlatformIsFixed
  intro s t h
  exact Prod.ext_iff.1 (step_keepsPlatform s t h)

end Sys2Proof.Proofs
end

section
/-! PROOF. The invariant of the machine (spec 10_state.md R33, R34, R42 to R44, 20_memory.md R60, 60_exceptions.md R220): it
holds at reset, and every operation keeps it. -/

namespace Sys2Proof.Proofs

open Sys2Proof Sys2Proof.Machine Sys2Proof.Laws

/-! ### Values -/

/-- A masked address has AW bits (R43, R44). -/
theorem maskAddr_lt (aw : Nat) (w : Word) : (maskAddr aw w).toNat < 2 ^ aw := by
  rw [maskAddr, BitVec.toNat_ofNat]
  exact Nat.lt_of_le_of_lt (Nat.mod_le _ _) (Nat.mod_lt _ (Nat.two_pow_pos aw))

/-- A completion shows a legal STATUS (R42). -/
theorem completedStatus_mem (err : ErrCode) : mkStatus false true (errCode err) ∈ statusValues := by
  cases err <;> decide

/-- A completion shows BUSY = 0 (R39). -/
@[simp] theorem statusBusy_completed (err : ErrCode) : statusBusy (mkStatus false true (errCode err)) = false := by
  cases err <;> decide

/-- A completion shows DONE = 1 (R40). -/
@[simp] theorem statusDone_completed (err : ErrCode) : statusDone (mkStatus false true (errCode err)) = true := by
  cases err <;> decide

/-- A completion shows its code in ERR (R41). -/
@[simp] theorem statusErr_completed (err : ErrCode) : statusErr (mkStatus false true (errCode err)) = errCode err := by
  cases err <;> decide

/-- Every check passes exactly where the word decodes and its buffers fit the port space (60_exceptions.md R215). -/
theorem firstCheckError_eq_noError {aw sp ip : Nat} {w : Word} :
    firstCheckError aw w sp ip = .noError ↔ ∃ i, decode w = .ok i ∧ rangeFails aw sp ip (instrInLen i) = false := by
  unfold firstCheckError
  cases hd : decode w with
  | error e => cases e <;> simp [decodeErrCode]
  | ok i => simp

/-- Where every check passes, the state buffer lies in the port space. -/
theorem stateBuffer_le {aw sp ip : Nat} {w : Word} (h : firstCheckError aw w sp ip = .noError) : sp + 200 ≤ 2 ^ aw := by
  obtain ⟨i, -, hr⟩ := firstCheckError_eq_noError.1 h
  exact (rangeFails_false_iff.1 hr).1

/-! ### One engine -/

/-- Which phase an engine of a running command is in, its lanes and its round count make no difference to the invariant once
every check has passed. -/
theorem engineInv_running {aw : Nat} {e : Engine} (h : e.Inv aw) (hb : e.phase ≠ .idle)
    (hc : firstCheckError aw e.curW e.spAddr e.ipAddr = .noError) (L : Lanes) {r : BitVec 5} (hr : r.toNat < 24)
    {p : Phase} (hp : p ≠ .idle) : { e with lanes := L, round := r, phase := p }.Inv aw :=
  { h with
    busy_phase := iff_of_true (h.busy_phase.2 hb) hp
    round_lt := hr
    latch_op := fun _ => h.latch_op hb
    latch_len := fun _ => h.latch_len hb
    checked := fun _ => hc }

/-- The memory system's answers are no part of the invariant. -/
theorem engineInv_bus {aw : Nat} {e : Engine} (h : e.Inv aw) (b : List BusReply) : { e with bus := b }.Inv aw :=
  { h with }

theorem engineInv_forgetLanes {aw : Nat} {e : Engine} (h : e.Inv aw) (d : Nat) : (forgetLanes d e).Inv aw :=
  { h with
    round_lt := by
      have := Nat.mod_lt (Config.freeWord d 0).toNat (show 24 > 0 by decide)
      simp only [forgetLanes, BitVec.toNat_ofNat]
      omega }

/-- An idle engine with the latch forgotten, and a legal STATUS that is not busy. -/
theorem engineInv_forgetLatch {aw : Nat} {e : Engine} (h : e.Inv aw) (d : Nat) {st : Word} (hst : st ∈ statusValues)
    (hb : statusBusy st = false) : { forgetLatch aw d e with status := st, phase := .idle }.Inv aw where
  status_legal := hst
  busy_phase := by simp [Engine.busy, hb]
  round_lt := h.round_lt
  statePtr_lt := h.statePtr_lt
  inPtr_lt := h.inPtr_lt
  curSp_lt := maskAddr_lt aw _
  curIp_lt := maskAddr_lt aw _
  latch_op := fun hp => absurd rfl hp
  latch_len := fun hp => absurd rfl hp
  checked := by simp

theorem engineInv_afterReset {aw : Nat} {e : Engine} (h : e.Inv aw) (d : Nat) : (engineAfterReset aw d e).Inv aw :=
  { engineInv_forgetLanes (engineInv_forgetLatch h d (st := 0) (by decide) (by decide)) d with
    statePtr_lt := maskAddr_lt aw _
    inPtr_lt := maskAddr_lt aw _ }

theorem engineInv_latch {aw : Nat} {e : Engine} (h : e.Inv aw) (w : Word) : (latch aw w e).Inv aw :=
  { h with
    status_legal := by rw [latch_status]; decide
    busy_phase := iff_of_true (by rw [Engine.busy, latch_status]; decide) (by simp)
    curSp_lt := maskAddr_lt aw _
    curIp_lt := maskAddr_lt aw _
    latch_op := fun _ => rfl
    latch_len := fun _ => rfl
    checked := by simp }

/-! ### Updates of the state -/

/-- The agenda, the host's record and the counter of free values are no part of the invariant. -/
theorem inv_congr {s t : State} (h : s.Inv) (hp : t.params = s.params) (he : t.eng = s.eng) (ho : t.others = s.others)
    (hm : t.mem = s.mem) (hl : t.faultLog = s.faultLog) : t.Inv where
  aw_pos := hp ▸ h.aw_pos
  aw_le := hp ▸ h.aw_le
  engines := by rw [hp, he, ho]; exact h.engines
  mem_wf := hm ▸ h.mem_wf
  mem_space := by rw [hp, hm]; exact h.mem_space
  log_errors := hl ▸ h.log_errors
  err_logged := by rw [he, ho, hl]; exact h.err_logged

/-- The engine at `eng` replaced by one that shows the same STATUS or no error. -/
theorem inv_setEng {s : State} (h : s.Inv) {e : Engine} (he : e.Inv s.params.aw)
    (hst : e.status = s.eng.status ∨ statusErr e.status = 0) : { s with eng := e }.Inv :=
  { h with
    engines := List.forall_mem_cons.2 ⟨he, (List.forall_mem_cons.1 h.engines).2⟩
    err_logged := by
      obtain ⟨h0, ho⟩ := List.forall_mem_cons.1 h.err_logged
      refine List.forall_mem_cons.2 ⟨fun hne => ?_, ho⟩
      obtain hst | hst := hst
      · rw [hst] at hne ⊢
        exact h0 hne
      · exact absurd hst hne }

theorem inv_setMem {s : State} (h : s.Inv) {m : List Host.Cell} (hw : memWf m)
    (hm : ∀ c ∈ m, c ∈ s.mem ∨ c.1 < 2 ^ s.params.aw) : { s with mem := m }.Inv :=
  { h with
    mem_wf := hw
    mem_space := fun c hc => (hm c hc).elim (h.mem_space c) id }

theorem eng_inv {s : State} (h : s.Inv) : s.eng.Inv s.params.aw := h.engines s.eng (by simp)

theorem others_inv {s : State} (h : s.Inv) : ∀ e ∈ s.others, e.Inv s.params.aw :=
  (List.forall_mem_cons.1 h.engines).2

theorem inv_popBus {s : State} (h : s.Inv) : (popBus s).Inv :=
  inv_setEng h (engineInv_bus (eng_inv h) _) (.inl rfl)

theorem inv_recordResult {s : State} (h : s.Inv) : (recordResult s).Inv :=
  inv_congr h (by simp) (by simp) (by simp) (by simp) (by simp)

theorem inv_returnRead {s : State} (h : s.Inv) (v : Word) : (returnRead v s).Inv :=
  inv_congr h (by simp) (by simp) (by simp) (by simp) (by simp)

/-- A STATUS read changes nothing but the host's record (20_memory.md R72). -/
theorem seeDone_eq (s : State) : ∃ h : HostView, seeDone s = { s with host := h } := by
  unfold seeDone
  split
  · exact ⟨_, rfl⟩
  · exact ⟨s.host, rfl⟩

theorem inv_seeDone {s : State} (h : s.Inv) : (seeDone s).Inv := by
  obtain ⟨_, hh⟩ := seeDone_eq s
  rw [hh]
  exact inv_congr h rfl rfl rfl rfl rfl

/-- The fault log of a completion holds what it held, and the code completed with if that is an error (R220). -/
theorem mem_complete_faultLog {err c : ErrCode} {s : State} :
    c ∈ (complete err s).faultLog ↔ c ∈ s.faultLog ∨ (c = err ∧ err ≠ .noError) := by
  by_cases he : err = .noError <;> simp [he]

theorem inv_complete {s : State} (h : s.Inv) (err : ErrCode) : (complete err s).Inv where
  aw_pos := h.aw_pos
  aw_le := h.aw_le
  engines := List.forall_mem_cons.2
    ⟨engineInv_forgetLatch (eng_inv h) _ (completedStatus_mem err) (statusBusy_completed err),
      (List.forall_mem_cons.1 h.engines).2⟩
  mem_wf := h.mem_wf
  mem_space := h.mem_space
  log_errors c hc := by
    obtain hc | ⟨rfl, hne⟩ := mem_complete_faultLog.1 hc
    · exact h.log_errors c hc
    · exact hne
  err_logged := by
    refine List.forall_mem_cons.2 ⟨fun hne => ?_, fun e he hne => ?_⟩
    · rw [complete_eng_status, statusErr_completed] at hne ⊢
      exact ⟨err, mem_complete_faultLog.2 (.inr ⟨rfl, fun h0 => hne (by rw [h0]; rfl)⟩), rfl⟩
    · obtain ⟨c, hc, hce⟩ := (List.forall_mem_cons.1 h.err_logged).2 e he hne
      exact ⟨c, mem_complete_faultLog.2 (.inl hc), hce⟩

theorem inv_completeRun {s : State} (h : s.Inv) (err : ErrCode) : (completeRun err s).Inv :=
  inv_complete (inv_setEng h (engineInv_forgetLanes (eng_inv h) _) (.inl rfl)) err

/-- A state buffer freed within the port space, with any counter of free values. -/
theorem inv_freeState {s : State} (h : s.Inv) (d sp n : Nat) :
    { s with mem := freeState s.params.aw d sp s.mem, draws := n }.Inv :=
  inv_congr (inv_setMem h (freeState_wf h.mem_wf _ _ _) fun _ hc => (mem_freeState hc).imp id fun ⟨_, _, hlt⟩ => hlt)
    rfl rfl rfl rfl rfl

theorem inv_resetEngine {s : State} (h : s.Inv) : (resetEngine s).Inv := by
  have hm : { s with mem := (resetEngine s).mem }.Inv := by
    rw [resetEngine_mem]
    split
    · exact inv_congr (inv_freeState h s.draws s.eng.spAddr s.draws) rfl rfl rfl rfl rfl
    · exact h
  have he : (engineAfterReset s.params.aw s.draws s.eng).Inv s.params.aw := engineInv_afterReset (eng_inv h) _
  exact inv_congr (inv_setEng hm he (.inr (by rw [engineAfterReset_status]; decide))) rfl rfl rfl rfl rfl

/-- A running command past its checks, taken to another phase, round and lanes. -/
theorem inv_running {s : State} (h : s.Inv) (hb : s.eng.phase ≠ .idle)
    (hc : firstCheckError s.params.aw s.eng.curW s.eng.spAddr s.eng.ipAddr = .noError) (L : Lanes) {r : BitVec 5}
    (hr : r.toNat < 24) {p : Phase} (hp : p ≠ .idle) :
    { s with eng := { s.eng with lanes := L, round := r, phase := p } }.Inv :=
  inv_setEng h (engineInv_running (eng_inv h) hb hc L hr hp) (.inl rfl)

/-! ### The phases -/

theorem checkPhase_inv {s : State} (h : s.Inv) (hp : s.eng.phase = .check) : (checkPhase s).Inv := by
  rw [checkPhase_eq]
  split
  next hc => exact inv_running h (by simp [hp]) hc s.eng.lanes (eng_inv h).round_lt (by decide)
  next => exact inv_complete h _

/-- LOAD keeps the invariant where the command has passed its checks, in the phased form and in a transaction. -/
theorem loadPhase_inv {n : Nat} {s t : State} (h : s.Inv) (hb : s.eng.phase ≠ .idle)
    (hc : firstCheckError s.params.aw s.eng.curW s.eng.spAddr s.eng.ipAddr = .noError) (ht : loadPhase n s = .next t) :
    t.Inv := by
  obtain ⟨-, ⟨-, rfl⟩ | ⟨-, rfl⟩ | ⟨-, rfl⟩⟩ := loadPhase_cases ht
  · exact inv_running h hb hc s.eng.lanes (eng_inv h).round_lt (by decide)
  · exact inv_completeRun (inv_popBus h) _
  · exact inv_congr (inv_running (inv_popBus h) hb hc _ (r := 0) (by decide) (by decide)) rfl rfl rfl rfl rfl

theorem roundStep_inv {s : State} (h : s.Inv) (hp : s.eng.phase = .round) : (roundStep s).Inv := by
  have hc := (eng_inv h).checked (.inr (.inl hp))
  have hb : s.eng.phase ≠ .idle := by simp [hp]
  unfold roundStep
  split
  next hr =>
    have hr' : (s.eng.round + 1).toNat < 24 := by bv_omega
    exact inv_running h hb hc _ hr' hb
  next => exact inv_running h hb hc _ (eng_inv h).round_lt (by decide)

theorem roundPhase_inv {s : State} (h : s.Inv) (hp : s.eng.phase = .round) : (roundPhase s).Inv :=
  inv_running h (by simp [hp]) ((eng_inv h).checked (.inr (.inl hp))) _ (by decide) (by decide)

theorem storePhase_inv {s t : State} (h : s.Inv) (hp : s.eng.phase = .store) (ht : storePhase s = .next t) : t.Inv := by
  have hc := (eng_inv h).checked (.inr (.inr hp))
  have hsp := stateBuffer_le hc
  obtain ⟨-, ⟨-, rfl⟩ | ⟨-, rfl⟩ | ⟨-, rfl⟩⟩ := storePhase_cases ht
  · exact inv_running h (by simp [hp]) hc s.eng.lanes (eng_inv h).round_lt (by decide)
  · exact inv_completeRun (inv_recordResult (inv_freeState (inv_popBus h) s.draws s.eng.spAddr _)) _
  · refine inv_completeRun (inv_recordResult (inv_setMem (inv_popBus h) (storeLanes_wf h.mem_wf _ _) fun c hc => ?_)) _
    refine (mem_storeLanes hc).imp id fun ⟨_, hlt⟩ => ?_
    exact Nat.lt_of_lt_of_le hlt hsp

/-! ### Operations of the engine at `eng` -/

/-- Every next state the operation answers from a state that meets the invariant meets it. -/
def KeepsInv (f : State → Host.Outcome State Fault Refusal) : Prop :=
  ∀ s t : State, s.Inv → f s = .next t → t.Inv

theorem engineStep_keepsInv : KeepsInv engineStep := by
  intro s t h ht
  obtain ⟨-, rfl⟩ | ⟨hp, rfl⟩ | ⟨hp, hl⟩ | ⟨hp, -, rfl⟩ | ⟨hp, hst⟩ := engineStep_cases ht
  · exact h
  · exact checkPhase_inv h hp
  · exact loadPhase_inv h (by simp [hp]) ((eng_inv h).checked (.inl hp)) hl
  · exact roundStep_inv h hp
  · exact storePhase_inv h hp hst

/-- The transaction of the latched command, from CHECK. -/
theorem exec_inv {i : Instr} {s t : State} (h : s.Inv) (hp : s.eng.phase = .check) (hd : decode s.eng.curW = .ok i)
    (ht : exec i s = .next t) : t.Inv := by
  obtain ⟨-, rfl⟩ | ⟨-, hr⟩ := exec_cases ht
  · exact inv_complete h _
  obtain ⟨-, rfl⟩ | ⟨hrange, hrun⟩ := runCommand_cases hr
  · exact inv_complete h _
  have hload : ∀ u, loadPhase (instrInLen i) s = .next u → u.Inv := fun u =>
    loadPhase_inv h (by simp [hp]) (firstCheckError_eq_noError.2 ⟨i, hd, hrange⟩)
  obtain ⟨hl, -⟩ | ⟨u, hl, hround, hst⟩ := hrun
  · exact hload t hl
  · exact storePhase_inv (roundPhase_inv (hload u hl) hround) (by simp) hst

theorem autoStep_keepsInv : KeepsInv autoStep := by
  intro s t h ht
  obtain ⟨hp, i, hd, he⟩ | ⟨-, e, -, rfl⟩ | ⟨-, hs⟩ := autoStep_cases ht
  · exact exec_inv h hp hd he
  · exact inv_complete h _
  · exact engineStep_keepsInv s t h hs

theorem reset_keepsInv : KeepsInv fun s => .next (resetEngine s) := by
  intro s t h ht
  cases ht
  exact inv_resetEngine h

theorem inv_acceptCmd {s : State} (h : s.Inv) (w : Word) : (acceptCmd w s).Inv :=
  inv_congr (inv_setEng h (engineInv_latch (eng_inv h) w) (.inr (by rw [latch_status]; decide))) rfl rfl rfl rfl rfl

theorem writeReg_keepsInv (off : Nat) (v : Word) : KeepsInv (writeReg off v) := by
  intro s t h ht
  obtain ⟨-, hc⟩ | ⟨-, rfl⟩ | ⟨-, rfl⟩ | ⟨-, rfl⟩ := writeReg_cases ht
  · obtain ⟨-, -, -, -, rfl⟩ := writeCmd_cases hc
    exact inv_acceptCmd h v
  · exact h
  · exact inv_setEng h { eng_inv h with statePtr_lt := maskAddr_lt _ _ } (.inl rfl)
  · exact inv_setEng h { eng_inv h with inPtr_lt := maskAddr_lt _ _ } (.inl rfl)

theorem readReg_keepsInv (off : Nat) : KeepsInv (readReg off) := by
  intro s t h ht
  obtain ⟨-, rfl⟩ | ⟨-, -, rfl⟩ | ⟨-, -, rfl⟩ | ⟨-, -, rfl⟩ := readReg_cases ht
  · exact inv_returnRead h _
  · exact inv_returnRead (inv_seeDone h) _
  · exact inv_returnRead h _
  · exact inv_returnRead h _

/-! ### Choosing an engine -/

/-- Exchanging two engines leaves the platform with the engines it had. -/
theorem perm_swapEngine (j : Nat) (s : State) :
    ((swapEngine j s).eng :: (swapEngine j s).others).Perm (s.eng :: s.others) := by
  unfold swapEngine
  split
  next e he => simpa [List.getD, he] using List.getD_set_perm_cons s.others j s.eng
  next => exact .refl _

theorem inv_swapEngine {s : State} (h : s.Inv) (j : Nat) : (swapEngine j s).Inv where
  aw_pos := by simpa using h.aw_pos
  aw_le := by simpa using h.aw_le
  engines e he := by simpa using h.engines e ((perm_swapEngine j s).mem_iff.1 he)
  mem_wf := by simpa using h.mem_wf
  mem_space := by simpa using h.mem_space
  log_errors := by simpa using h.log_errors
  err_logged e he := by simpa using h.err_logged e ((perm_swapEngine j s).mem_iff.1 he)

theorem inv_focus {s : State} (h : s.Inv) (k : Nat) : (focus k s).Inv := by
  cases k with
  | zero => exact h
  | succ j => exact inv_swapEngine h j

theorem withEngine_keepsInv {f : State → Host.Outcome State Fault Refusal} (hf : KeepsInv f) (k : Nat) :
    KeepsInv (withEngine k f) := by
  intro s t h ht
  cases k with
  | zero => exact hf s t h (by simpa using ht)
  | succ j =>
    obtain ⟨-, u, hu, rfl⟩ := withEngine_succ ht
    exact inv_swapEngine (hf _ u (inv_swapEngine h j) hu) j

/-! ### Events and steps -/

theorem runEngines_keepsInv : KeepsInv runEngines := by
  intro s t h ht
  obtain ⟨k, -, hk⟩ | ⟨-, rfl⟩ := runEngines_cases ht
  · exact withEngine_keepsInv autoStep_keepsInv k s t h hk
  · exact h

theorem hostWrite_keepsInv (addr size : Nat) (v : Word) : KeepsInv (hostWrite addr size v) := by
  intro s t h ht
  obtain ⟨k, off, -, -, hw⟩ := hostWrite_cases ht
  exact withEngine_keepsInv (writeReg_keepsInv off v) k s t h hw

theorem hostRead_keepsInv (addr size : Nat) : KeepsInv (hostRead addr size) := by
  intro s t h ht
  obtain ⟨k, off, -, -, hr⟩ := hostRead_cases ht
  exact withEngine_keepsInv (readReg_keepsInv off) k s t h hr

theorem hostWait_keepsInv (base : Nat) : KeepsInv (hostWait base) := by
  intro s t h ht
  obtain ⟨u, hu, hcase⟩ := hostWait_cases ht
  have hi : u.Inv := hostRead_keepsInv _ _ s u h hu
  obtain ⟨-, rfl⟩ | ⟨-, rfl⟩ := hcase
  · exact inv_congr hi rfl rfl rfl rfl rfl
  · exact hi

/-- The port address of an agent's access lies in the port space (20_memory.md R60). -/
theorem agentAddr_lt {p : Params} {who : Agent} {addr a : Nat} (h : agentAddr p who addr = some a) : a < 2 ^ p.aw := by
  cases who with
  | host => exact of_decide_eq_true (Option.filter_eq_some_iff.1 h).2
  | other =>
    simp only [agentAddr, Option.ite_none_right_eq_some, Option.some.injEq] at h
    obtain ⟨hlt, rfl⟩ := h
    exact hlt

theorem agentWrite_keepsInv (who : Agent) (addr : Nat) (v : Byte) : KeepsInv (agentWrite who addr v) := by
  intro s t h ht
  obtain ⟨a, ha, -, -, rfl⟩ := agentWrite_cases ht
  refine inv_congr (inv_setMem h (memWrite_wf h.mem_wf a v) fun c hc => ?_) rfl rfl rfl rfl rfl
  refine (mem_memWrite hc).imp id ?_
  rintro ⟨rfl, -⟩
  exact agentAddr_lt ha

theorem agentRead_keepsInv (who : Agent) (addr : Nat) : KeepsInv (agentRead who addr) := by
  intro s t h ht
  obtain ⟨a, -, -, ⟨-, rfl⟩ | ⟨-, -, rfl⟩⟩ := agentRead_cases ht
  · exact inv_congr h rfl rfl rfl rfl rfl
  · exact inv_returnRead h _

theorem handle_keepsInv (ev : Event) : KeepsInv (handle ev) := by
  intro s t h ht
  cases ev with
  | engineStep k => exact withEngine_keepsInv engineStep_keepsInv k s t h ht
  | reset k => exact withEngine_keepsInv reset_keepsInv k s t h ht
  | regWrite addr size v => exact hostWrite_keepsInv addr size v s t h ht
  | regRead addr size => exact hostRead_keepsInv addr size s t h ht
  | wait base => exact hostWait_keepsInv base s t h ht
  | memWrite who addr v => exact agentWrite_keepsInv who addr v s t h ht
  | memRead who addr => exact agentRead_keepsInv who addr s t h ht
  | hostRelease | hostAcquire | hostDeviceOrder =>
    cases ht
    exact inv_congr h rfl rfl rfl rfl rfl

/-- Settles O55: a step is an event with the agenda's first entry taken off, or the engines running on, and each operation that
can be keeps the invariant, whichever engine acts. -/
theorem stepKeepsInvariant : Obligations.StepKeepsInvariant := by
  unfold Obligations.StepKeepsInvariant
  intro s t h ht
  unfold step at ht
  split at ht
  next ev rest _ => exact handle_keepsInv ev { s with agenda := rest } t (inv_congr h rfl rfl rfl rfl rfl) ht
  next => exact runEngines_keepsInv s t h ht

/-- Settles O54, field by field. -/
theorem resetMeetsInvariant : Obligations.ResetMeetsInvariant := by
  unfold Obligations.ResetMeetsInvariant
  have he : (Engine.reset 0).Inv State.reset.params.aw := by constructor <;> decide
  exact
    { aw_pos := by decide
      aw_le := by decide
      engines := List.forall_mem_singleton.2 he
      mem_wf := by decide
      mem_space := by decide
      log_errors := by decide
      err_logged := by decide }

end Sys2Proof.Proofs
end

section
/-! PROOF. What no agent can observe (spec 10_state.md R32, R47, R49): each operation, from a state and from the same state with
its hidden parts put at 0, ends alike and shows the same. -/

namespace Sys2Proof.Proofs

open Sys2Proof Sys2Proof.Machine Sys2Proof.Laws

/-! ### The visible part of an engine -/

section VisibleEngine

variable (e : Engine)

@[simp] theorem visible_base : e.visible.base = e.base := rfl
@[simp] theorem visible_phase : e.visible.phase = e.phase := rfl
@[simp] theorem visible_status : e.visible.status = e.status := rfl
@[simp] theorem visible_statePtr : e.visible.statePtr = e.statePtr := rfl
@[simp] theorem visible_inPtr : e.visible.inPtr = e.inPtr := rfl
@[simp] theorem visible_statePtrWritten : e.visible.statePtrWritten = e.statePtrWritten := rfl
@[simp] theorem visible_inPtrWritten : e.visible.inPtrWritten = e.inPtrWritten := rfl
@[simp] theorem visible_bus : e.visible.bus = e.bus := rfl
@[simp] theorem visible_busy : e.visible.busy = e.busy := rfl

@[simp] theorem engineVisible_visible : e.visible.visible = e.visible := by
  cases hp : e.phase <;> simp [Engine.visible, hp]

end VisibleEngine

section VisiblePhase

variable {e : Engine}

/-- Before LOAD has written them, L and the round counter are hidden. -/
theorem visible_of_check (h : e.phase = .check) : e.visible = { e with lanes := Vector.replicate 25 0, round := 0 } := by
  simp [Engine.visible, h]

theorem visible_of_load (h : e.phase = .load) : e.visible = { e with lanes := Vector.replicate 25 0, round := 0 } := by
  simp [Engine.visible, h]

/-- In ROUND nothing is hidden. -/
theorem visible_of_round (h : e.phase = .round) : e.visible = e := by
  cases e
  cases h
  rfl

/-- In STORE the round counter alone is hidden. -/
theorem visible_of_store (h : e.phase = .store) : e.visible = { e with round := 0 } := by
  simp [Engine.visible, h]

/-- The latched command is hidden in IDLE only. -/
theorem visible_latch (h : e.phase ≠ .idle) :
    e.visible.curW = e.curW ∧ e.visible.curOp = e.curOp ∧ e.visible.curLen = e.curLen ∧
      e.visible.curSp = e.curSp ∧ e.visible.curIp = e.curIp := by
  simp [Engine.visible, h]

theorem visible_spAddr (h : e.phase ≠ .idle) : e.visible.spAddr = e.spAddr := by
  simp [Engine.spAddr, visible_latch h]

theorem visible_ipAddr (h : e.phase ≠ .idle) : e.visible.ipAddr = e.ipAddr := by
  simp [Engine.ipAddr, visible_latch h]

theorem visible_inLen (h : e.phase ≠ .idle) : e.visible.inLen = e.inLen := by
  simp [Engine.inLen, visible_latch h]

theorem visible_sliceLen (h : e.phase ≠ .idle) : e.visible.sliceLen = e.sliceLen := by
  simp [Engine.sliceLen, visible_latch h]

end VisiblePhase

/-- What is visible of an engine meets the invariant where the engine does. -/
theorem engineInv_visible {aw : Nat} {e : Engine} (h : e.Inv aw) : e.visible.Inv aw :=
  { h with
    round_lt := by
      by_cases hp : e.phase = .round
      · simpa [Engine.visible, hp] using h.round_lt
      · simp [Engine.visible, hp]
    curSp_lt := by
      by_cases hp : e.phase = .idle
      · simp [Engine.visible, hp]
      · simpa [visible_latch hp] using h.curSp_lt
    curIp_lt := by
      by_cases hp : e.phase = .idle
      · simp [Engine.visible, hp]
      · simpa [visible_latch hp] using h.curIp_lt
    latch_op := fun hp => by
      obtain ⟨hw, hop, -⟩ := visible_latch (e := e) hp
      rw [hw, hop]
      exact h.latch_op hp
    latch_len := fun hp => by
      obtain ⟨hw, -, hlen, -⟩ := visible_latch (e := e) hp
      rw [hw, hlen]
      exact h.latch_len hp
    checked := fun hp => by
      have hb : e.phase ≠ .idle := by rintro h0; simp [h0] at hp
      obtain ⟨hw, -⟩ := visible_latch hb
      rw [hw, visible_spAddr hb, visible_ipAddr hb]
      exact h.checked hp }

/-! ### What a busy engine owns is visible -/

section Owned

variable {aw : Nat} {e : Engine} (h : e.Inv aw)
include h

theorem visible_ownsState (a : Nat) : e.visible.ownsState a = e.ownsState a := by
  cases hb : e.busy with
  | false => simp [Engine.ownsState, hb]
  | true => simp [Engine.ownsState, visible_spAddr (h.busy_phase.1 hb)]

theorem visible_ownsInput (a : Nat) : e.visible.ownsInput a = e.ownsInput a := by
  cases hb : e.busy with
  | false => simp [Engine.ownsInput, hb]
  | true =>
    have hp := h.busy_phase.1 hb
    simp [Engine.ownsInput, visible_ipAddr hp, visible_sliceLen hp]

theorem visible_writeRaces (base len : Nat) : e.visible.writeRaces base len = e.writeRaces base len := by
  cases hb : e.busy with
  | false => simp [Engine.writeRaces, hb]
  | true =>
    have hp := h.busy_phase.1 hb
    simp [Engine.writeRaces, visible_spAddr hp, visible_ipAddr hp, visible_sliceLen hp]

end Owned

/-- What is asked of some engine of a list is asked of the visible parts, where each engine answers alike. -/
theorem any_map_visible {es : List Engine} {p : Engine → Bool} (h : ∀ e ∈ es, p e.visible = p e) :
    (es.map Engine.visible).any p = es.any p := by
  induction es with
  | nil => rfl
  | cons e es ih =>
    obtain ⟨h0, hs⟩ := List.forall_mem_cons.1 h
    rw [List.map_cons, List.any_cons, List.any_cons, h0, ih hs]

section OwnedByOthers

variable {aw : Nat} {es : List Engine} (h : ∀ e ∈ es, e.Inv aw)
include h

theorem storeRaces_visible (sp : Nat) : storeRaces (es.map Engine.visible) sp = storeRaces es sp :=
  any_map_visible fun e he => visible_writeRaces (h e he) sp 200

theorem portRead_visible (m : List Host.Cell) (d a : Nat) :
    portRead (es.map Engine.visible) m d a = portRead es m d a := by
  unfold portRead
  rw [any_map_visible fun e he => visible_ownsState (h e he) a]

theorem loadByte_visible (m : List Host.Cell) (d sp ip n : Nat) :
    loadByte (es.map Engine.visible) m d sp ip n = loadByte es m d sp ip n := by
  funext k
  simp only [loadByte, portRead_visible h]

end OwnedByOthers

/-! ### The visible part of a state and of an outcome -/

section VisibleState

variable (s : State)

@[simp] theorem stateVisible_params : s.visible.params = s.params := rfl
@[simp] theorem stateVisible_eng : s.visible.eng = s.eng.visible := rfl
@[simp] theorem stateVisible_others : s.visible.others = s.others.map Engine.visible := rfl
@[simp] theorem stateVisible_mem : s.visible.mem = s.mem := rfl
@[simp] theorem stateVisible_agenda : s.visible.agenda = s.agenda := rfl
@[simp] theorem stateVisible_host : s.visible.host = s.host := rfl
@[simp] theorem stateVisible_faultLog : s.visible.faultLog = s.faultLog := rfl
@[simp] theorem stateVisible_draws : s.visible.draws = s.draws := rfl

end VisibleState

@[simp] theorem map_visible_visible (es : List Engine) :
    (es.map Engine.visible).map Engine.visible = es.map Engine.visible := by
  simp [Function.comp_def]

/-- Two states show the same where their engines do and they agree in everything else. -/
theorem visible_congr {s t : State} (he : s.eng.visible = t.eng.visible)
    (ho : s.others.map Engine.visible = t.others.map Engine.visible)
    (hr : { s with eng := t.eng, others := t.others } = t) : s.visible = t.visible := by
  rw [← hr]
  simp [State.visible, he, ho]

@[simp] theorem stateVisible_visible (s : State) : s.visible.visible = s.visible :=
  visible_congr (by simp) (by simp) rfl

/-- What an outcome shows: the visible part of its next state, or its reason to stop. -/
def viewOf (o : Host.Outcome State Fault Refusal) : Host.Outcome State Fault Refusal :=
  andThen o fun s => .next s.visible

@[simp] theorem viewOf_next (s : State) : viewOf (.next s) = .next s.visible := rfl
@[simp] theorem viewOf_fault (r : Fault) : viewOf (.fault r) = .fault r := rfl
@[simp] theorem viewOf_refused (r : Refusal) : viewOf (.refused r) = .refused r := rfl

theorem viewOf_next_congr {s t : State} (h : s.visible = t.visible) : viewOf (.next s) = viewOf (.next t) :=
  congrArg Host.Outcome.next h

theorem outcomesAgree_visible_iff {o p : Host.Outcome State Fault Refusal} :
    outcomesAgree State.visible o p ↔ viewOf o = viewOf p := by
  cases o <;> cases p <;> simp [outcomesAgree]

/-- Going on alike from states that show the same. -/
theorem viewOf_andThen_congr {o p : Host.Outcome State Fault Refusal} {g : State → Host.Outcome State Fault Refusal}
    (h : viewOf o = viewOf p)
    (hg : ∀ u v, o = .next u → p = .next v → u.visible = v.visible → viewOf (g u) = viewOf (g v)) :
    viewOf (andThen o g) = viewOf (andThen p g) := by
  cases o with
  | next u =>
    cases p with
    | next v => exact hg u v rfl rfl (by simpa using h)
    | fault | refused => cases h
  | fault r =>
    cases p with
    | fault q => exact h
    | next | refused => cases h
  | refused r =>
    cases p with
    | refused q => exact h
    | next | fault => cases h

/-- A choice made alike, each of whose branches shows the same. -/
theorem viewOf_ite_congr {c d : Prop} [Decidable c] [Decidable d] (hcd : c ↔ d)
    {o p o' p' : Host.Outcome State Fault Refusal} (ho : c → viewOf o = viewOf o') (hp : ¬c → viewOf p = viewOf p') :
    viewOf (if c then o else p) = viewOf (if d then o' else p') := by
  by_cases hc : c
  · rw [if_pos hc, if_pos (hcd.1 hc), ho hc]
  · rw [if_neg hc, if_neg (mt hcd.2 hc), hp hc]

/-- Going on with something that sees the visible part only. -/
theorem viewOf_andThen {g : State → Host.Outcome State Fault Refusal} (hg : ∀ u, viewOf (g u) = g u.visible)
    (o : Host.Outcome State Fault Refusal) : viewOf (andThen o g) = andThen (viewOf o) g := by
  cases o with
  | next u => simp [hg]
  | fault r => simp
  | refused r => simp

theorem inv_visible {s : State} (h : s.Inv) : s.visible.Inv :=
  { h with
    engines := by
      obtain ⟨h0, hs⟩ := List.forall_mem_cons.1 h.engines
      exact List.forall_mem_cons.2 ⟨engineInv_visible h0, List.forall_mem_map.2 fun e he => engineInv_visible (hs e he)⟩
    err_logged := by
      obtain ⟨h0, hs⟩ := List.forall_mem_cons.1 h.err_logged
      exact List.forall_mem_cons.2 ⟨h0, List.forall_mem_map.2 hs⟩ }

/-! ### Updates of the state -/

theorem complete_visible (err : ErrCode) (s : State) : (complete err s).visible = (complete err s.visible).visible :=
  visible_congr (by simp [complete, forgetLatch, Engine.visible]) (by simp) rfl

/-- A completion from LOAD or STORE shows the same from states that show the same. -/
theorem completeRun_visible_congr {s t : State} (h : s.visible = t.visible) (err : ErrCode) :
    (completeRun err s).visible = (completeRun err t).visible := by
  have hv : ∀ u : State, (completeRun err u).visible = (completeRun err u.visible).visible := fun u =>
    visible_congr (by simp [completeRun, complete, forgetLatch, forgetLanes, Engine.visible]) (by simp) rfl
  rw [hv s, hv t, h]

theorem popBus_visible (s : State) : (popBus s).visible = popBus s.visible := rfl

theorem recordResult_visible {s : State} (h : s.eng.phase ≠ .idle) :
    (recordResult s).visible = recordResult s.visible := by
  simp [recordResult, State.visible, visible_spAddr h]

theorem acceptCmd_visible (w : Word) (s : State) : (acceptCmd w s).visible = (acceptCmd w s.visible).visible :=
  visible_congr (by simp [latch, Engine.visible]) (by simp) rfl

theorem returnRead_visible (v : Word) (s : State) : (returnRead v s).visible = returnRead v s.visible := rfl

theorem seeDone_visible (s : State) : (seeDone s).visible = seeDone s.visible := by
  unfold seeDone
  by_cases hd : statusDone s.eng.status = true <;> simp [State.visible, hd]

theorem resetEngine_visible {s : State} (h : s.Inv) : (resetEngine s).visible = (resetEngine s.visible).visible := by
  have hm : (resetEngine s.visible).mem = (resetEngine s).mem := by
    cases hb : s.eng.busy with
    | false => simp [hb]
    | true => simp [hb, visible_spAddr ((eng_inv h).busy_phase.1 hb)]
  have he : (resetEngine s.visible).eng.visible = (resetEngine s).eng.visible := by
    simp [engineAfterReset, forgetLanes, forgetLatch, Engine.visible]
  rw [State.visible, State.visible, hm, he]
  simp [resetEngine, State.visible]

/-! ### The phases -/

theorem checkPhase_visible {s : State} (hp : s.eng.phase = .check) :
    (checkPhase s).visible = (checkPhase s.visible).visible := by
  have hb : s.eng.phase ≠ .idle := by simp [hp]
  have hc : firstCheckError s.visible.params.aw s.visible.eng.curW s.visible.eng.spAddr s.visible.eng.ipAddr =
      firstCheckError s.params.aw s.eng.curW s.eng.spAddr s.eng.ipAddr := by
    simp [visible_latch hb, visible_spAddr hb, visible_ipAddr hb]
  rw [checkPhase_eq, checkPhase_eq, hc]
  split
  next => exact visible_congr (by simp [Engine.visible, hp]) (by simp) rfl
  next => exact complete_visible _ s

/-- LOAD writes L and the round counter, so what they held is not seen, in the phased form and in a transaction. -/
theorem loadPhase_visible {n : Nat} {s : State} (h : s.Inv) (hp : s.eng.phase = .check ∨ s.eng.phase = .load) :
    viewOf (loadPhase n s) = viewOf (loadPhase n s.visible) := by
  have hb : s.eng.phase ≠ .idle := by rintro h0; simp [h0] at hp
  have he : s.eng.visible = { s.eng with lanes := Vector.replicate 25 0, round := 0 } :=
    hp.elim visible_of_check visible_of_load
  unfold loadPhase
  simp only [stateVisible_params, stateVisible_eng, stateVisible_others, stateVisible_mem, stateVisible_draws,
    visible_spAddr hb, visible_ipAddr hb, visible_bus, loadByte_visible (others_inv h)]
  refine viewOf_ite_congr .rfl (fun _ => rfl) fun _ => ?_
  cases busReply s.params s.eng.bus with
  | hang => exact viewOf_next_congr (visible_congr (by simp [Engine.visible, hb]) (by simp) rfl)
  | error =>
    refine viewOf_next_congr (completeRun_visible_congr ?_ _)
    rw [popBus_visible, popBus_visible, stateVisible_visible]
  | ok => exact viewOf_next_congr (visible_congr (by simp [he, popBus]) (by simp) rfl)

theorem roundStep_visible {s : State} (hp : s.eng.phase = .round) :
    (roundStep s).visible = (roundStep s.visible).visible := by
  unfold roundStep
  simp only [stateVisible_eng, visible_of_round hp]
  split
  next => exact visible_congr rfl (by simp) rfl
  next => exact visible_congr rfl (by simp) rfl

theorem roundPhase_visible {s : State} (hp : s.eng.phase = .round) :
    (roundPhase s).visible = (roundPhase s.visible).visible :=
  visible_congr (by simp [roundPhase, visible_of_round hp]) (by simp) rfl

theorem storePhase_visible {s : State} (h : s.Inv) (hp : s.eng.phase = .store) :
    viewOf (storePhase s) = viewOf (storePhase s.visible) := by
  have hb : s.eng.phase ≠ .idle := by simp [hp]
  have hL : s.eng.visible.lanes = s.eng.lanes := by rw [visible_of_store hp]
  have hrecord : ∀ (m : List Host.Cell) (d : Nat),
      (recordResult { popBus s with mem := m, draws := d }).visible =
        (recordResult { popBus s.visible with mem := m, draws := d }).visible := fun m d => by
    rw [recordResult_visible (by simpa using hb), recordResult_visible (by simpa using hb)]
    exact congrArg recordResult (visible_congr (engineVisible_visible _).symm (by simp) rfl)
  unfold storePhase
  simp only [stateVisible_params, stateVisible_eng, stateVisible_others, stateVisible_mem, stateVisible_draws,
    visible_spAddr hb, visible_bus, storeRaces_visible (others_inv h), hL]
  refine viewOf_ite_congr .rfl (fun _ => rfl) fun _ => ?_
  cases busReply s.params s.eng.bus with
  | hang => exact viewOf_next_congr (visible_congr (by simp [Engine.visible, hb]) (by simp) rfl)
  | error => exact viewOf_next_congr (completeRun_visible_congr (hrecord _ _) _)
  | ok => exact viewOf_next_congr (completeRun_visible_congr (hrecord _ _) _)

/-! ### Operations of the engine at `eng` -/

/-- The operation shows the same from a state and from its visible part. -/
def SeesVisible (f : State → Host.Outcome State Fault Refusal) : Prop :=
  ∀ s : State, s.Inv → viewOf (f s) = viewOf (f s.visible)

theorem engineStep_seesVisible : SeesVisible engineStep := by
  intro s h
  unfold engineStep
  simp only [stateVisible_eng, visible_phase]
  split
  next => simp
  next hp => exact viewOf_next_congr (checkPhase_visible hp)
  next hp =>
    rw [visible_inLen (by simp [hp])]
    exact loadPhase_visible h (.inr hp)
  next hp =>
    exact viewOf_ite_congr (by rw [visible_of_round hp])
      (fun _ => viewOf_next_congr (roundStep_visible hp)) fun _ => rfl
  next hp => exact storePhase_visible h hp

/-- The transaction of the latched command, from CHECK. -/
theorem runCommand_visible {i : Instr} {s : State} (h : s.Inv) (hp : s.eng.phase = .check)
    (hd : decode s.eng.curW = .ok i) :
    viewOf (runCommand (instrInLen i) s) = viewOf (runCommand (instrInLen i) s.visible) := by
  have hb : s.eng.phase ≠ .idle := by simp [hp]
  have hdv : decode s.visible.eng.curW = .ok i := by rw [stateVisible_eng, (visible_latch hb).1, hd]
  have hrange : rangeFails s.visible.params.aw s.visible.eng.spAddr s.visible.eng.ipAddr (instrInLen i) =
      rangeFails s.params.aw s.eng.spAddr s.eng.ipAddr (instrInLen i) := by
    simp only [stateVisible_params, stateVisible_eng, visible_spAddr hb, visible_ipAddr hb]
  unfold runCommand
  refine viewOf_ite_congr (by rw [hrange]) (fun _ => viewOf_next_congr (complete_visible _ s)) fun hr => ?_
  have hc := firstCheckError_eq_noError.2 ⟨i, hd, eq_false_of_ne_true hr⟩
  have hcv := firstCheckError_eq_noError.2 ⟨i, hdv, hrange.trans (eq_false_of_ne_true hr)⟩
  refine viewOf_andThen_congr (loadPhase_visible h (.inl hp)) fun u v hu hv huv => ?_
  have hphase : u.eng.phase = v.eng.phase := congrArg (fun x => x.eng.phase) huv
  refine viewOf_ite_congr (by rw [hphase]) (fun hround => ?_) fun _ => viewOf_next_congr huv
  have hround' := hphase.symm.trans hround
  rw [storePhase_visible (roundPhase_inv (loadPhase_inv h hb hc hu) hround) (by simp),
    storePhase_visible (roundPhase_inv (loadPhase_inv (inv_visible h) hb hcv hv) hround') (by simp),
    roundPhase_visible hround, roundPhase_visible hround', huv]

theorem autoStep_seesVisible : SeesVisible autoStep := by
  intro s h
  unfold autoStep
  refine viewOf_ite_congr .rfl (fun hp => ?_) fun _ => engineStep_seesVisible s h
  have hcomplete : ∀ err, viewOf (.next (complete err s)) = viewOf (.next (complete err s.visible)) := fun err =>
    viewOf_next_congr (complete_visible err s)
  rw [stateVisible_eng, (visible_latch (e := s.eng) (by simp [hp])).1]
  cases hd : decode s.eng.curW with
  | error e => exact hcomplete _
  | ok i =>
    cases i with
    | permute => exact runCommand_visible h hp hd
    | absorb len => exact viewOf_ite_congr .rfl (fun _ => hcomplete _) fun _ => runCommand_visible h hp hd

theorem reset_seesVisible : SeesVisible fun s => .next (resetEngine s) := fun _ h =>
  viewOf_next_congr (resetEngine_visible h)

theorem writeReg_seesVisible (off : Nat) (v : Word) : SeesVisible (writeReg off v) := by
  intro s _
  have hr : releaseMissing v s.visible = releaseMissing v s := by
    simp [releaseMissing, latch, Engine.spAddr, Engine.ipAddr]
  unfold writeReg
  refine viewOf_ite_congr .rfl (fun _ => ?_) fun _ => viewOf_ite_congr .rfl (fun _ => by simp) fun _ => ?_
  · unfold writeCmd
    rw [hr]
    exact viewOf_ite_congr .rfl (fun _ => rfl) fun _ => viewOf_ite_congr .rfl (fun _ => rfl) fun _ =>
      viewOf_ite_congr .rfl (fun _ => rfl) fun _ => viewOf_ite_congr .rfl (fun _ => rfl) fun _ =>
        viewOf_next_congr (acceptCmd_visible v s)
  · exact viewOf_ite_congr .rfl
      (fun _ => viewOf_next_congr (visible_congr (engineVisible_visible _).symm (by simp) rfl)) fun _ =>
      viewOf_next_congr (visible_congr (engineVisible_visible _).symm (by simp) rfl)

theorem readReg_seesVisible (off : Nat) : SeesVisible (readReg off) := by
  intro s _
  have hread : ∀ (v : Word), viewOf (.next (returnRead v s)) = viewOf (.next (returnRead v s.visible)) := fun v => by
    simp [returnRead_visible]
  unfold readReg
  refine viewOf_ite_congr .rfl (fun _ => hread 0) fun _ => viewOf_ite_congr .rfl (fun _ => ?_) fun _ =>
    viewOf_ite_congr .rfl (fun _ => ?_) fun _ => ?_
  · refine viewOf_ite_congr .rfl (fun _ => rfl) fun _ => ?_
    simp [returnRead_visible, seeDone_visible]
  · exact viewOf_ite_congr .rfl (fun _ => hread _) fun _ => rfl
  · exact viewOf_ite_congr .rfl (fun _ => hread _) fun _ => rfl

/-! ### Choosing an engine -/

theorem swapEngine_visible (j : Nat) (s : State) : (swapEngine j s).visible = swapEngine j s.visible := by
  cases he : s.others[j]? with
  | none => simp [swapEngine, he]
  | some e => simp [swapEngine, he, State.visible, List.map_set]

theorem focus_visible (k : Nat) (s : State) : (focus k s).visible = focus k s.visible := by
  cases k with
  | zero => rfl
  | succ j => exact swapEngine_visible j s

theorem withEngine_seesVisible {f : State → Host.Outcome State Fault Refusal} (hf : SeesVisible f) (k : Nat) :
    SeesVisible (withEngine k f) := by
  intro s h
  cases k with
  | zero => simpa using hf s h
  | succ j =>
    have hback : ∀ u, viewOf (.next (swapEngine j u)) = .next (swapEngine j u.visible) := fun u => by
      simp [swapEngine_visible]
    refine viewOf_ite_congr (by simp) (fun _ => ?_) fun _ => rfl
    rw [viewOf_andThen hback, viewOf_andThen hback, hf _ (inv_swapEngine h j), swapEngine_visible]

/-! ### Events and steps -/

theorem standsStill_visible {s : State} (h : s.Inv) : standsStill s.visible = standsStill s := by
  unfold standsStill
  simp only [stateVisible_params, stateVisible_eng, stateVisible_others, visible_phase, visible_bus,
    storeRaces_visible (others_inv h)]
  cases hp : s.eng.phase with
  | idle | check | round => rfl
  | load =>
    have hb : s.eng.phase ≠ .idle := by simp [hp]
    simp [visible_spAddr hb, visible_ipAddr hb, visible_inLen hb]
  | store => simp [visible_spAddr (e := s.eng) (by simp [hp])]

theorem nextToRun_visible {s : State} (h : s.Inv) : nextToRun s.visible = nextToRun s := by
  unfold nextToRun
  rw [stateVisible_others, List.length_map]
  congr 1
  funext k
  rw [← focus_visible, standsStill_visible (inv_focus h k), stateVisible_eng, visible_busy]

theorem runEngines_seesVisible : SeesVisible runEngines := by
  intro s h
  unfold runEngines
  rw [nextToRun_visible h]
  cases nextToRun s with
  | some k => exact withEngine_seesVisible autoStep_seesVisible k s h
  | none => simp

/-- A block's place on the platform is visible. -/
theorem findBlock_map_visible (es : List Engine) (addr k : Nat) :
    findBlock (es.map Engine.visible) addr k = findBlock es addr k := by
  induction es generalizing k with
  | nil => rfl
  | cons e es ih => simp only [List.map_cons, findBlock, visible_base, ih]

theorem findBlock_visible (s : State) (addr : Nat) :
    findBlock (s.visible.eng :: s.visible.others) addr 0 = findBlock (s.eng :: s.others) addr 0 :=
  findBlock_map_visible (s.eng :: s.others) addr 0

theorem hostWrite_seesVisible (addr size : Nat) (v : Word) : SeesVisible (hostWrite addr size v) := by
  intro s h
  unfold hostWrite
  rw [findBlock_visible]
  split
  next => rfl
  next k off _ =>
    exact viewOf_ite_congr .rfl (fun _ => withEngine_seesVisible (writeReg_seesVisible off v) k s h) fun _ => rfl

theorem hostRead_seesVisible (addr size : Nat) : SeesVisible (hostRead addr size) := by
  intro s h
  unfold hostRead
  rw [findBlock_visible]
  split
  next => rfl
  next k off _ =>
    exact viewOf_ite_congr .rfl (fun _ => withEngine_seesVisible (readReg_seesVisible off) k s h) fun _ => rfl

theorem hostWait_seesVisible (base : Nat) : SeesVisible (hostWait base) := by
  intro s h
  have hagain : ∀ u : State, { u with agenda := stepAll u ++ Event.wait base :: u.agenda }.visible =
      { u.visible with agenda := stepAll u.visible ++ Event.wait base :: u.visible.agenda } := fun u => by
    simp [stepAll, State.visible]
  unfold hostWait
  rw [findBlock_visible]
  split
  next => rfl
  next =>
    refine viewOf_andThen_congr (hostRead_seesVisible _ _ s h) fun u v _ _ huv => ?_
    have hhost : u.host = v.host := (congrArg State.host huv :)
    refine viewOf_ite_congr (by rw [hhost]) (fun _ => ?_) fun _ => viewOf_next_congr huv
    rw [viewOf_next, viewOf_next, hagain, hagain, huv]

/-- Whether a busy engine owns a byte is visible. -/
theorem any_ownsState_visible {s : State} (h : s.Inv) (a : Nat) :
    (s.visible.eng :: s.visible.others).any (fun e => e.ownsState a) =
      (s.eng :: s.others).any fun e => e.ownsState a :=
  any_map_visible (es := s.eng :: s.others) fun e he => visible_ownsState (h.engines e he) a

theorem any_owns_visible {s : State} (h : s.Inv) (a : Nat) :
    (s.visible.eng :: s.visible.others).any (fun e => e.ownsState a || e.ownsInput a) =
      (s.eng :: s.others).any fun e => e.ownsState a || e.ownsInput a :=
  any_map_visible (es := s.eng :: s.others) fun e he => by
    rw [visible_ownsState (h.engines e he), visible_ownsInput (h.engines e he)]

theorem agentWrite_seesVisible (who : Agent) (addr : Nat) (v : Byte) : SeesVisible (agentWrite who addr v) := by
  intro s h
  unfold agentWrite
  simp only [stateVisible_params, any_owns_visible h]
  cases agentAddr s.params who addr with
  | none => rfl
  | some a =>
    exact viewOf_ite_congr .rfl (fun _ => rfl) fun _ => viewOf_ite_congr .rfl (fun _ => rfl) fun _ =>
      viewOf_next_congr (visible_congr (by simp) (by simp) rfl)

theorem agentRead_seesVisible (who : Agent) (addr : Nat) : SeesVisible (agentRead who addr) := by
  intro s h
  unfold agentRead
  simp only [stateVisible_params, any_ownsState_visible h]
  cases agentAddr s.params who addr with
  | none => rfl
  | some a =>
    have hdrawn : viewOf (.next { returnRead ((Config.freeByte s.draws a).setWidth 64) s with draws := s.draws + 1 }) =
        viewOf (.next { returnRead ((Config.freeByte s.visible.draws a).setWidth 64) s.visible with
          draws := s.visible.draws + 1 }) :=
      viewOf_next_congr (visible_congr (by simp) (by simp) rfl)
    exact viewOf_ite_congr .rfl (fun _ => rfl) fun _ => viewOf_ite_congr .rfl (fun _ => hdrawn) fun _ =>
      viewOf_ite_congr .rfl (fun _ => hdrawn) fun _ => viewOf_ite_congr .rfl (fun _ => rfl) fun _ =>
        viewOf_next_congr (visible_congr (by simp) (by simp) rfl)

theorem handle_seesVisible (ev : Event) : SeesVisible (handle ev) := by
  intro s h
  cases ev with
  | engineStep k => exact withEngine_seesVisible engineStep_seesVisible k s h
  | reset k => exact withEngine_seesVisible reset_seesVisible k s h
  | regWrite addr size v => exact hostWrite_seesVisible addr size v s h
  | regRead addr size => exact hostRead_seesVisible addr size s h
  | wait base => exact hostWait_seesVisible base s h
  | memWrite who addr v => exact agentWrite_seesVisible who addr v s h
  | memRead who addr => exact agentRead_seesVisible who addr s h
  | hostRelease | hostAcquire | hostDeviceOrder =>
    exact viewOf_next_congr
      (visible_congr (engineVisible_visible _).symm (map_visible_visible _).symm rfl)

theorem step_seesVisible : SeesVisible step := by
  intro s h
  unfold step
  rw [stateVisible_agenda]
  cases s.agenda with
  | cons ev rest => exact handle_seesVisible ev { s with agenda := rest } (inv_congr h rfl rfl rfl rfl rfl)
  | nil => exact runEngines_seesVisible s h

/-- Settles O56: a step shows the same from each of the two states as from their common visible part. -/
theorem hiddenStateIsUnobservable : Obligations.HiddenStateIsUnobservable := by
  unfold Obligations.HiddenStateIsUnobservable
  intro s t hs ht hst
  rw [outcomesAgree_visible_iff, step_seesVisible s hs, step_seesVisible t ht, hst]

end Sys2Proof.Proofs
end

section
/-! PROOF. The registers of one engine (spec 10_state.md R37 to R44, R47) and what a busy engine owns (20_memory.md R61,
R62). -/

namespace Sys2Proof.Proofs

open Sys2Proof Sys2Proof.Machine Sys2Proof.Laws

/-! ### Reads and writes by offset -/

section Offsets

variable (v : Word) (s : State)

@[simp] theorem writeReg_status : writeReg 0x08 v s = .next s := rfl

@[simp] theorem writeReg_statePtr : writeReg 0x10 v s =
    .next { s with eng := { s.eng with statePtr := maskAddr s.params.aw v, statePtrWritten := true } } := rfl

@[simp] theorem writeReg_inPtr : writeReg 0x18 v s =
    .next { s with eng := { s.eng with inPtr := maskAddr s.params.aw v, inPtrWritten := true } } := rfl

@[simp] theorem readReg_cmd : readReg 0x00 s = .next (returnRead 0 s) := rfl

@[simp] theorem readReg_statePtr : readReg 0x10 s =
    if s.eng.statePtrWritten then .next (returnRead s.eng.statePtr s) else .refused .unwrittenPointer := rfl

@[simp] theorem readReg_inPtr : readReg 0x18 s =
    if s.eng.inPtrWritten then .next (returnRead s.eng.inPtr s) else .refused .unwrittenPointer := rfl

end Offsets

/-- A STATUS read of a platform that needs no HOST_DEVICE_ORDER, or where the host gave it, returns STATUS. -/
theorem readReg_status {s : State} (h : (s.params.hostDeviceOrder && s.host.unordered.contains s.eng.base) = false) :
    readReg 0x08 s = .next (returnRead s.eng.status (seeDone s)) := by
  rw [readReg, if_neg (by decide), if_pos rfl, if_neg (ne_true_of_eq_false h)]

/-- A pointer register of at most 64 bits holds the low AW bits of what was written (R43, R44). -/
theorem maskAddr_toNat {aw : Nat} (h : aw ≤ 64) (w : Word) : (maskAddr aw w).toNat = w.toNat % 2 ^ aw := by
  have hlt : w.toNat % 2 ^ aw < 2 ^ 64 :=
    Nat.lt_of_lt_of_le (Nat.mod_lt _ (Nat.two_pow_pos aw)) (Nat.pow_le_pow_right (by decide) h)
  rw [maskAddr, BitVec.toNat_ofNat, Nat.mod_eq_of_lt hlt]

/-- Settles O41: a reset clears the written marks, and a write masks the value, sets the mark and lets the read return it. -/
theorem pointerRegistersKeepAddressBits : Obligations.PointerRegistersKeepAddressBits := by
  unfold Obligations.PointerRegistersKeepAddressBits
  refine ⟨fun s => ⟨by simp, by simp⟩, fun s v haw => ⟨?_, ?_⟩⟩
  · exact ⟨_, writeReg_statePtr v s, rfl, maskAddr_toNat haw v, _, readReg_statePtr _, rfl⟩
  · exact ⟨_, writeReg_inPtr v s, rfl, maskAddr_toNat haw v, _, readReg_inPtr _, rfl⟩

/-- Settles O43: a read sets `readData`, and of STATUS also the record of stored results (`seeDone_eq`), and nothing else. -/
theorem cmdReadsZeroStatusIgnoresWrites : Obligations.CmdReadsZeroStatusIgnoresWrites := by
  unfold Obligations.CmdReadsZeroStatusIgnoresWrites
  refine ⟨fun s => ⟨_, readReg_cmd s, rfl, rfl⟩, fun s v => writeReg_status v s, fun s hdo => ?_⟩
  obtain ⟨hv, hseen⟩ := seeDone_eq s
  refine ⟨_, readReg_status (by simp [hdo]), returnRead_readData _ _, ?_⟩
  simp [hseen]

/-- Settles O46, register by register. -/
theorem resetValues : Obligations.ResetValues := by
  unfold Obligations.ResetValues
  exact ⟨rfl, rfl, ⟨_, readReg_cmd _, rfl⟩, ⟨_, readReg_status rfl, rfl⟩, by simp [State.reset, Engine.reset],
    by simp [State.reset, Engine.reset]⟩

/-! ### What a busy engine owns -/

theorem ownsState_iff {e : Engine} (hb : e.busy = true) (a : Nat) :
    e.ownsState a = true ↔ e.curSp.toNat ≤ a ∧ a < e.curSp.toNat + 200 := by
  simp [Engine.ownsState, hb, inRange_iff, Engine.spAddr]

theorem ownsInput_iff {e : Engine} (hb : e.busy = true) (a : Nat) :
    e.ownsInput a = true ↔ e.curIp.toNat ≤ a ∧ a < e.curIp.toNat + e.sliceLen := by
  simp [Engine.ownsInput, hb, inRange_iff, Engine.ipAddr]

/-- Settles O58: the input slice has the length of the latched ABSORB, and none for any other word. -/
theorem onlyAbsorbOwnsInput : Obligations.OnlyAbsorbOwnsInput := by
  unfold Obligations.OnlyAbsorbOwnsInput
  intro e a hb
  refine ⟨ownsState_iff hb a, ?_⟩
  rw [ownsInput_iff hb, Engine.sliceLen]
  cases hd : decode e.curW with
  | error err => simp
  | ok i =>
    cases i with
    | permute => simp [instrInLen]
    | absorb len => simp [instrInLen]

end Sys2Proof.Proofs
end

section
/-! PROOF. Engines share only memory (spec 10_state.md R50, 60_exceptions.md R226): the operations act on the engine at `eng`
and leave `others` alone, so that the engine chosen goes back to its place with what it became and every other one is as it
was; and an access reaches a register of the engine whose block it is in (10_state.md R37). -/

namespace Sys2Proof.Proofs

open Sys2Proof Sys2Proof.Machine Sys2Proof.Laws

/-! ### The operations leave `others` alone -/

/-- The operation leaves the engines other than the one at `eng` as they were. -/
def KeepsOthers (f : State → Host.Outcome State Fault Refusal) : Prop :=
  ∀ s t : State, f s = .next t → t.others = s.others

theorem loadPhase_keepsOthers (n : Nat) : KeepsOthers (loadPhase n) := by
  intro s t h
  obtain ⟨-, ⟨-, rfl⟩ | ⟨-, rfl⟩ | ⟨-, rfl⟩⟩ := loadPhase_cases h
  all_goals simp

theorem storePhase_keepsOthers : KeepsOthers storePhase := by
  intro s t h
  obtain ⟨-, ⟨-, rfl⟩ | ⟨-, rfl⟩ | ⟨-, rfl⟩⟩ := storePhase_cases h
  all_goals simp

theorem runCommand_keepsOthers (n : Nat) : KeepsOthers (runCommand n) := by
  intro s t h
  obtain ⟨-, rfl⟩ | ⟨-, ⟨hl, -⟩ | ⟨u, hl, -, hst⟩⟩ := runCommand_cases h
  · simp
  · exact loadPhase_keepsOthers n s t hl
  · rw [storePhase_keepsOthers _ t hst, roundPhase_others, loadPhase_keepsOthers n s u hl]

theorem exec_keepsOthers (i : Instr) : KeepsOthers (exec i) := by
  intro s t h
  obtain ⟨-, rfl⟩ | ⟨-, hr⟩ := exec_cases h
  · simp
  · exact runCommand_keepsOthers _ s t hr

theorem engineStep_keepsOthers : KeepsOthers engineStep := by
  intro s t h
  obtain ⟨-, rfl⟩ | ⟨-, rfl⟩ | ⟨-, hl⟩ | ⟨-, -, rfl⟩ | ⟨-, hst⟩ := engineStep_cases h
  · rfl
  · rw [checkPhase_eq]
    split <;> simp
  · exact loadPhase_keepsOthers _ s t hl
  · unfold roundStep
    split <;> rfl
  · exact storePhase_keepsOthers s t hst

theorem autoStep_keepsOthers : KeepsOthers autoStep := by
  intro s t h
  obtain ⟨-, i, -, he⟩ | ⟨-, e, -, rfl⟩ | ⟨-, hs⟩ := autoStep_cases h
  · exact exec_keepsOthers i s t he
  · simp
  · exact engineStep_keepsOthers s t hs

theorem reset_keepsOthers : KeepsOthers fun s => .next (resetEngine s) := by
  intro s t h
  cases h
  simp

theorem writeReg_keepsOthers (off : Nat) (v : Word) : KeepsOthers (writeReg off v) := by
  intro s t h
  obtain ⟨-, hc⟩ | ⟨-, rfl⟩ | ⟨-, rfl⟩ | ⟨-, rfl⟩ := writeReg_cases h
  · obtain ⟨-, -, -, -, rfl⟩ := writeCmd_cases hc
    simp
  all_goals rfl

/-- A register read changes nothing but the host's record. -/
theorem readReg_eq {off : Nat} {s t : State} (h : readReg off s = .next t) : ∃ hv : HostView, t = { s with host := hv } := by
  obtain ⟨-, rfl⟩ | ⟨-, -, rfl⟩ | ⟨-, -, rfl⟩ | ⟨-, -, rfl⟩ := readReg_cases h
  case inr.inl =>
    obtain ⟨hv, hseen⟩ := seeDone_eq s
    rw [hseen]
    exact ⟨_, rfl⟩
  all_goals exact ⟨_, rfl⟩

theorem readReg_keepsOthers (off : Nat) : KeepsOthers (readReg off) := by
  intro s t h
  obtain ⟨hv, rfl⟩ := readReg_eq h
  rfl

/-! ### The engine chosen, and the others -/

@[simp] theorem engineAt_zero (s : State) : s.engineAt 0 = some s.eng := rfl

@[simp] theorem engineAt_succ (s : State) (j : Nat) : s.engineAt (j + 1) = s.others[j]? := rfl

@[simp] theorem length_swapEngine (j : Nat) (s : State) : (swapEngine j s).others.length = s.others.length := by
  unfold swapEngine
  split
  · simp
  · rfl

@[simp] theorem length_focus (k : Nat) (s : State) : (focus k s).others.length = s.others.length := by
  cases k with
  | zero => rfl
  | succ j => exact length_swapEngine j s

/-- Choosing an engine touches the places of the engines alone. -/
theorem focus_eq (k : Nat) (s : State) : focus k s = { s with eng := (focus k s).eng, others := (focus k s).others } := by
  cases k with
  | zero => rfl
  | succ j =>
    simp only [focus, swapEngine]
    split <;> rfl

/-- The engine chosen goes back to its place, and the others are where they were, if `others` was left alone between. -/
theorem engineAt_focus_back {k : Nat} {s t : State} (hk : k ≤ s.others.length) (ho : t.others = (focus k s).others)
    (j : Nat) : (focus k t).engineAt j = if j = k then some t.eng else s.engineAt j := by
  cases k with
  | zero =>
    replace ho : t.others = s.others := ho
    cases j <;> simp [focus, ho]
  | succ i =>
    have hi : i < s.others.length := hk
    have hs : focus (i + 1) s = { s with eng := s.others[i], others := s.others.set i s.eng } := by
      simp [focus, swapEngine, hi]
    rw [hs] at ho
    have ht : focus (i + 1) t = { t with eng := s.eng, others := s.others.set i t.eng } := by
      simp [focus, swapEngine, ho, hi]
    rw [ht]
    cases j with
    | zero => simp
    | succ j =>
      by_cases hj : i = j
      · simp [← hj, hi]
      · simp [List.getElem?_set_ne hj, Ne.symm hj]

/-- An operation of the platform's engine k that leaves the others alone. -/
theorem withEngine_engineAt {k : Nat} {f : State → Host.Outcome State Fault Refusal} (hf : KeepsOthers f) {s t : State}
    (h : withEngine k f s = .next t) :
    ∃ u, s.engineAt k = some (focus k s).eng ∧ f (focus k s) = .next u ∧ t = focus k u ∧
      t.others.length = s.others.length ∧ ∀ j, t.engineAt j = if j = k then some u.eng else s.engineAt j := by
  have hk : k ≤ s.others.length := by
    cases k with
    | zero => exact Nat.zero_le _
    | succ j => exact (withEngine_succ h).1
  rw [withEngine_eq_focus hk] at h
  obtain ⟨u, hu, ht⟩ := andThen_eq_next.1 h
  cases ht
  have ho := hf _ u hu
  obtain ⟨e, he⟩ := engineAt_eq_some hk
  exact ⟨u, by rw [he, focus_eng he], hu, rfl, by rw [length_focus, ho, length_focus], engineAt_focus_back hk ho⟩

/-- Settles O52: a sequencer step and a reset are operations that leave the other engines alone. -/
theorem enginesShareOnlyMemory : Obligations.EnginesShareOnlyMemory := by
  unfold Obligations.EnginesShareOnlyMemory
  rintro s t j k ev hev h
  have hframe : t.others.length = s.others.length ∧ ∃ e, ∀ i, t.engineAt i = if i = j then some e else s.engineAt i := by
    obtain rfl | rfl := hev
    · obtain ⟨u, -, -, -, hlen, hat⟩ := withEngine_engineAt engineStep_keepsOthers h
      exact ⟨hlen, _, hat⟩
    · obtain ⟨u, -, -, -, hlen, hat⟩ := withEngine_engineAt reset_keepsOthers h
      exact ⟨hlen, _, hat⟩
  obtain ⟨hlen, e, hat⟩ := hframe
  exact ⟨hlen, fun hne => by rw [hat, if_neg hne]⟩

/-! ### Register blocks -/

theorem legalAccess_iff {addr off size : Nat} :
    legalAccess addr off size = true ↔
      size = 8 ∧ addr % 8 = 0 ∧ (off = 0x00 ∨ off = 0x08 ∨ off = 0x10 ∨ off = 0x18) := by
  simp [legalAccess, and_assoc, or_assoc]

/-- An access at an offset of the block of engine k, the first block to hold it, finds that block. -/
theorem findBlock_of_engineAt {s : State} {k off : Nat} {e : Engine} (he : s.engineAt k = some e) (hoff : off < 0x20)
    (hfirst : ∀ (j : Nat) (e' : Engine), j < k → s.engineAt j = some e' → inRange (e.base + off) e'.base 0x20 = false) :
    findBlock (s.eng :: s.others) (e.base + off) 0 = some (k, off) := by
  rw [findBlock_eq he (inRange_iff.2 (by omega)) hfirst, Nat.zero_add, Nat.add_sub_cancel_left]

/-- Settles O44: the access finds its block, and the engine of the block acts at `eng` and goes back to its place. -/
theorem registerBlockAccessForms : Obligations.RegisterBlockAccessForms := by
  unfold Obligations.RegisterBlockAccessForms
  refine ⟨fun s k e off size v he hoff hfirst => ?_, fun s t k off e v he => ⟨focus_eng he, ?_, fun ht => ?_⟩⟩
  · have hblock := findBlock_of_engineAt he hoff hfirst
    rw [← legalAccess_iff, hostWrite, hostRead, hblock]
    refine ⟨fun hl => ?_, fun hl => ?_⟩
    · simp only [if_pos hl]
      exact ⟨withEngine_eq_focus (le_of_engineAt he) _, withEngine_eq_focus (le_of_engineAt he) _⟩
    · simp only [if_neg hl, and_self]
  · rw [← focus_eng he]
    exact focus_eq k s
  · have ho : t.others = (focus k s).others :=
      ht.elim (writeReg_keepsOthers off v _ t) (readReg_keepsOthers off _ t)
    have hat := engineAt_focus_back (le_of_engineAt he) ho
    refine ⟨by rw [hat, if_pos rfl], fun j hj => by rw [hat, if_neg hj], ?_⟩
    rw [focus_eq k t]

end Sys2Proof.Proofs
end

section
/-! PROOF. STATUS changes only by acceptance, completion and reset (spec 10_state.md R45): what the operation of the engine that
acts can do to it, and that no other engine's STATUS changes. -/

namespace Sys2Proof.Proofs

open Sys2Proof Sys2Proof.Machine Sys2Proof.Laws

/-- How STATUS of engine k, which was e and is e', can change in a step with this event first on the agenda. -/
def StatusChange (first : Option Event) (k : Nat) (e e' : Engine) : Prop :=
  e'.status = e.status ∨
    (e.busy = false ∧ e'.status = 0x01 ∧ e'.phase = .check ∧ ∃ addr size v, first = some (.regWrite addr size v)) ∨
    (e.busy = true ∧ e'.phase = .idle ∧ statusBusy e'.status = false ∧ statusDone e'.status = true) ∨
    (e'.phase = .idle ∧ e'.status = 0 ∧ first = some (.reset k))

/-! ### The sequencer -/

/-- The engine at `eng` shows the STATUS it showed, or it is idle with the STATUS of a completion. -/
def KeepsOrCompletes (s t : State) : Prop :=
  t.eng.status = s.eng.status ∨ t.eng.phase = .idle ∧ ∃ err, t.eng.status = mkStatus false true (errCode err)

theorem complete_keepsOrCompletes (err : ErrCode) (s : State) : KeepsOrCompletes s (complete err s) :=
  .inr ⟨by simp, err, by simp⟩

theorem loadPhase_keepsOrCompletes {n : Nat} {s t : State} (h : loadPhase n s = .next t) : KeepsOrCompletes s t := by
  obtain ⟨-, ⟨-, rfl⟩ | ⟨-, rfl⟩ | ⟨-, rfl⟩⟩ := loadPhase_cases h
  · exact .inl rfl
  · exact .inr ⟨by simp, .bus, by simp⟩
  · exact .inl rfl

theorem storePhase_keepsOrCompletes {s t : State} (h : storePhase s = .next t) : KeepsOrCompletes s t := by
  obtain ⟨-, ⟨-, rfl⟩ | ⟨-, rfl⟩ | ⟨-, rfl⟩⟩ := storePhase_cases h
  · exact .inl rfl
  · exact .inr ⟨by simp, .bus, by simp⟩
  · exact .inr ⟨by simp, .noError, by simp⟩

theorem runCommand_keepsOrCompletes {n : Nat} {s t : State} (h : runCommand n s = .next t) : KeepsOrCompletes s t := by
  obtain ⟨-, rfl⟩ | ⟨-, ⟨hl, -⟩ | ⟨u, hl, hround, hst⟩⟩ := runCommand_cases h
  · exact complete_keepsOrCompletes _ s
  · exact loadPhase_keepsOrCompletes hl
  · obtain hu | ⟨hidle, -⟩ := loadPhase_keepsOrCompletes hl
    · exact (storePhase_keepsOrCompletes hst).imp (fun ht => by rw [ht, roundPhase_eng_status, hu]) id
    · rw [hidle] at hround
      cases hround

theorem exec_keepsOrCompletes {i : Instr} {s t : State} (h : exec i s = .next t) : KeepsOrCompletes s t := by
  obtain ⟨-, rfl⟩ | ⟨-, hr⟩ := exec_cases h
  · exact complete_keepsOrCompletes _ s
  · exact runCommand_keepsOrCompletes hr

theorem engineStep_keepsOrCompletes {s t : State} (h : engineStep s = .next t) : KeepsOrCompletes s t := by
  obtain ⟨-, rfl⟩ | ⟨-, rfl⟩ | ⟨-, hl⟩ | ⟨-, -, rfl⟩ | ⟨-, hst⟩ := engineStep_cases h
  · exact .inl rfl
  · rw [checkPhase_eq]
    split
    · exact .inl rfl
    · exact complete_keepsOrCompletes _ s
  · exact loadPhase_keepsOrCompletes hl
  · unfold roundStep
    split <;> exact .inl rfl
  · exact storePhase_keepsOrCompletes hst

theorem autoStep_keepsOrCompletes {s t : State} (h : autoStep s = .next t) : KeepsOrCompletes s t := by
  obtain ⟨-, i, -, he⟩ | ⟨-, e, -, rfl⟩ | ⟨-, hs⟩ := autoStep_cases h
  · exact exec_keepsOrCompletes he
  · exact complete_keepsOrCompletes _ s
  · exact engineStep_keepsOrCompletes hs

theorem engineStep_idle {s : State} (h : s.eng.phase = .idle) : engineStep s = .next s := by
  rw [engineStep, h]

/-- A completion of a busy engine. -/
theorem statusChange_of_busy {s t : State} (h : KeepsOrCompletes s t) (hb : s.eng.busy = true) (first : Option Event)
    (k : Nat) : StatusChange first k s.eng t.eng := by
  obtain hst | ⟨hidle, err, hst⟩ := h
  · exact .inl hst
  · exact .inr (.inr (.inl ⟨hb, hidle, by rw [hst, statusBusy_completed], by rw [hst, statusDone_completed]⟩))

theorem engineStep_statusChange {s t : State} (hi : s.Inv) (h : engineStep s = .next t) (first : Option Event) (k : Nat) :
    StatusChange first k s.eng t.eng := by
  by_cases hp : s.eng.phase = .idle
  · rw [engineStep_idle hp] at h
    cases h
    exact .inl rfl
  · exact statusChange_of_busy (engineStep_keepsOrCompletes h) ((eng_inv hi).busy_phase.2 hp) first k

/-! ### Reset and register accesses -/

theorem reset_statusChange (s : State) (k : Nat) : StatusChange (some (.reset k)) k s.eng (resetEngine s).eng :=
  .inr (.inr (.inr ⟨by simp, by simp, rfl⟩))

theorem writeReg_statusChange {off : Nat} {v : Word} {s t : State} (h : writeReg off v s = .next t) (addr size : Nat)
    (w : Word) (k : Nat) : StatusChange (some (.regWrite addr size w)) k s.eng t.eng := by
  obtain ⟨-, hc⟩ | ⟨-, rfl⟩ | ⟨-, rfl⟩ | ⟨-, rfl⟩ := writeReg_cases h
  · obtain ⟨hb, -, -, -, rfl⟩ := writeCmd_cases hc
    exact .inr (.inl ⟨hb, by rw [acceptCmd_eng, latch_status]; decide, by simp, addr, size, w, rfl⟩)
  all_goals exact .inl rfl

theorem readReg_statusChange {off : Nat} {s t : State} (h : readReg off s = .next t) (first : Option Event) (k : Nat) :
    StatusChange first k s.eng t.eng := by
  obtain ⟨hv, rfl⟩ := readReg_eq h
  exact .inl rfl

/-! ### Events and steps -/

/-- STATUS of every engine changes as the event allows. -/
def StatusChanges (first : Option Event) (s t : State) : Prop :=
  ∀ (k : Nat) (e e' : Engine), s.engineAt k = some e → t.engineAt k = some e' → StatusChange first k e e'

/-- Where the engines are as they were, so is their STATUS. -/
theorem statusChanges_of_same {s t : State} (he : t.eng = s.eng) (ho : t.others = s.others) (first : Option Event) :
    StatusChanges first s t := by
  intro k e e' hk hk'
  rw [State.engineAt, he, ho] at hk'
  cases hk.symm.trans hk'
  exact .inl rfl

/-- An operation of engine n that leaves the others alone changes STATUS of that engine alone. -/
theorem withEngine_statusChanges {f : State → Host.Outcome State Fault Refusal} (hf : KeepsOthers f) {n : Nat} {s t : State}
    (ht : withEngine n f s = .next t) {first : Option Event}
    (hchange : ∀ u, f (focus n s) = .next u → StatusChange first n (focus n s).eng u.eng) : StatusChanges first s t := by
  obtain ⟨u, hn, hu, -, -, hat⟩ := withEngine_engineAt hf ht
  intro k e e' hk hk'
  rw [hat] at hk'
  by_cases hkn : k = n
  · subst hkn
    rw [if_pos rfl] at hk'
    cases hn.symm.trans hk
    cases hk'
    exact hchange u hu
  · rw [if_neg hkn] at hk'
    cases hk.symm.trans hk'
    exact .inl rfl

theorem runEngines_statusChanges {s t : State} (h : runEngines s = .next t) (first : Option Event) :
    StatusChanges first s t := by
  obtain ⟨k, hk, ht⟩ | ⟨-, rfl⟩ := runEngines_cases h
  · obtain ⟨-, hb, -⟩ := nextToRun_some hk
    exact withEngine_statusChanges autoStep_keepsOthers ht fun u hu =>
      statusChange_of_busy (autoStep_keepsOrCompletes hu) hb first k
  · exact statusChanges_of_same rfl rfl first

theorem hostRead_statusChanges {addr size : Nat} {s t : State} (h : hostRead addr size s = .next t)
    (first : Option Event) : StatusChanges first s t := by
  obtain ⟨k, off, -, -, hr⟩ := hostRead_cases h
  exact withEngine_statusChanges (readReg_keepsOthers off) hr fun u hu => readReg_statusChange hu first k

theorem handle_statusChanges {ev : Event} {s t : State} (hi : s.Inv) (h : handle ev s = .next t) :
    StatusChanges (some ev) s t := by
  cases ev with
  | engineStep k =>
    exact withEngine_statusChanges engineStep_keepsOthers h fun u hu => engineStep_statusChange (inv_focus hi k) hu _ k
  | reset k =>
    refine withEngine_statusChanges reset_keepsOthers h fun u hu => ?_
    cases hu
    exact reset_statusChange _ k
  | regWrite addr size v =>
    obtain ⟨k, off, -, -, hw⟩ := hostWrite_cases h
    exact withEngine_statusChanges (writeReg_keepsOthers off v) hw fun u hu => writeReg_statusChange hu addr size v k
  | regRead addr size => exact hostRead_statusChanges h _
  | wait base =>
    obtain ⟨u, hu, ⟨-, rfl⟩ | ⟨-, rfl⟩⟩ := hostWait_cases h
    · exact hostRead_statusChanges hu _
    · exact hostRead_statusChanges hu _
  | memWrite who addr v =>
    obtain ⟨a, -, -, -, rfl⟩ := agentWrite_cases h
    exact statusChanges_of_same rfl rfl _
  | memRead who addr =>
    obtain ⟨a, -, -, ⟨-, rfl⟩ | ⟨-, -, rfl⟩⟩ := agentRead_cases h
    all_goals exact statusChanges_of_same (by simp) (by simp) _
  | hostRelease | hostAcquire | hostDeviceOrder =>
    cases h
    exact statusChanges_of_same rfl rfl _

/-- Settles O51: only the engine that acts can show another STATUS, and a sequencer step completes, a CMD write is accepted,
and a reset clears. -/
theorem statusChangesOnlyAtCommandEnds : Obligations.StatusChangesOnlyAtCommandEnds := by
  unfold Obligations.StatusChangesOnlyAtCommandEnds
  intro s t k e e' hi h hk hk'
  unfold step at h
  cases ha : s.agenda with
  | cons ev rest =>
    rw [ha] at h
    exact handle_statusChanges (s := { s with agenda := rest }) (inv_congr hi rfl rfl rfl rfl rfl) h k e e' hk hk'
  | nil =>
    rw [ha] at h
    exact runEngines_statusChanges h _ k e e' hk hk'

end Sys2Proof.Proofs
end

section
/-! PROOF. The Lane Store's byte order (spec 20_memory.md R63): a lane as the weighted sum of its bytes, and loading and storing
inverse to each other. -/

namespace Sys2Proof.Proofs

open Sys2Proof Sys2Proof.Machine Sys2Proof.Laws

/-- The first n bytes of a lane put together, byte j at bits 8j + 7 to 8j (R63), byte by byte where `le64` has all eight. -/
def leBytes (b : Nat → Byte) : Nat → Lane
  | 0 => 0
  | n + 1 => leBytes b n ||| (b n).setWidth 64 <<< (8 * n)

theorem le64_eq_leBytes (b : Nat → Byte) : le64 b = leBytes b 8 := by
  simp [le64, leBytes]

/-- A byte moved up to its place in the lane. -/
theorem toNat_byte_shiftLeft (v : Byte) {n : Nat} (hn : n < 8) :
    (v.setWidth 64 <<< (8 * n)).toNat = 2 ^ (8 * n) * v.toNat := by
  have hlt : 2 ^ (8 * n) * v.toNat < 2 ^ 64 :=
    calc 2 ^ (8 * n) * v.toNat < 2 ^ (8 * n) * 2 ^ 8 := Nat.mul_lt_mul_of_pos_left v.isLt (Nat.two_pow_pos _)
      _ = 2 ^ (8 * n + 8) := (pow_add _ _ _).symm
      _ ≤ 2 ^ 64 := Nat.pow_le_pow_right (by decide) (by omega)
  rw [BitVec.toNat_shiftLeft, BitVec.toNat_setWidth_of_le (by decide), Nat.shiftLeft_eq, Nat.mul_comm, Nat.mod_eq_of_lt hlt]

/-- The bytes put together are their sum, byte j weighted 2^(8j), and stay below the next byte's weight. -/
theorem toNat_leBytes (b : Nat → Byte) {n : Nat} (hn : n ≤ 8) :
    (leBytes b n).toNat = ((List.range n).map fun j => 2 ^ (8 * j) * (b j).toNat).sum ∧
      (leBytes b n).toNat < 2 ^ (8 * n) := by
  induction n with
  | zero => simp [leBytes]
  | succ n ih =>
    obtain ⟨hsum, hlt⟩ := ih (by omega)
    have hor : (leBytes b (n + 1)).toNat = 2 ^ (8 * n) * (b n).toNat + (leBytes b n).toNat := by
      rw [leBytes, BitVec.toNat_or, toNat_byte_shiftLeft _ (by omega), Nat.two_pow_add_eq_or_of_lt hlt, Nat.or_comm]
    constructor
    · rw [hor, hsum, List.range_succ, List.map_append, List.sum_append, Nat.add_comm]
      simp
    · calc (leBytes b (n + 1)).toNat < 2 ^ (8 * n) * ((b n).toNat + 1) := by rw [hor, Nat.mul_succ]; omega
        _ ≤ 2 ^ (8 * n) * 2 ^ 8 := Nat.mul_le_mul_left _ (b n).isLt
        _ = 2 ^ (8 * (n + 1)) := (pow_add _ _ _).symm

/-- Bit r of byte j of the bytes put together. -/
theorem getLsbD_leBytes (b : Nat → Byte) (n : Nat) {j r : Nat} (hj : j < 8) (hr : r < 8) :
    (leBytes b n).getLsbD (8 * j + r) = (decide (j < n) && (b j).getLsbD r) := by
  induction n with
  | zero => simp [leBytes]
  | succ n ih =>
    rw [leBytes, BitVec.getLsbD_or, ih, BitVec.getLsbD_shiftLeft, BitVec.getLsbD_setWidth]
    obtain hlt | rfl | hgt := Nat.lt_trichotomy j n
    · simp [hlt, show j < n + 1 by omega, show 8 * j + r < 8 * n by omega]
    · simp [show 8 * j + r < 64 by omega, show r < 64 by omega]
    · have hpast : (b n).getLsbD (8 * j + r - 8 * n) = false := BitVec.getLsbD_of_ge _ _ (by omega)
      simp [hpast, show ¬j < n by omega, show ¬j < n + 1 by omega]

theorem getLsbD_le64 (b : Nat → Byte) {j r : Nat} (hj : j < 8) (hr : r < 8) :
    (le64 b).getLsbD (8 * j + r) = (b j).getLsbD r := by
  rw [le64_eq_leBytes, getLsbD_leBytes b 8 hj hr, decide_eq_true hj, Bool.true_and]

/-- Byte j of a lane put together from bytes is byte j. -/
theorem extractLsb'_le64 (b : Nat → Byte) {j : Nat} (hj : j < 8) : (le64 b).extractLsb' (8 * j) 8 = b j := by
  apply BitVec.eq_of_getLsbD_eq
  intro r hr
  rw [BitVec.getLsbD_extractLsb', getLsbD_le64 b hj hr, decide_eq_true hr, Bool.true_and]

/-- A lane is what its bytes put together give. -/
theorem le64_extractLsb' (v : Lane) : (le64 fun j => v.extractLsb' (8 * j) 8) = v := by
  apply BitVec.eq_of_getLsbD_eq
  intro i hi
  have hr : i % 8 < 8 := Nat.mod_lt _ (by decide)
  rw [← Nat.div_add_mod i 8, getLsbD_le64 _ (by omega) hr, BitVec.getLsbD_extractLsb', decide_eq_true hr, Bool.true_and]

/-- Storing gives back the bytes loaded. -/
theorem laneByte_lanesFromBytes (s : Nat → Byte) {k : Nat} (hk : k < 200) : laneByte (lanesFromBytes s) k = s k := by
  have hlane : k / 8 % 5 % 5 + 5 * (k / 8 / 5 % 5) = k / 8 := by omega
  rw [laneByte, lanesFromBytes, lane_lanesOf, hlane, extractLsb'_le64 _ (Nat.mod_lt _ (by decide)), Nat.div_add_mod]

/-- Loading gives back the lanes stored. -/
theorem lanesFromBytes_laneByte (A : Lanes) : lanesFromBytes (laneByte A) = A := by
  apply lanes_ext
  intro x y hx hy
  rw [lanesFromBytes, lane_lanesOf, ← le64_extractLsb' (lane A x y)]
  refine le64_congr fun j hj => ?_
  have hlane : (8 * (x % 5 + 5 * (y % 5)) + j) / 8 = x + 5 * y := by omega
  have hbyte : (8 * (x % 5 + 5 * (y % 5)) + j) % 8 = j := by omega
  rw [laneByte, hlane, hbyte, Nat.add_mul_mod_self_left, Nat.mod_eq_of_lt hx, show (x + 5 * y) / 5 = y by omega]

/-- Settles O30: a lane's value is the sum of its bytes put together, and loading and storing take the same bits to the same
places. -/
theorem laneStoreIsLittleEndian : Obligations.LaneStoreIsLittleEndian := by
  unfold Obligations.LaneStoreIsLittleEndian
  refine ⟨fun s x y hx hy => ?_, fun s k hk => laneByte_lanesFromBytes s hk, lanesFromBytes_laneByte⟩
  rw [lanesFromBytes, lane_lanesOf, Nat.mod_eq_of_lt hx, Nat.mod_eq_of_lt hy, le64_eq_leBytes]
  exact (toNat_leBytes _ (Nat.le_refl 8)).1

end Sys2Proof.Proofs
end

section
/-! PROOF. What a command does with memory (spec 20_memory.md R66, R67, R69, R75, 42_commands.md R188): its transaction written out
case by case, the bytes it reads, and what it leaves unchanged. -/

namespace Sys2Proof.Proofs

open Sys2Proof Sys2Proof.Machine Sys2Proof.Laws

/-! ### The transaction case by case -/

/-- The state a LOAD whose accesses all succeed ends in (42_commands.md R184). -/
def loaded (n : Nat) (s : State) : State :=
  { popBus s with
    eng := { (popBus s).eng with
      lanes := lanesFromBytes (loadByte s.others s.mem s.draws s.eng.spAddr s.eng.ipAddr n)
      round := 0
      phase := .round }
    draws := s.draws + 2 }

theorem exec_of_wf {i : Instr} (h : i.wf = true) (s : State) : exec i s = runCommand (instrInLen i) s := by
  cases i with
  | permute => rfl
  | absorb len => exact if_neg (by simpa [Instr.wf] using h)

theorem exec_of_not_wf {i : Instr} (h : i.wf = false) (s : State) : exec i s = .next (complete .length s) := by
  cases i with
  | permute => cases h
  | absorb len => exact if_pos (by simpa [Instr.wf] using h)

section Transaction

variable {n : Nat} {s : State}

theorem runCommand_of_range (hr : rangeFails s.params.aw s.eng.spAddr s.eng.ipAddr n = true) :
    runCommand n s = .next (complete .range s) := if_pos hr

variable (hr : rangeFails s.params.aw s.eng.spAddr s.eng.ipAddr n = false)
include hr

theorem runCommand_of_device (hd : touchesDevice s.params s.eng.spAddr s.eng.ipAddr n = true) :
    runCommand n s = .refused .deviceMemory := by
  simp [runCommand, loadPhase, hr, hd]

variable (hd : touchesDevice s.params s.eng.spAddr s.eng.ipAddr n = false)
include hd

theorem runCommand_of_hang (hb : busReply s.params s.eng.bus = .hang) :
    runCommand n s = .next { s with eng := { s.eng with phase := .load } } := by
  simp [runCommand, loadPhase, hr, hd, hb]

theorem runCommand_of_error (hb : busReply s.params s.eng.bus = .error) :
    runCommand n s = .next (completeRun .bus (popBus s)) := by
  simp [runCommand, loadPhase, hr, hd, hb]

theorem runCommand_of_ok (hb : busReply s.params s.eng.bus = .ok) :
    runCommand n s = storePhase (roundPhase (loaded n s)) := by
  simp [runCommand, loadPhase, hr, hd, hb, loaded]

end Transaction

theorem storePhase_of_races {s : State} (h : storeRaces s.others s.eng.spAddr = true) :
    storePhase s = .refused .racingWrite := if_pos h

/-- A STORE whose accesses all succeed (42_commands.md R186). -/
theorem storePhase_of_ok {s : State} (h : storeRaces s.others s.eng.spAddr = false)
    (hb : busReply s.params s.eng.bus = .ok) :
    storePhase s = .next (completeRun .noError (recordResult { popBus s with
      mem := storeLanes s.mem s.eng.spAddr s.eng.lanes })) := by
  simp [storePhase, h, hb]

/-- Settles O18: LOAD checks S and IN for device bytes, and STORE checks S for bytes of other busy engines. -/
theorem deviceAndRacingBuffersRefused : Obligations.DeviceAndRacingBuffersRefused := by
  unfold Obligations.DeviceAndRacingBuffersRefused
  refine ⟨fun s i hw hr hdev => ?_, fun s i hw hr hdev hb hrace => ?_⟩
  · rw [exec_of_wf hw]
    exact runCommand_of_device hr (touchesDevice_iff.2 hdev)
  · have hd : touchesDevice s.params s.eng.spAddr s.eng.ipAddr (instrInLen i) = false := by
      rw [Bool.eq_false_iff, Ne, touchesDevice_iff]
      rintro ⟨d, hmem, a, hlo, hhi, hown⟩
      exact hown.elim (hdev d hmem a hlo hhi).1 (hdev d hmem a hlo hhi).2
    rw [exec_of_wf hw, runCommand_of_ok hr hd hb]
    exact storePhase_of_races (storeRaces_iff.2 hrace)

/-! ### A command nothing keeps from running -/

/-- Byte j of S with input byte j XORed in for j < n, as memory holds them (42_commands.md R181). -/
def absorbedByte (n : Nat) (s : State) (j : Nat) : Byte :=
  if j < n then s.stateByte j ^^^ s.inputByte j else s.stateByte j

/-- Where no other busy engine owns a byte of S or IN, LOAD reads them as memory holds them. -/
theorem loadByte_of_clear {n : Nat} {s : State} (h : s.Clear n) {k : Nat} (hk : k < 200) :
    loadByte s.others s.mem s.draws s.eng.spAddr s.eng.ipAddr n k = absorbedByte n s k := by
  have hstate : ∀ d, portRead s.others s.mem d (s.eng.spAddr + k) = s.stateByte k := by
    refine portRead_eq (fun e he => ?_) s.mem
    by_contra hown
    exact Bool.eq_false_iff.1 h.store
      (storeRaces_iff.2 ⟨e, he, s.eng.spAddr + k, by omega, by omega, .inl (by simpa using hown)⟩)
  have hinput : k < n → ∀ d, portRead s.others s.mem d (s.eng.ipAddr + k) = s.inputByte k := by
    refine fun hkn => portRead_eq (fun e he => ?_) s.mem
    by_contra hown
    obtain ⟨hbusy, hin⟩ : e.busy = true ∧ inRange (s.eng.ipAddr + k) e.spAddr 200 = true := by
      simpa [Engine.ownsState] using hown
    exact Bool.eq_false_iff.1 (h.input e he hbusy)
      (rangesOverlap_iff_exists.2 ⟨s.eng.ipAddr + k, by omega, inRange_iff.1 hin⟩)
  unfold loadByte absorbedByte
  split
  next hkn => rw [hstate, hinput hkn]
  next => rw [hstate]

/-- The transaction from start to end: S holds F of the lanes loaded (42_commands.md R180, R181). -/
theorem runCommand_of_clear {n : Nat} {s : State} (h : s.Clear n) :
    runCommand n s = .next (completeRun .noError (recordResult { popBus (roundPhase (loaded n s)) with
      mem := storeLanes s.mem s.eng.spAddr (keccakF (lanesFromBytes (absorbedByte n s))) })) := by
  have hlanes : (loaded n s).eng.lanes = lanesFromBytes (absorbedByte n s) :=
    lanesFromBytes_congr fun k hk => loadByte_of_clear h hk
  rw [runCommand_of_ok h.range h.device h.bus_load, storePhase_of_ok (s := roundPhase (loaded n s)) h.store h.bus_store,
    roundPhase_eng_lanes, hlanes]
  rfl

/-- Settles O10: where IN is S, an input byte XORed into its state byte is XORed into itself. -/
theorem absorbOwnStateZeroesInput : Obligations.AbsorbOwnStateZeroesInput := by
  unfold Obligations.AbsorbOwnStateZeroesInput
  intro s len hm hlen hclear hown
  refine ⟨_, (exec_of_wf (by simpa [Instr.wf] using hlen) s).trans (runCommand_of_clear hclear), fun k hk => ?_⟩
  have hzero : absorbedByte len.toNat s = fun j => if j < len.toNat then 0 else s.stateByte j := by
    funext j
    simp [absorbedByte, State.stateByte, State.inputByte, Engine.spAddr, Engine.ipAddr, hown]
  rw [completeRun_mem, recordResult_mem, memRead_storeLanes hm, if_pos (by omega), Nat.add_sub_cancel_left, ← hzero]
  rfl

/-! ### The frame of a command -/

/-- Every way a command can end in a next state: an error before LOAD, LOAD's stall or bus error, or STORE's end. -/
theorem exec_ends {i : Instr} {s t : State} (h : exec i s = .next t) :
    (∃ err, t = complete err s) ∨ t = { s with eng := { s.eng with phase := .load } } ∨
      t = completeRun .bus (popBus s) ∨ storePhase (roundPhase (loaded (instrInLen i) s)) = .next t := by
  obtain ⟨-, rfl⟩ | ⟨-, hrun⟩ := exec_cases h
  · exact .inl ⟨_, rfl⟩
  obtain ⟨-, rfl⟩ | ⟨-, ⟨hl, hp⟩ | ⟨u, hl, hp, hst⟩⟩ := runCommand_cases hrun
  · exact .inl ⟨_, rfl⟩
  · obtain ⟨-, ⟨-, rfl⟩ | ⟨-, rfl⟩ | ⟨-, rfl⟩⟩ := loadPhase_cases hl
    · exact .inr (.inl rfl)
    · exact .inr (.inr (.inl rfl))
    · exact absurd rfl hp
  · obtain ⟨-, ⟨-, rfl⟩ | ⟨-, rfl⟩ | ⟨-, rfl⟩⟩ := loadPhase_cases hl
    · cases hp
    · simp at hp
    · exact .inr (.inr (.inr hst))

/-- What of the acting engine, the platform and the host's record no command writes. -/
def untouched (s : State) :=
  (s.eng.statePtr, s.eng.inPtr, s.eng.statePtrWritten, s.eng.inPtrWritten, s.eng.base, s.others, s.params, s.agenda,
    s.host.unreleased, s.host.unordered, s.host.readData)

/-- A command that began in s leaves t: the parts of the statement `Obligations.CommandFrame`. -/
structure Framed (s t : State) : Prop where
  mem : ∀ a, inRange a s.eng.spAddr 200 = false → memRead t.mem a = memRead s.mem a
  untouched : untouched t = untouched s
  results : t.host.results = s.host.results ∨ t.host.results = (recordResult s).host.results
  faultLog : ∃ l, t.faultLog = s.faultLog ++ l ∧ l.length ≤ 1
  bus : ∃ l, s.eng.bus = l ++ t.eng.bus ∧ l.length ≤ 2

/-- A completion logs its code where that is an error (60_exceptions.md R220). -/
theorem complete_logs (err : ErrCode) (log : List ErrCode) :
    ∃ l, (if err = .noError then log else log ++ [err]) = log ++ l ∧ l.length ≤ 1 := by
  split
  · exact ⟨[], by simp⟩
  · exact ⟨[err], by simp⟩

/-- An answer used up is the first of the list, if there is one. -/
theorem tail_uses_one {α : Type} (l : List α) : ∃ p, l = p ++ l.tail ∧ p.length ≤ 1 :=
  ⟨l.take 1, by cases l <;> simp, by simp⟩

theorem framed_complete (err : ErrCode) (s : State) : Framed s (complete err s) where
  mem _ _ := rfl
  untouched := rfl
  results := .inl rfl
  faultLog := by rw [complete_faultLog]; exact complete_logs err s.faultLog
  bus := ⟨[], rfl, by simp⟩

theorem framed_loadHang (s : State) : Framed s { s with eng := { s.eng with phase := .load } } where
  mem _ _ := rfl
  untouched := rfl
  results := .inl rfl
  faultLog := ⟨[], by simp⟩
  bus := ⟨[], rfl, by simp⟩

theorem framed_loadError (s : State) : Framed s (completeRun .bus (popBus s)) where
  mem _ _ := rfl
  untouched := rfl
  results := .inl rfl
  faultLog := ⟨[.bus], rfl, by simp⟩
  bus := by
    obtain ⟨p, hp, hl⟩ := tail_uses_one s.eng.bus
    exact ⟨p, hp, by omega⟩

/-- A completion from STORE, of a memory that is as before outside S. -/
theorem framed_stored {s : State} {m : List Host.Cell}
    (hm : ∀ a, inRange a s.eng.spAddr 200 = false → memRead m a = memRead s.mem a) (err : ErrCode) (n d : Nat) :
    Framed s (completeRun err (recordResult { popBus (roundPhase (loaded n s)) with mem := m, draws := d })) where
  mem := hm
  untouched := by simp [untouched, loaded]
  results := .inr rfl
  faultLog := by
    rw [completeRun_faultLog]
    exact complete_logs err s.faultLog
  bus := by
    obtain ⟨p, hp, hpl⟩ := tail_uses_one s.eng.bus
    obtain ⟨q, hq, hql⟩ := tail_uses_one s.eng.bus.tail
    have hbus : s.eng.bus = (p ++ q) ++ s.eng.bus.tail.tail := by rw [List.append_assoc, ← hq, ← hp]
    exact ⟨p ++ q, hbus, by rw [List.length_append]; omega⟩

/-- STORE stalls with LOAD's answer used up, or writes S alone, with lanes or with free values, and completes. -/
theorem framed_store {n : Nat} {s t : State} (hm : memWf s.mem) (h : storePhase (roundPhase (loaded n s)) = .next t) :
    Framed s t := by
  obtain ⟨-, ⟨-, rfl⟩ | ⟨-, rfl⟩ | ⟨-, rfl⟩⟩ := storePhase_cases h
  · obtain ⟨p, hp, hl⟩ := tail_uses_one s.eng.bus
    exact
      { mem := fun _ _ => rfl
        untouched := rfl
        results := .inl rfl
        faultLog := ⟨[], by simp [loaded]⟩
        bus := ⟨p, hp, by omega⟩ }
  · refine framed_stored (fun a ha => ?_) .bus n _
    have hout : ¬(s.eng.spAddr ≤ a ∧ a < s.eng.spAddr + 200 ∧ a < 2 ^ s.params.aw) := fun hin =>
      inRange_false_iff.1 ha ⟨hin.1, hin.2.1⟩
    exact (memRead_freeState hm _ _ _ a).trans (if_neg hout)
  · refine framed_stored (fun a ha => ?_) .noError n _
    exact (memRead_storeLanes hm _ _ a).trans (if_neg (inRange_false_iff.1 ha))

theorem exec_framed {i : Instr} {s t : State} (hm : memWf s.mem) (h : exec i s = .next t) : Framed s t := by
  obtain ⟨err, rfl⟩ | rfl | rfl | hst := exec_ends h
  · exact framed_complete err s
  · exact framed_loadHang s
  · exact framed_loadError s
  · exact framed_store hm hst

/-- Settles O19: each of a command's ends is in the frame. -/
theorem commandFrame : Obligations.CommandFrame := by
  unfold Obligations.CommandFrame
  intro i s t hm h
  obtain ⟨hmem, huntouched, hresults, hlog, hbus⟩ := exec_framed hm h
  simp only [untouched, Prod.mk.injEq] at huntouched
  obtain ⟨hsp, hip, hspw, hipw, hbase, hothers, hparams, hagenda, hrel, hord, hread⟩ := huntouched
  exact ⟨hmem, hsp, hip, hspw, hipw, hbase, hothers, hparams, hagenda, hrel, hord, hread, hresults, hlog, hbus⟩

/-! ### The bytes a command reads -/

/-- What a command that has S at `sp` leaves of the acting engine, the log and S. -/
def footprint (sp : Nat) (t : State) : Engine × List ErrCode × List Byte :=
  (t.eng, t.faultLog, (List.range 200).map fun k => memRead t.mem (sp + k))

theorem footprint_congr {sp : Nat} {t u : State} (he : t.eng = u.eng) (hl : t.faultLog = u.faultLog)
    (hm : ∀ k, k < 200 → memRead t.mem (sp + k) = memRead u.mem (sp + k)) : footprint sp t = footprint sp u := by
  have hbytes : ((List.range 200).map fun k => memRead t.mem (sp + k)) =
      (List.range 200).map fun k => memRead u.mem (sp + k) :=
    List.map_congr_left fun k hk => hm k (List.mem_range.1 hk)
  simp only [footprint, he, hl, hbytes]

theorem portRead_congr {m m' : List Host.Cell} {a : Nat} (h : memRead m a = memRead m' a) (others : List Engine) (d : Nat) :
    portRead others m d a = portRead others m' d a := by
  simp only [portRead, h]

/-- LOAD reads S and the n bytes of IN, and no other byte (R66). -/
theorem loadByte_congr {m m' : List Host.Cell} {sp ip n k : Nat} (hs : memRead m (sp + k) = memRead m' (sp + k))
    (hi : k < n → memRead m (ip + k) = memRead m' (ip + k)) (others : List Engine) (d : Nat) :
    loadByte others m d sp ip n k = loadByte others m' d sp ip n k := by
  unfold loadByte
  split
  next hk => rw [portRead_congr hs, portRead_congr (hi hk)]
  next => rw [portRead_congr hs]

section Memories

variable {s : State} {m : List Host.Cell} (hs : memWf s.mem) (hm : memWf m)
  (hS : ∀ k, k < 200 → memRead s.mem (s.eng.spAddr + k) = memRead m (s.eng.spAddr + k))
include hS

theorem loaded_setMem {n : Nat} (hI : ∀ k, k < n → memRead s.mem (s.eng.ipAddr + k) = memRead m (s.eng.ipAddr + k)) :
    loaded n { s with mem := m } = { loaded n s with mem := m } := by
  have hlanes : lanesFromBytes (loadByte s.others s.mem s.draws s.eng.spAddr s.eng.ipAddr n) =
      lanesFromBytes (loadByte s.others m s.draws s.eng.spAddr s.eng.ipAddr n) :=
    lanesFromBytes_congr fun k hk => loadByte_congr (hS k hk) (hI k) _ _
  simp only [loaded, popBus, hlanes]

include hs hm

/-- STORE from two memories that agree in S gives two memories that do. -/
theorem storePhase_footprint :
    outcomesAgree (footprint s.eng.spAddr) (storePhase s) (storePhase { s with mem := m }) := by
  unfold storePhase
  cases storeRaces s.others s.eng.spAddr with
  | true => rfl
  | false =>
    cases busReply s.params s.eng.bus with
    | hang => exact footprint_congr rfl rfl hS
    | error =>
      refine footprint_congr rfl rfl fun k hk => ?_
      simp only [completeRun_mem, recordResult_mem, memRead_freeState hs, memRead_freeState hm, hS k hk]
    | ok =>
      refine footprint_congr rfl rfl fun k hk => ?_
      simp only [completeRun_mem, recordResult_mem, memRead_storeLanes hs, memRead_storeLanes hm, hS k hk]

/-- A transaction from two memories that agree in S and in its n input bytes. -/
theorem runCommand_footprint {n : Nat}
    (hI : ∀ k, k < n → memRead s.mem (s.eng.ipAddr + k) = memRead m (s.eng.ipAddr + k)) :
    outcomesAgree (footprint s.eng.spAddr) (runCommand n s) (runCommand n { s with mem := m }) := by
  cases hr : rangeFails s.params.aw s.eng.spAddr s.eng.ipAddr n with
  | true =>
    rw [runCommand_of_range hr, runCommand_of_range (s := { s with mem := m }) hr]
    exact footprint_congr rfl rfl hS
  | false =>
    cases hd : touchesDevice s.params s.eng.spAddr s.eng.ipAddr n with
    | true =>
      rw [runCommand_of_device hr hd, runCommand_of_device (s := { s with mem := m }) hr hd]
      rfl
    | false =>
      cases hb : busReply s.params s.eng.bus with
      | hang =>
        rw [runCommand_of_hang hr hd hb, runCommand_of_hang (s := { s with mem := m }) hr hd hb]
        exact footprint_congr rfl rfl hS
      | error =>
        rw [runCommand_of_error hr hd hb, runCommand_of_error (s := { s with mem := m }) hr hd hb]
        exact footprint_congr rfl rfl hS
      | ok =>
        rw [runCommand_of_ok hr hd hb, runCommand_of_ok (s := { s with mem := m }) hr hd hb, loaded_setMem hS hI]
        exact storePhase_footprint (s := roundPhase (loaded n s)) hs hm hS

end Memories

/-- Settles O20: LOAD reads S and IN alone, and STORE writes S with what LOAD read or with free values. -/
theorem onlyFootprintMatters : Obligations.OnlyFootprintMatters := by
  unfold Obligations.OnlyFootprintMatters
  intro i s m hs hm hagree
  have hS : ∀ k, k < 200 → memRead s.mem (s.eng.spAddr + k) = memRead m (s.eng.spAddr + k) := fun k hk =>
    (hagree _ (.inl (inRange_iff.2 (by omega)))).symm
  have hI : ∀ k, k < instrInLen i → memRead s.mem (s.eng.ipAddr + k) = memRead m (s.eng.ipAddr + k) := fun k hk =>
    (hagree _ (.inr (inRange_iff.2 (by omega)))).symm
  cases hw : i.wf with
  | false =>
    rw [exec_of_not_wf hw, exec_of_not_wf hw]
    exact footprint_congr (sp := s.eng.spAddr) rfl rfl hS
  | true =>
    rw [exec_of_wf hw, exec_of_wf hw]
    exact runCommand_footprint hs hm hS hI

end Sys2Proof.Proofs
end

section
/-! PROOF. The host and the other agents at memory (spec 20_memory.md R72, R73, R75, 70_reset_and_hazards.md R245, R247): races,
the results a STATUS read and the primitives make visible, and the release a CMD write needs. -/

namespace Sys2Proof.Proofs

open Sys2Proof Sys2Proof.Machine Sys2Proof.Laws

/-! ### An agent's access to a byte of memory -/

theorem unseenResult_iff {s : State} {a : Nat} :
    unseenResult s a = true ↔ ∃ r ∈ s.host.results, r.seen = false ∧ a ∈ r.bytes := by
  simp [unseenResult]

theorem unacquiredResult_iff {s : State} {a : Nat} :
    unacquiredResult s a = true ↔ ∃ r ∈ s.host.results, r.seen = true ∧ a ∈ r.bytes := by
  simp [unacquiredResult]

section Access

variable {s : State} {who : Agent} {addr a : Nat} (ha : agentAddr s.params who addr = some a)
  (hd : isDevice s.params a = false)
include ha hd

/-- A write to a byte of S or IN of a busy engine is a race (R75). -/
theorem agentWrite_of_owned {e : Engine} (he : e ∈ s.eng :: s.others) (h : e.ownsState a = true ∨ e.ownsInput a = true)
    (v : Byte) : agentWrite who addr v s = .refused .racingWrite := by
  have hany : (s.eng :: s.others).any (fun e => e.ownsState a || e.ownsInput a) = true :=
    List.any_eq_true.2 ⟨e, he, by simpa using h⟩
  simp only [agentWrite, ha, hd, hany, if_true, Bool.false_eq_true, if_false]

/-- A read of a byte of S of a busy engine is a draw (R75). -/
theorem agentRead_of_owned {e : Engine} (he : e ∈ s.eng :: s.others) (h : e.ownsState a = true) :
    agentRead who addr s =
      .next { returnRead ((Config.freeByte s.draws a).setWidth 64) s with draws := s.draws + 1 } := by
  have hany : (s.eng :: s.others).any (fun e => e.ownsState a) = true := List.any_eq_true.2 ⟨e, he, h⟩
  simp only [agentRead, ha, hd, hany, if_true, Bool.false_eq_true, if_false]

variable (hfree : ∀ e ∈ s.eng :: s.others, e.ownsState a = false)
include hfree

/-- A read of a byte of no busy engine's S returns memory, for the host where no result not ordered holds it (R72). -/
theorem agentRead_of_free (hr : who = .host → ∀ r ∈ s.host.results, a ∉ r.bytes) :
    agentRead who addr s = .next (returnRead ((memRead s.mem a).setWidth 64) s) := by
  have hany : (s.eng :: s.others).any (fun e => e.ownsState a) = false := List.any_eq_false.2 (by simpa using hfree)
  have hunseen : ¬(who = .host ∧ unseenResult s a = true) := fun ⟨hw, hu⟩ => by
    obtain ⟨r, hmem, -, hin⟩ := unseenResult_iff.1 hu
    exact hr hw r hmem hin
  have hunacquired : ¬(who = .host ∧ unacquiredResult s a = true) := fun ⟨hw, hu⟩ => by
    obtain ⟨r, hmem, -, hin⟩ := unacquiredResult_iff.1 hu
    exact hr hw r hmem hin
  simp only [agentRead, ha, hd, hany, if_neg hunseen, if_neg hunacquired, Bool.false_eq_true, if_false]

/-- The host's read of a result seen complete waits for HOST_ACQUIRE (R72). -/
theorem agentRead_of_unacquired (hw : who = .host) (hseen : ∀ r ∈ s.host.results, a ∈ r.bytes → r.seen = true)
    (hr : ∃ r ∈ s.host.results, a ∈ r.bytes) : agentRead who addr s = .refused .missingAcquire := by
  have hany : (s.eng :: s.others).any (fun e => e.ownsState a) = false := List.any_eq_false.2 (by simpa using hfree)
  have hunseen : ¬(who = .host ∧ unseenResult s a = true) := fun ⟨_, hu⟩ => by
    obtain ⟨r, hmem, hnot, hin⟩ := unseenResult_iff.1 hu
    exact absurd (hseen r hmem hin) (ne_true_of_eq_false hnot)
  have hunacquired : who = .host ∧ unacquiredResult s a = true := by
    obtain ⟨r, hmem, hin⟩ := hr
    exact ⟨hw, unacquiredResult_iff.2 ⟨r, hmem, hseen r hmem hin, hin⟩⟩
  simp only [agentRead, ha, hd, hany, if_neg hunseen, if_pos hunacquired, Bool.false_eq_true, if_false]

end Access

/-- Settles O47: an access to a byte a busy engine owns, one kind at a time. -/
theorem racesRefusedOrDrawn : Obligations.RacesRefusedOrDrawn := by
  unfold Obligations.RacesRefusedOrDrawn
  intro s e who addr a he ha hd
  refine ⟨fun v h => agentWrite_of_owned ha hd he h v, fun h => ⟨_, agentRead_of_owned ha hd he h, ?_⟩, fun _ hfree hr =>
    ⟨_, agentRead_of_free ha hd hfree hr, by simp⟩⟩
  simp [returnRead]

/-! ### Results not ordered yet -/

section Fields

variable (s : State)

@[simp] theorem seeDone_params : (seeDone s).params = s.params := by unfold seeDone; split <;> rfl
@[simp] theorem seeDone_eng : (seeDone s).eng = s.eng := by unfold seeDone; split <;> rfl
@[simp] theorem seeDone_others : (seeDone s).others = s.others := by unfold seeDone; split <;> rfl
@[simp] theorem seeDone_mem : (seeDone s).mem = s.mem := by unfold seeDone; split <;> rfl

@[simp] theorem acquireResults_params : (acquireResults s).params = s.params := rfl
@[simp] theorem acquireResults_eng : (acquireResults s).eng = s.eng := rfl
@[simp] theorem acquireResults_others : (acquireResults s).others = s.others := rfl
@[simp] theorem acquireResults_mem : (acquireResults s).mem = s.mem := rfl

end Fields

theorem mem_acquireResults {s : State} {r : HostResult} :
    r ∈ (acquireResults s).host.results ↔ r ∈ s.host.results ∧ r.seen = false := by
  simp [acquireResults]

/-- Once the host has read DONE = 1, a result of that engine is gone, or waits for HOST_ACQUIRE where that is needed (R72). -/
theorem mem_seeDone {s : State} {r : HostResult} (hdone : statusDone s.eng.status = true)
    (hr : r ∈ (seeDone s).host.results) :
    (r ∈ s.host.results ∧ r.base ≠ s.eng.base) ∨ (s.params.hostAcquire = true ∧ r.seen = true) := by
  cases hq : s.params.hostAcquire with
  | false => exact .inl (by simpa [seeDone, hdone, hq] using hr)
  | true =>
    obtain ⟨q, hmem, rfl⟩ : ∃ q ∈ s.host.results, (if q.base = s.eng.base then { q with seen := true } else q) = r := by
      simpa [seeDone, hdone, hq] using hr
    split
    next => exact .inr ⟨rfl, rfl⟩
    next hother => exact .inl ⟨hmem, hother⟩

section Results

variable {s : State} {addr a : Nat} (ha : agentAddr s.params .host addr = some a) (hd : isDevice s.params a = false)
  (hfree : ∀ e ∈ s.eng :: s.others, e.ownsState a = false) (hdone : statusDone s.eng.status = true)
  (hown : ∀ r ∈ s.host.results, a ∈ r.bytes → r.base = s.eng.base) (v : Word)
include ha hd hfree hdone hown

/-- After the STATUS read and HOST_ACQUIRE the host reads memory where no other engine's result holds the byte. -/
theorem agentRead_of_acquired : agentRead .host addr (acquireResults (returnRead v (seeDone s))) =
    .next (returnRead ((memRead s.mem a).setWidth 64) (acquireResults (returnRead v (seeDone s)))) := by
  rw [agentRead_of_free (by simpa using ha) (by simpa using hd) (by simpa using hfree), acquireResults_mem, returnRead_mem,
    seeDone_mem]
  intro _ r hr hin
  obtain ⟨hr, hunseen⟩ := mem_acquireResults.1 hr
  obtain ⟨hmem, hother⟩ | ⟨-, hseen⟩ := mem_seeDone hdone hr
  · exact hother (hown r hmem hin)
  · exact absurd hseen (ne_true_of_eq_false hunseen)

/-- After the STATUS read the host reads memory on a platform that needs no HOST_ACQUIRE. -/
theorem agentRead_of_seen (hq : s.params.hostAcquire = false) : agentRead .host addr (returnRead v (seeDone s)) =
    .next (returnRead ((memRead s.mem a).setWidth 64) (returnRead v (seeDone s))) := by
  rw [agentRead_of_free (by simpa using ha) (by simpa using hd) (by simpa using hfree), returnRead_mem, seeDone_mem]
  intro _ r hr hin
  obtain ⟨hmem, hother⟩ | ⟨hneeds, -⟩ := mem_seeDone hdone hr
  · exact hother (hown r hmem hin)
  · exact absurd hneeds (ne_true_of_eq_false hq)

end Results

/-- A STATUS read that the host ordered after its CMD writes, where the platform needs that (70_reset_and_hazards.md R247). -/
theorem readReg_status_of_ordered {s : State} (h : s.params.hostDeviceOrder = true → s.host.unordered = []) :
    readReg 0x08 s = .next (returnRead s.eng.status (seeDone s)) := by
  refine readReg_status ?_
  cases hq : s.params.hostDeviceOrder with
  | false => rfl
  | true => rw [h hq]; rfl

/-- Settles O48: the STATUS read and HOST_ACQUIRE take the engine's results from the record. -/
theorem doneReadMakesResultVisible : Obligations.DoneReadMakesResultVisible := by
  unfold Obligations.DoneReadMakesResultVisible
  intro s addr a hdone hordered ha hd hfree hown
  exact ⟨_, _, readReg_status_of_ordered hordered, agentRead_of_acquired ha hd hfree hdone hown _, rfl⟩

theorem engineStep_of_store {s : State} (h : s.eng.phase = .store) : engineStep s = storePhase s := by
  simp only [engineStep, h]

/-- An engine that has completed owns no S. -/
theorem ownsState_completed {e : Engine} {err : ErrCode} (h : e.status = mkStatus false true (errCode err)) (a : Nat) :
    e.ownsState a = false := by
  simp [Engine.ownsState, Engine.busy, h]

/-- A STORE whose accesses all succeed leaves the lanes' bytes in S, DONE alone, and its own record as the only one of S. -/
theorem engineStep_stores {s : State} (hm : memWf s.mem) (hp : s.eng.phase = .store)
    (hrace : storeRaces s.others s.eng.spAddr = false) (hb : busReply s.params s.eng.bus = .ok) :
    ∃ t, engineStep s = .next t ∧ t.params = s.params ∧ t.others = s.others ∧ t.host.unordered = s.host.unordered ∧
      t.eng.status = mkStatus false true (errCode .noError) ∧
      (∀ k, k < 200 → memRead t.mem (s.eng.spAddr + k) = laneByte s.eng.lanes k) ∧
      ∀ k, k < 200 → ∀ r ∈ t.host.results, s.eng.spAddr + k ∈ r.bytes → r.base = t.eng.base := by
  refine ⟨_, (engineStep_of_store hp).trans (storePhase_of_ok hrace hb), by simp, by simp, by simp, by simp, fun k hk => ?_,
    fun k hk r hr hin => ?_⟩
  · rw [completeRun_mem, recordResult_mem, memRead_storeLanes hm, if_pos (by omega), Nat.add_sub_cancel_left]
  · rw [completeRun_host] at hr
    rw [completeRun_eng_base, recordResult_eng]
    exact recordResult_base hr hin (inRange_iff.2 ⟨Nat.le_add_right _ _, Nat.add_lt_add_left hk _⟩)

/-- Settles O59: a completed STORE shows DONE, owns no byte any more, and its record is the only one of its bytes. -/
theorem storedResultReachesHost : Obligations.StoredResultReachesHost := by
  unfold Obligations.StoredResultReachesHost
  intro s addr k hm hp hrace hb hordered hk ha hd hothers
  obtain ⟨t, hstep, hparams, hoth, hunordered, hstatus, hbyte, hown⟩ := engineStep_stores hm hp hrace hb
  have hdone : statusDone t.eng.status = true := by rw [hstatus, statusDone_completed]
  have hfree : ∀ e ∈ t.eng :: t.others, e.ownsState (s.eng.spAddr + k) = false :=
    List.forall_mem_cons.2 ⟨ownsState_completed hstatus _, hoth ▸ hothers⟩
  rw [← hparams] at hordered ha hd ⊢
  rw [← hunordered] at hordered
  refine ⟨t, _, hstep, readReg_status_of_ordered hordered, hstatus, ?_, fun hq => ?_⟩
  · exact ⟨_, agentRead_of_acquired ha hd hfree hdone (hown k hk) _, by rw [returnRead_readData, hbyte k hk]⟩
  · exact ⟨_, agentRead_of_seen ha hd hfree hdone (hown k hk) _ hq, by rw [returnRead_readData, hbyte k hk]⟩

/-! ### Primitives left out -/

theorem writeReg_cmd (w : Word) (s : State) : writeReg 0x00 w s = writeCmd w s := rfl

/-- Settles O60: an accepted CMD write is on record until HOST_DEVICE_ORDER, and a result seen until HOST_ACQUIRE. -/
theorem missingOrderRefused : Obligations.MissingOrderRefused := by
  unfold Obligations.MissingOrderRefused
  refine ⟨fun s t w hneeds h => ?_, fun s addr a ha hd hfree hseen hr => ?_⟩
  · rw [writeReg_cmd] at h
    obtain ⟨-, -, -, -, rfl⟩ := writeCmd_cases h
    have hunordered : ((acceptCmd w s).params.hostDeviceOrder &&
        (acceptCmd w s).host.unordered.contains (acceptCmd w s).eng.base) = true := by
      simp [acceptCmd, hneeds]
    exact ⟨if_pos hunordered, _, readReg_status_of_ordered fun _ => rfl, rfl⟩
  · refine ⟨agentRead_of_unacquired ha hd hfree rfl hseen hr, _, agentRead_of_free ha hd hfree fun _ r hr hin => ?_, rfl⟩
    obtain ⟨hmem, hunseen⟩ := mem_acquireResults.1 hr
    exact absurd (hseen r hmem hin) (ne_true_of_eq_false hunseen)

/-! ### The release a CMD write needs -/

/-- An idle engine with the pointers written that the word needs accepts it unless a release is missing. -/
theorem writeCmd_of_ready {w : Word} {s : State} (hb : s.eng.busy = false) (hsp : s.eng.statePtrWritten = true)
    (hip : wordNeedsInput w = true → s.eng.inPtrWritten = true) :
    writeCmd w s = if releaseMissing w s then .refused .missingRelease else .next (acceptCmd w s) := by
  have hneeds : ¬((wordNeedsInput w && !s.eng.inPtrWritten) = true) := by
    simpa using hip
  simp only [writeCmd, hb, hsp, if_neg hneeds, Bool.false_eq_true, Bool.not_true, if_false]

/-- A release is missing exactly where the latched command passes its checks and S or IN holds an unreleased byte (R73). -/
theorem releaseMissing_iff {w : Word} {s : State} (haw : s.params.aw ≤ 64) :
    releaseMissing w s = true ↔ s.params.hostRelease = true ∧ ∃ i, decode w = .ok i ∧
      s.eng.statePtr.toNat % 2 ^ s.params.aw + 200 ≤ 2 ^ s.params.aw ∧
      (0 < instrInLen i → s.eng.inPtr.toNat % 2 ^ s.params.aw + instrInLen i ≤ 2 ^ s.params.aw) ∧
      ∃ a ∈ s.host.unreleased,
        (s.eng.statePtr.toNat % 2 ^ s.params.aw ≤ a ∧ a < s.eng.statePtr.toNat % 2 ^ s.params.aw + 200) ∨
        (s.eng.inPtr.toNat % 2 ^ s.params.aw ≤ a ∧ a < s.eng.inPtr.toNat % 2 ^ s.params.aw + instrInLen i) := by
  have hsp : (latch s.params.aw w s.eng).spAddr = s.eng.statePtr.toNat % 2 ^ s.params.aw := maskAddr_toNat haw _
  have hip : (latch s.params.aw w s.eng).ipAddr = s.eng.inPtr.toNat % 2 ^ s.params.aw := maskAddr_toNat haw _
  unfold releaseMissing
  cases hw : decode w with
  | error e => simp
  | ok i => simp [hsp, hip, rangeFails_false_iff, inRange_iff, and_assoc]

/-- Settles O49: an idle engine with its pointers written refuses a word for a missing release alone, and after HOST_RELEASE
none is missing. -/
theorem unreleasedInputRefused : Obligations.UnreleasedInputRefused := by
  unfold Obligations.UnreleasedInputRefused
  intro s w haw hb hsp hip
  have hreleased : ¬releaseMissing w (releaseWrites s) = true := by
    rw [releaseMissing_iff (s := releaseWrites s) haw]
    rintro ⟨-, i, -, -, -, a, hmem, -⟩
    cases hmem
  rw [writeReg_cmd, writeReg_cmd, writeCmd_of_ready hb hsp hip, writeCmd_of_ready (s := releaseWrites s) hb hsp hip,
    if_neg hreleased, ← releaseMissing_iff haw]
  refine ⟨?_, fun hne => ?_, _, rfl, latch_curW _ _ _⟩
  · cases releaseMissing w s <;> simp
  · cases hr : releaseMissing w s with
    | true => exact absurd (if_pos hr) hne
    | false => exact ⟨acceptCmd w s, rfl, latch_curW _ _ _⟩

end Sys2Proof.Proofs
end

section
/-! PROOF. The command word (spec 30_encoding.md R90 to R99): its fields as numbers, the tests of decoding on them, and the one
word each well-formed instruction has. -/

namespace Sys2Proof.Proofs

open Sys2Proof Sys2Proof.Machine Sys2Proof.Laws

/-! ### The fields of a word (30_encoding.md R90) -/

section WordFields

variable (w : Word)

theorem toNat_cmdOp : (cmdOp w).toNat = w.toNat % 16 := by
  rw [cmdOp, BitVec.extractLsb'_toNat, Nat.shiftRight_zero]

theorem toNat_cmdRsv0 : (cmdRsv0 w).toNat = w.toNat / 16 % 16 := by
  rw [cmdRsv0, BitVec.extractLsb'_toNat, Nat.shiftRight_eq_div_pow]

theorem toNat_cmdLen : (cmdLen w).toNat = w.toNat / 256 % 256 := by
  rw [cmdLen, BitVec.extractLsb'_toNat, Nat.shiftRight_eq_div_pow]

theorem toNat_cmdRsv1 : (cmdRsv1 w).toNat = w.toNat / 2 ^ 16 % 2 ^ 16 := by
  rw [cmdRsv1, BitVec.extractLsb'_toNat, Nat.shiftRight_eq_div_pow]

/-- RSV2 is the top of the word, so nothing stands above it. -/
theorem toNat_cmdRsv2 : (cmdRsv2 w).toNat = w.toNat / 2 ^ 32 := by
  rw [cmdRsv2, BitVec.extractLsb'_toNat, Nat.shiftRight_eq_div_pow, Nat.mod_eq_of_lt (by omega)]

theorem cmdOp_eq_iff (v : BitVec 4) : cmdOp w = v ↔ w.toNat % 16 = v.toNat := by
  rw [← BitVec.toNat_inj, toNat_cmdOp]

theorem cmdLen_eq_iff (v : BitVec 8) : cmdLen w = v ↔ w.toNat / 256 % 256 = v.toNat := by
  rw [← BitVec.toNat_inj, toNat_cmdLen]

theorem cmdLen_eq_ofNat : cmdLen w = BitVec.ofNat 8 (w.toNat / 256 % 256) := by
  rw [← toNat_cmdLen, BitVec.ofNat_toNat, BitVec.setWidth_eq]

theorem cmdReservedSet_iff :
    cmdReservedSet w = true ↔
      w.toNat / 2 ^ 32 ≠ 0 ∨ w.toNat / 2 ^ 16 % 2 ^ 16 ≠ 0 ∨ w.toNat / 16 % 16 ≠ 0 := by
  rw [← toNat_cmdRsv2, ← toNat_cmdRsv1, ← toNat_cmdRsv0]
  simp [cmdReservedSet, ← BitVec.toNat_inj, or_assoc]

end WordFields

/-- Settles O3: each of decoding's tests is the test of its field as a number. -/
theorem decodeClassifiesEveryWord : Obligations.DecodeClassifiesEveryWord := by
  unfold Obligations.DecodeClassifiesEveryWord
  intro w
  simp only [decode, cmdReservedSet_iff, cmdOp_eq_iff, Ne, cmdLen_eq_iff, toNat_cmdLen, ← cmdLen_eq_ofNat]
  rfl

/-- With the reserved fields 0, a word is its OP and LEN. -/
theorem toNat_of_reserved {w : Word} (h : cmdReservedSet w = false) :
    w.toNat = 256 * (cmdLen w).toNat + (cmdOp w).toNat := by
  have hzero := mt (cmdReservedSet_iff w).2 (ne_true_of_eq_false h)
  rw [toNat_cmdLen, toNat_cmdOp]
  omega

/-! ### The encoding of an instruction (30_encoding.md R95, R99) -/

theorem toNat_encode_absorb (len : BitVec 8) : (encode (.absorb len)).toNat = 2 ||| len.toNat <<< 8 := by
  have hlen : (len.setWidth 64 <<< 8).toNat = 2 ^ 8 * len.toNat := toNat_byte_shiftLeft len (n := 1) (by decide)
  rw [encode, BitVec.toNat_or, hlen, Nat.shiftLeft_eq, Nat.mul_comm]
  rfl

/-- OP and LEN share no bit. -/
theorem toNat_encode_absorb_add (len : BitVec 8) : (encode (.absorb len)).toNat = 256 * len.toNat + 2 := by
  rw [toNat_encode_absorb, Nat.or_comm, Nat.shiftLeft_eq, Nat.mul_comm]
  exact (Nat.two_pow_add_eq_or_of_lt (by decide) len.toNat).symm

@[simp] theorem cmdOp_encode_permute : cmdOp (encode .permute) = 1 := by decide
@[simp] theorem cmdLen_encode_permute : cmdLen (encode .permute) = 0 := by decide

@[simp] theorem cmdOp_encode_absorb (len : BitVec 8) : cmdOp (encode (.absorb len)) = 2 := by
  rw [cmdOp_eq_iff, toNat_encode_absorb_add, show (2 : BitVec 4).toNat = 2 from rfl]
  omega

@[simp] theorem cmdLen_encode_absorb (len : BitVec 8) : cmdLen (encode (.absorb len)) = len := by
  rw [cmdLen_eq_iff, toNat_encode_absorb_add]
  omega

@[simp] theorem cmdReservedSet_encode (i : Instr) : cmdReservedSet (encode i) = false := by
  cases i with
  | permute => exact ReservedClear.permute
  | absorb len => exact ReservedClear.absorb len

/-! ### Decoding (30_encoding.md R94) -/

/-- Everything decoding can do when it answers an instruction. -/
theorem decode_cases {w : Word} {i : Instr} (h : decode w = .ok i) :
    cmdReservedSet w = false ∧
      ((cmdOp w = 1 ∧ cmdLen w = 0 ∧ i = .permute) ∨
        (cmdOp w = 2 ∧ (cmdLen w).toNat ≤ 200 ∧ i = .absorb (cmdLen w))) := by
  unfold decode at h
  split_ifs at h with hrsv hop hlen hop hlen
  · cases h
    exact ⟨eq_false_of_ne_true hrsv, .inl ⟨hop, not_not.1 hlen, rfl⟩⟩
  · cases h
    exact ⟨eq_false_of_ne_true hrsv, .inr ⟨hop, Nat.not_lt.1 hlen, rfl⟩⟩

/-- A well-formed instruction's encoding decodes to it. -/
theorem decode_encode {i : Instr} (h : i.wf = true) : decode (encode i) = .ok i := by
  cases i with
  | permute => exact decode_permute_word
  | absorb len =>
    have hlen : ¬200 < len.toNat := by simpa [Instr.wf] using h
    simp [decode, hlen]

/-- Two words with the reserved fields 0 and the same OP and LEN are one word: the fields make up the whole of it. -/
theorem eq_of_fields_eq {w v : Word} (hw : cmdReservedSet w = false) (hv : cmdReservedSet v = false)
    (hop : cmdOp w = cmdOp v) (hlen : cmdLen w = cmdLen v) : w = v := by
  apply BitVec.eq_of_toNat_eq
  rw [toNat_of_reserved hw, toNat_of_reserved hv, hop, hlen]

/-- What decodes to an instruction is that instruction's one encoding. -/
theorem eq_encode_of_decode {w : Word} {i : Instr} (h : decode w = .ok i) : i.wf = true ∧ w = encode i := by
  obtain ⟨hrsv, ⟨hop, hlen, rfl⟩ | ⟨hop, hlen, rfl⟩⟩ := decode_cases h
  · exact ⟨rfl, eq_of_fields_eq hrsv (cmdReservedSet_encode _) (by simp [hop]) (by simp [hlen])⟩
  · exact ⟨decide_eq_true hlen, eq_of_fields_eq hrsv (cmdReservedSet_encode _) (by simp [hop]) (by simp)⟩

/-- Settles O1: decoding undoes encoding, and no other word decodes to an instruction. -/
theorem decodeAgreesWithEncode : Obligations.DecodeAgreesWithEncode := by
  unfold Obligations.DecodeAgreesWithEncode
  refine fun w i => ⟨eq_encode_of_decode, ?_⟩
  rintro ⟨hwf, rfl⟩
  exact decode_encode hwf

/-- Settles O2: the words of V-DEC-1 to V-DEC-17 are closed, so decoding evaluates on each. -/
theorem sampleWordsDecode : Obligations.SampleWordsDecode := by
  unfold Obligations.SampleWordsDecode
  decide

/-- Settles O4: a length that fits the field is encoded as it is. -/
theorem assemblerSyntax : Obligations.AssemblerSyntax := by
  unfold Obligations.AssemblerSyntax
  refine ⟨rfl, fun n => ⟨fun hn => ?_, fun hn => ?_, ?_⟩⟩
  · refine ⟨encode (.absorb (BitVec.ofNat 8 n)), if_pos hn, ?_⟩
    rw [toNat_encode_absorb, BitVec.toNat_ofNat, Nat.mod_eq_of_lt (by omega)]
  · exact if_neg (by omega)
  · simp [assembleAbsorbWarns]

end Sys2Proof.Proofs
end

section
/-! PROOF. ABSORB of no bytes (spec 30_encoding.md R96): it is PERMUTE's transaction, and one without input uses IN_PTR for
nothing. -/

namespace Sys2Proof.Proofs

open Sys2Proof Sys2Proof.Machine Sys2Proof.Laws

/-! ### An empty input slice -/

theorem rangeFails_zero (aw sp ip ip' : Nat) : rangeFails aw sp ip 0 = rangeFails aw sp ip' 0 := by
  simp [rangeFails]

theorem touchesDevice_zero (p : Params) (sp ip ip' : Nat) : touchesDevice p sp ip 0 = touchesDevice p sp ip' 0 := by
  simp [touchesDevice]

theorem loadByte_zero (others : List Engine) (m : List Host.Cell) (d sp ip k : Nat) :
    loadByte others m d sp ip 0 k = portRead others m d (sp + k) :=
  if_neg (Nat.not_lt_zero k)

/-! ### Another latched IN_PTR -/

/-- The state with another latched IN_PTR. -/
def setCurIp (ip : Word) (s : State) : State := { s with eng := { s.eng with curIp := ip } }

/-- What R96 speaks of: memory and STATUS. -/
def memAndStatus (t : State) : List Host.Cell × Word := (t.mem, t.eng.status)

section OtherInput

variable (ip : Word) (s : State)

theorem storePhase_setCurIp : outcomesAgree memAndStatus (storePhase s) (storePhase (setCurIp ip s)) := by
  unfold storePhase setCurIp Engine.spAddr
  cases storeRaces s.others s.eng.curSp.toNat with
  | true => rfl
  | false => cases busReply s.params s.eng.bus <;> rfl

theorem loaded_zero_setCurIp : loaded 0 (setCurIp ip s) = setCurIp ip (loaded 0 s) := by
  simp [loaded, setCurIp, popBus, funext (loadByte_zero _ _ _ _ _), Engine.spAddr]

/-- With no input byte to check or to load, IN_PTR is not used. -/
theorem runCommand_zero_setCurIp :
    outcomesAgree memAndStatus (runCommand 0 s) (runCommand 0 (setCurIp ip s)) := by
  have hrange := rangeFails_zero s.params.aw s.eng.spAddr ip.toNat s.eng.ipAddr
  have hdevice := touchesDevice_zero s.params s.eng.spAddr ip.toNat s.eng.ipAddr
  cases hr : rangeFails s.params.aw s.eng.spAddr s.eng.ipAddr 0 with
  | true =>
    rw [runCommand_of_range hr, runCommand_of_range (s := setCurIp ip s) (hrange.trans hr)]
    rfl
  | false =>
    have hr' := hrange.trans hr
    cases hd : touchesDevice s.params s.eng.spAddr s.eng.ipAddr 0 with
    | true =>
      rw [runCommand_of_device hr hd, runCommand_of_device (s := setCurIp ip s) hr' (hdevice.trans hd)]
      rfl
    | false =>
      have hd' := hdevice.trans hd
      cases hb : busReply s.params s.eng.bus with
      | hang =>
        rw [runCommand_of_hang hr hd hb, runCommand_of_hang (s := setCurIp ip s) hr' hd' hb]
        rfl
      | error =>
        rw [runCommand_of_error hr hd hb, runCommand_of_error (s := setCurIp ip s) hr' hd' hb]
        rfl
      | ok =>
        rw [runCommand_of_ok hr hd hb, runCommand_of_ok (s := setCurIp ip s) hr' hd' hb, loaded_zero_setCurIp]
        exact storePhase_setCurIp ip (roundPhase (loaded 0 s))

end OtherInput

/-- Settles O9: both are the transaction with no input. -/
theorem absorbZeroIsPermute : Obligations.AbsorbZeroIsPermute := by
  unfold Obligations.AbsorbZeroIsPermute
  refine ⟨fun s => ?_, fun s ip => runCommand_zero_setCurIp ip s⟩
  rw [exec_of_wf (i := .absorb 0) (by decide), exec_of_wf (i := .permute) (by decide)]
  rfl

end Sys2Proof.Proofs
end

section
/-! PROOF. The lane rotation (spec 40_rom_and_networks.md R124): it is the library's rotation of a bit vector, whose rules give its
formula and its bits. -/

namespace Sys2Proof.Proofs

open Sys2Proof Sys2Proof.Machine Sys2Proof.Laws

/-- For a rotation by 0 the library's formula also gives v, since a lane shifted right by all its 64 bits is 0. -/
theorem rotl64_eq_rotateLeft (v : Lane) (n : Nat) : rotl64 v n = v.rotateLeft n := by
  rw [rotl64, BitVec.rotateLeft_def]
  split
  next h => simp [h, BitVec.ushiftRight_eq_zero (Nat.le_refl 64)]
  next => rfl

@[simp] theorem rotl64_zero (v : Lane) : rotl64 v 0 = v := rfl

theorem rotl64_mod (v : Lane) (n : Nat) : rotl64 v (n % 64) = rotl64 v n := by
  simp only [rotl64_eq_rotateLeft, BitVec.rotateLeft_mod_eq_rotateLeft]

/-- The bits shifted right are fewer than 64, so reducing the whole reduces the bits shifted left alone. -/
theorem rotl64_toNat {n : Nat} (v : Lane) (hn : n < 64) :
    (rotl64 v n).toNat = (v.toNat <<< n ||| v.toNat >>> (64 - n)) % 2 ^ 64 := by
  have hright : v.toNat >>> (64 - n) < 2 ^ 64 := (Nat.shiftRight_le _ _).trans_lt v.isLt
  rw [rotl64_eq_rotateLeft, BitVec.toNat_rotateLeft, Nat.mod_eq_of_lt hn, Nat.or_mod_two_pow, Nat.mod_eq_of_lt hright]

/-- The low n mod 64 bits are those that wrap from the top, and every other bit moves up by n mod 64. -/
theorem rotl64_getLsbD (v : Lane) (n : Nat) {k : Nat} (hk : k < 64) :
    (rotl64 v n).getLsbD k = v.getLsbD ((k + 64 - n % 64) % 64) := by
  rw [rotl64_eq_rotateLeft, BitVec.getLsbD_rotateLeft]
  by_cases hwrap : k < n % 64
  · have hsource : (k + 64 - n % 64) % 64 = 64 - n % 64 + k := by omega
    simp [hwrap, hsource]
  · have hsource : (k + 64 - n % 64) % 64 = k - n % 64 := by omega
    simp [hwrap, hk, hsource]

/-- Settles O21: the library's rules for its rotation, with the wrap-around written as one index mod 64. -/
theorem rotateMovesBits : Obligations.RotateMovesBits := by
  unfold Obligations.RotateMovesBits
  exact fun v n => ⟨rotl64_zero v, fun _ hn => rotl64_toNat v (Nat.lt_succ_of_le hn), (rotl64_mod v n).symm,
    fun _ hk => rotl64_getLsbD v n hk⟩

end Sys2Proof.Proofs
end

section
/-! PROOF. The round function lane by lane (spec 41_round_function.md): one rule per step mapping, and what follows from it. The
rules hold for all coordinates, which `lane` takes modulo 5 (R12). -/

namespace Sys2Proof.Proofs

open Sys2Proof Sys2Proof.Machine Sys2Proof.Laws

/-! ### Theta (R150) -/

@[simp] theorem columnParity_mod (A : Lanes) (x : Nat) : columnParity A (x % 5) = columnParity A x := by
  simp only [columnParity, lane_mod_x]

@[simp] theorem thetaEffect_mod (A : Lanes) (x : Nat) : thetaEffect A (x % 5) = thetaEffect A x := by
  rw [thetaEffect, ← columnParity_mod A (x % 5 + 4), ← columnParity_mod A (x % 5 + 1), Nat.mod_add_mod, Nat.mod_add_mod,
    columnParity_mod, columnParity_mod, thetaEffect]

@[simp] theorem lane_theta (A : Lanes) (x y : Nat) : lane (theta A) x y = lane A x y ^^^ thetaEffect A x := by
  simp only [theta, lane_lanesXY, lane_mod_x, lane_mod_y, thetaEffect_mod]

theorem theta_eq_self {A : Lanes} (h : ∀ x, thetaEffect A x = 0) : theta A = A := by
  apply lanes_ext
  intro x y _ _
  rw [lane_theta, h]
  exact BitVec.xor_zero

theorem thetaEffect_of_even {A : Lanes} (h : ∀ x, x < 5 → columnParity A x = 0) (x : Nat) : thetaEffect A x = 0 := by
  have heven : ∀ x, columnParity A x = 0 := fun x => (columnParity_mod A x).symm.trans (h _ (Nat.mod_lt x (by decide)))
  rw [thetaEffect, heven, heven]
  rfl

@[simp] theorem lane_replicate (v : Lane) (x y : Nat) : lane (Vector.replicate 25 v) x y = v :=
  Vector.getElem_replicate _

/-- A column of five equal lanes has that lane as its parity, five being odd. -/
theorem columnParity_replicate (v : Lane) (x : Nat) : columnParity (Vector.replicate 25 v) x = v := by
  simp [columnParity]

theorem thetaEffect_allOnes (x : Nat) : thetaEffect (Vector.replicate 25 (BitVec.allOnes 64)) x = 0 := by
  have hrot : rotl64 (BitVec.allOnes 64) 1 = BitVec.allOnes 64 := by decide
  rw [thetaEffect, columnParity_replicate, columnParity_replicate, hrot, BitVec.xor_self]
  rfl

/-- Settles O24: in both states Theta's effect is 0 in every column. -/
theorem thetaFixesEvenParity : Obligations.ThetaFixesEvenParity := by
  unfold Obligations.ThetaFixesEvenParity
  exact ⟨fun _ h => theta_eq_self (thetaEffect_of_even h), theta_eq_self thetaEffect_allOnes⟩

/-! ### Rho and Pi (R151, R152) -/

@[simp] theorem lane_rho (A : Lanes) (x y : Nat) :
    lane (rho A) x y = rotl64 (lane A x y) (rhoOffset (x % 5 + 5 * (y % 5))) := by
  simp only [rho, lane_lanesXY, lane_mod_x, lane_mod_y]

@[simp] theorem lane_pi (A : Lanes) (x y : Nat) : lane (pi A) x y = lane A (x + 3 * y) x := by
  have hsource : (x % 5 + 3 * (y % 5)) % 5 = (x + 3 * y) % 5 := by omega
  rw [pi, lane_lanesXY, lane_mod_y, ← lane_mod_x, hsource, lane_mod_x]

/-- Pi as R152 gives it, by the destination of a source lane. -/
theorem lane_pi_destination (A : Lanes) {x : Nat} (y : Nat) (hx : x < 5) :
    lane (pi A) y ((2 * x + 3 * y) % 5) = lane A x y := by
  have hsource : (y + 3 * (2 * x + 3 * y)) % 5 = x := by omega
  rw [lane_mod_y, lane_pi, ← lane_mod_x, hsource]

/-! ### Chi (R153) -/

@[simp] theorem lane_chi (A : Lanes) (x y : Nat) :
    lane (chi A) x y = lane A x y ^^^ (~~~ lane A (x + 1) y &&& lane A (x + 2) y) := by
  rw [chi, lane_lanesXY, ← lane_mod_x A (x % 5 + 1), ← lane_mod_x A (x % 5 + 2), Nat.mod_add_mod, Nat.mod_add_mod]
  simp only [lane_mod_x, lane_mod_y]

/-- Settles O23: bit k of the three lanes Chi combines is bit k of lanes of the row. -/
theorem chiActsOnRowBits : Obligations.ChiActsOnRowBits := by
  unfold Obligations.ChiActsOnRowBits
  intro A B y k h x _
  have hrow : ∀ x, (lane A x y).getLsbD k = (lane B x y).getLsbD k := fun x => by
    rw [← lane_mod_x A, ← lane_mod_x B, h _ (Nat.mod_lt x (by decide))]
  simp only [lane_chi, BitVec.getLsbD_xor, BitVec.getLsbD_and, BitVec.getLsbD_not, hrow]

/-! ### Iota (R154) and the five together -/

theorem lane_iota (A : Lanes) (i : Nat) {x y : Nat} (hx : x < 5) (hy : y < 5) :
    lane (iota A i) x y = if x = 0 ∧ y = 0 then lane A x y ^^^ rcRom i else lane A x y := by
  rw [iota, iotaWith, lane_lanesXY, Nat.mod_eq_of_lt hx, Nat.mod_eq_of_lt hy]

/-- Settles O22: the rule of each mapping, with Theta's effect written out. -/
theorem stepMappingsByLane : Obligations.StepMappingsByLane := by
  unfold Obligations.StepMappingsByLane
  intro A x y i hx hy
  refine ⟨?theta, ?rho, lane_pi_destination A y hx, ?chi, lane_iota A i hx hy⟩
  case theta => simp only [lane_theta, thetaEffect, columnParity, lane_mod_x]
  case rho => rw [lane_rho, Nat.mod_eq_of_lt hx, Nat.mod_eq_of_lt hy]
  case chi => simp only [lane_chi, lane_mod_x]

/-! ### The fused form (R158) -/

/-- The combined network by destination: Pi's source lane (R127), and Rho's offset of that lane (R129). -/
theorem rhoPiTable_getD : ∀ x, x < 5 → ∀ y, y < 5 →
    rhoPiTable.getD (x + 5 * y) (0, 0) = ((x + 3 * y) % 5 + 5 * x, rhoOffset ((x + 3 * y) % 5 + 5 * x)) := by
  decide

/-- B of the fused form is the array that Chi reads in the round of R155. -/
theorem fusedB_eq (A : Lanes) {x y : Nat} (hx : x < 5) (hy : y < 5) :
    fusedB A (x + 5 * y) = lane (pi (rho (theta A))) x y := by
  have hcolumn : ((x + 3 * y) % 5 + 5 * x) % 5 = (x + 3 * y) % 5 := by omega
  have hrow : ((x + 3 * y) % 5 + 5 * x) / 5 = x := by omega
  simp only [fusedB, rhoPiTable_getD x hx y hy, hcolumn, hrow, lane_mod_x, thetaEffect_mod, lane_pi, lane_rho, lane_theta,
    Nat.mod_eq_of_lt hx]

/-- Settles O26: lane by lane, both are Iota of Chi of the same array. -/
theorem fusedRoundIsRound : Obligations.FusedRoundIsRound := by
  unfold Obligations.FusedRoundIsRound
  intro A i
  apply lanes_ext
  intro x y hx hy
  have hB : ∀ x, fusedB A (x % 5 + 5 * y) = lane (pi (rho (theta A))) x y := fun x => by
    rw [fusedB_eq A (Nat.mod_lt x (by decide)) hy, lane_mod_x]
  rw [fusedRnd, lane_lanesXY, Nat.mod_eq_of_lt hx, Nat.mod_eq_of_lt hy, fusedB_eq A hx hy, hB, hB, rnd, lane_iota _ i hx hy,
    lane_chi]

end Sys2Proof.Proofs
end

section
/-! PROOF. One step of the ROUND phase (spec 41_round_function.md R156). -/

namespace Sys2Proof.Proofs

open Sys2Proof Sys2Proof.Machine Sys2Proof.Laws

theorem engineStep_of_round {s : State} (hp : s.eng.phase = .round) (hr : s.eng.round.toNat < 24) :
    engineStep s = .next (roundStep s) := by
  simp only [engineStep, hp, if_pos hr]

theorem roundStep_of_lt {s : State} (h : s.eng.round.toNat < 23) :
    roundStep s = { s with
      eng := { s.eng with lanes := rnd s.eng.lanes s.eng.round.toNat, round := s.eng.round + 1 } } :=
  if_pos h

theorem roundStep_of_ge {s : State} (h : ¬s.eng.round.toNat < 23) :
    roundStep s = { s with eng := { s.eng with lanes := rnd s.eng.lanes s.eng.round.toNat, phase := .store } } :=
  if_neg h

/-- Below 23 the 5-bit round counter does not wrap. -/
theorem toNat_round_succ {r : BitVec 5} (h : r.toNat < 23) : (r + 1).toNat = r.toNat + 1 := by
  bv_omega

/-- Settles O33: below 23 the counter advances and the phase stays, and after round 23 the phase is STORE. -/
theorem roundStepRunsOneRound : Obligations.RoundStepRunsOneRound := by
  unfold Obligations.RoundStepRunsOneRound
  intro s hp hr
  refine ⟨roundStep s, engineStep_of_round hp hr, ?_⟩
  by_cases hlt : s.eng.round.toNat < 23
  · rw [roundStep_of_lt hlt]
    exact ⟨rfl, fun _ => ⟨toNat_round_succ hlt, hp⟩, fun h => absurd hlt (h ▸ Nat.lt_irrefl 23), rfl⟩
  · rw [roundStep_of_ge hlt]
    exact ⟨rfl, fun h => absurd h hlt, fun _ => rfl, rfl⟩

end Sys2Proof.Proofs
end

section
/-! PROOF. The ROUND phase as a whole (spec 42_commands.md R185): after n of its steps L holds n rounds, and after 24 it holds F. -/

namespace Sys2Proof.Proofs

open Sys2Proof Sys2Proof.Machine Sys2Proof.Laws

/-- Within the ROUND phase, with the first n rounds done. -/
def afterRounds (n : Nat) (s : State) : State :=
  { s with eng := { s.eng with lanes := roundsF s.eng.lanes n, round := BitVec.ofNat 5 n, phase := .round } }

/-- Below 24 the 5-bit round counter holds the number of rounds done. -/
theorem toNat_afterRounds_round {n : Nat} (h : n < 24) (s : State) : (afterRounds n s).eng.round.toNat = n :=
  Nat.mod_eq_of_lt (by omega : n < 2 ^ 5)

/-- Below 23 a ROUND step does the next round. -/
theorem engineStep_afterRounds {n : Nat} (h : n < 23) (s : State) :
    engineStep (afterRounds n s) = .next (afterRounds (n + 1) s) := by
  have hround := toNat_afterRounds_round (by omega : n < 24) s
  rw [engineStep_of_round rfl (by omega), roundStep_of_lt (by omega), hround]
  simp only [afterRounds, roundsF, BitVec.ofNat_add]
  rfl

/-- The 24th ROUND step completes F and leads to STORE. -/
theorem engineStep_lastRound (s : State) : engineStep (afterRounds 23 s) = .next (roundPhase s) := by
  have hround := toNat_afterRounds_round (by decide : 23 < 24) s
  rw [engineStep_of_round rfl (by omega), roundStep_of_ge (by omega), hround]
  simp only [roundPhase, keccakF_last]
  rfl

theorem afterRounds_zero {s : State} (hp : s.eng.phase = .round) (hr : s.eng.round = 0) : afterRounds 0 s = s := by
  simp only [afterRounds, roundsF, ← hp, show BitVec.ofNat 5 0 = s.eng.round from hr.symm]

/-- From the start of the ROUND phase, n steps do the first n rounds. -/
theorem engineSteps_of_rounds {s : State} (hp : s.eng.phase = .round) (hr : s.eng.round = 0) {n : Nat} (h : n < 24) :
    engineSteps n s = .next (afterRounds n s) := by
  induction n with
  | zero => rw [engineSteps, afterRounds_zero hp hr]
  | succ n ih => rw [engineSteps_succ_right, ih (by omega), andThen_next, engineStep_afterRounds (by omega)]

/-- From the start of the ROUND phase its 24 steps do what the phase does as a whole. -/
theorem engineSteps_roundPhase {s : State} (hp : s.eng.phase = .round) (hr : s.eng.round = 0) :
    engineSteps 24 s = .next (roundPhase s) := by
  rw [engineSteps_succ_right, engineSteps_of_rounds hp hr (by decide), andThen_next, engineStep_lastRound]

/-- Settles O34: by induction on the number of rounds done, each step doing the next one. -/
theorem roundPhaseComputesF : Obligations.RoundPhaseComputesF := by
  unfold Obligations.RoundPhaseComputesF
  intro s hp hr
  refine ⟨engineSteps_roundPhase hp hr, fun n hn => ?_⟩
  exact ⟨_, engineSteps_of_rounds hp hr hn, rfl, toNat_afterRounds_round hn s, rfl⟩

end Sys2Proof.Proofs
end

section
/-! PROOF. The two commands where nothing keeps them from running (spec 42_commands.md R180, R181), and a step at CHECK as the
command's transaction (R183, R188). -/

namespace Sys2Proof.Proofs

open Sys2Proof Sys2Proof.Machine Sys2Proof.Laws

/-! ### A command that completes -/

/-- S holds F of the bytes absorbed, and every other byte of memory is as before. -/
def StoresPermuted (n : Nat) (s t : State) : Prop :=
  (∀ k, k < 200 →
    memRead t.mem (s.eng.spAddr + k) = laneByte (keccakF (lanesFromBytes (absorbedByte n s))) k) ∧
  ∀ a, inRange a s.eng.spAddr 200 = false → memRead t.mem a = memRead s.mem a

/-- A command nothing keeps from running stores F of the bytes absorbed, and completes with no error. -/
theorem exec_completes {i : Instr} {s : State} (hm : memWf s.mem) (hwf : i.wf = true) (hc : s.Clear (instrInLen i)) :
    ∃ t, exec i s = .next t ∧ StoresPermuted (instrInLen i) s t ∧
      t.eng.status = mkStatus false true (errCode .noError) ∧ t.eng.phase = .idle ∧ t.faultLog = s.faultLog := by
  refine ⟨_, (exec_of_wf hwf s).trans (runCommand_of_clear hc), ⟨fun k hk => ?_, fun a ha => ?_⟩, by simp, by simp, ?_⟩
  · rw [completeRun_mem, recordResult_mem, memRead_storeLanes hm, if_pos (by omega), Nat.add_sub_cancel_left]
  · rw [completeRun_mem, recordResult_mem, memRead_storeLanes hm, if_neg (inRange_false_iff.1 ha)]
  · rw [completeRun_faultLog, if_pos rfl, recordResult_faultLog]
    rfl

/-- Without input the bytes absorbed are those of S. -/
theorem absorbedByte_zero (s : State) : absorbedByte 0 s = s.stateByte := by
  funext j
  exact if_neg (Nat.not_lt_zero j)

/-- Settles O7: PERMUTE is a command without input. -/
theorem permuteCompletes : Obligations.PermuteCompletes := by
  unfold Obligations.PermuteCompletes
  intro s hm hc
  obtain ⟨t, hexec, ⟨hstate, hframe⟩, hend⟩ := exec_completes (i := .permute) hm rfl hc
  rw [instrInLen, absorbedByte_zero] at hstate
  exact ⟨t, hexec, hstate, hframe, hend⟩

/-- Settles O8: a length of at most 200 makes ABSORB well formed, and its input is the length's number of bytes. -/
theorem absorbCompletes : Obligations.AbsorbCompletes := by
  unfold Obligations.AbsorbCompletes
  intro s len hm hlen hc
  obtain ⟨t, hexec, ⟨hstate, hframe⟩, hend⟩ :=
    exec_completes (i := .absorb len) hm (by simpa [Instr.wf] using hlen) hc
  exact ⟨t, hexec, hstate, hframe, hend⟩

/-! ### A step at CHECK -/

theorem autoStep_of_decode {s : State} {i : Instr} (hp : s.eng.phase = .check) (hd : decode s.eng.curW = .ok i) :
    autoStep s = exec i s := by
  rw [autoStep, if_pos hp, hd]

/-- With nothing on the agenda a busy engine at CHECK runs on: at CHECK no access keeps it waiting. -/
theorem step_of_check {s : State} (ha : s.agenda = []) (hb : s.eng.busy = true) (hp : s.eng.phase = .check) :
    step s = autoStep s := by
  have hgo : standsStill s = false := by rw [standsStill, hp]
  rw [step, ha]
  simp only [runEngines, nextToRun_zero hb hgo, withEngine_zero]

/-- What decoding a table word answers is what decoding the CMD value answers. -/
theorem decode_of_decodeTableWord {nbits w : Nat} {i : Instr} (h : decodeTableWord nbits w = some i) :
    decode (BitVec.ofNat 64 (w % 2 ^ nbits)) = .ok i := by
  unfold decodeTableWord at h
  split at h
  next j hd =>
    cases h
    exact hd
  next => cases h

/-- An engine that has just latched a command is busy. -/
theorem latch_busy (aw : Nat) (w : Word) (e : Engine) : (latch aw w e).busy = true := by
  rw [Engine.busy, latch_status]
  decide

theorem withFetchWord_eng_curW (s : State) (nbits w : Nat) :
    (s.withFetchWord nbits w).eng.curW = BitVec.ofNat 64 (w % 2 ^ nbits) := rfl

/-- Settles O5: at CHECK the engine at `eng` is the next to run, and a word just placed stands at CHECK. -/
theorem stepRunsDecodedInstruction : Obligations.StepRunsDecodedInstruction := by
  unfold Obligations.StepRunsDecodedInstruction
  refine ⟨fun s i ha hb hp hd => ?_, fun s nbits w i hw => ?_, fun s ev rest ha => ?_⟩
  · rw [step_of_check ha hb hp, autoStep_of_decode hp hd]
  · have hb : (s.withFetchWord nbits w).eng.busy = true := latch_busy s.params.aw (BitVec.ofNat 64 (w % 2 ^ nbits)) s.eng
    rw [step_of_check rfl hb rfl]
    exact autoStep_of_decode rfl (by rw [withFetchWord_eng_curW, decode_of_decodeTableWord hw])
  · rw [step, ha]

/-! ### The transaction view -/

/-- What decodes is well formed, so that the engine at CHECK runs the transaction of the decoded command. -/
theorem autoStep_eq_runCommand {s : State} {i : Instr} (hp : s.eng.phase = .check) (hd : decode s.eng.curW = .ok i) :
    autoStep s = runCommand (instrInLen i) s := by
  rw [autoStep_of_decode hp hd, exec_of_wf (eq_encode_of_decode hd).1]

/-- Where a check fails, the engine at CHECK completes with the first that does (60_exceptions.md R215). -/
theorem autoStep_of_failedCheck {s : State} (hp : s.eng.phase = .check)
    (hc : firstCheckError s.params.aw s.eng.curW s.eng.spAddr s.eng.ipAddr ≠ .noError) :
    autoStep s = .next (complete (firstCheckError s.params.aw s.eng.curW s.eng.spAddr s.eng.ipAddr) s) := by
  cases hd : decode s.eng.curW with
  | error e => simp only [autoStep, firstCheckError, if_pos hp, hd]
  | ok i =>
    have hr : rangeFails s.params.aw s.eng.spAddr s.eng.ipAddr (instrInLen i) = true := by
      by_contra hr
      exact hc (firstCheckError_eq_noError.2 ⟨i, hd, eq_false_of_ne_true hr⟩)
    rw [autoStep_eq_runCommand hp hd, runCommand_of_range hr]
    simp only [firstCheckError, hd, if_pos hr]

/-- Settles O32: a failing check completes the command with its error, and a command that passes them all stores F of the bytes
absorbed. -/
theorem transactionView : Obligations.TransactionView := by
  unfold Obligations.TransactionView
  intro s hm ha hb hp hclear
  rw [step_of_check ha hb hp]
  by_cases hc : firstCheckError s.params.aw s.eng.curW s.eng.spAddr s.eng.ipAddr = .noError
  · obtain ⟨i, hd, hr⟩ := firstCheckError_eq_noError.1 hc
    obtain ⟨t, hexec, hstored, hstatus, -⟩ := exec_completes hm (eq_encode_of_decode hd).1 (hclear i hd hr)
    refine ⟨t, (autoStep_of_decode hp hd).trans hexec, by simp [hstatus], by simp [hstatus], by simp [hstatus, hc],
      fun hne => absurd hc hne, fun j hj _ => ?_⟩
    obtain rfl : i = j := Except.ok.inj (hd.symm.trans hj)
    exact hstored
  · exact ⟨_, autoStep_of_failedCheck hp hc, by simp, by simp, by simp, by simp, fun _ _ hno => absurd hno hc⟩

/-! ### The phased run -/

/-- At CHECK the latched fields give the input length of the decoded command (42_commands.md R184). -/
theorem inLen_of_decode {e : Engine} {i : Instr} (hop : e.curOp = cmdOp e.curW) (hlen : e.curLen = cmdLen e.curW)
    (hd : decode e.curW = .ok i) : e.inLen = instrInLen i := by
  obtain ⟨-, ⟨hw, -, rfl⟩ | ⟨hw, -, rfl⟩⟩ := decode_cases hd
  · rw [Engine.inLen, hop, hw]
    rfl
  · rw [Engine.inLen, hop, hw, hlen]
    rfl

/-- From LOAD, 26 steps (LOAD, 24 rounds, STORE) are the rest of the transaction: where LOAD leads to no round, it has completed
the command or never ends. -/
theorem engineSteps_of_load {s : State} (hp : s.eng.phase = .load) :
    engineSteps 26 s = andThen (loadPhase s.eng.inLen s) fun t =>
      if t.eng.phase = .round then storePhase (roundPhase t) else .next t := by
  have hstep : engineStep s = loadPhase s.eng.inLen s := by simp only [engineStep, hp]
  rw [engineSteps, hstep]
  cases hl : loadPhase s.eng.inLen s with
  | fault r => rw [andThen_fault, andThen_fault]
  | refused r => rw [andThen_refused, andThen_refused]
  | next t =>
    rw [andThen_next, andThen_next]
    obtain ⟨-, ⟨-, rfl⟩ | ⟨-, rfl⟩ | ⟨-, ht⟩⟩ := loadPhase_cases hl
    · have hself : { s with eng := { s.eng with phase := .load } } = s := by rw [← hp]
      rw [hself] at hl ⊢
      rw [engineSteps_fix (hstep.trans hl), if_neg (by simp [hp])]
    · rw [engineSteps_fix (engineStep_idle (completeRun_eng_phase _ _)), if_neg (by simp)]
    · have hround : t.eng.phase = .round := by rw [ht]
      rw [engineSteps_succ_right, engineSteps_roundPhase hround (by rw [ht]), andThen_next, if_pos hround]
      exact engineStep_of_store (roundPhase_eng_phase t)

/-- Settles O31: a failing check ends both at CHECK, and past it both go through LOAD, the rounds and STORE. -/
theorem phasedRunIsTransaction : Obligations.PhasedRunIsTransaction := by
  unfold Obligations.PhasedRunIsTransaction
  intro s hp hop hlen
  have hstep : engineStep s = .next (checkPhase s) := by simp only [engineStep, hp]
  rw [engineSteps, hstep, andThen_next, checkPhase_eq]
  by_cases hc : firstCheckError s.params.aw s.eng.curW s.eng.spAddr s.eng.ipAddr = .noError
  · obtain ⟨i, hd, hr⟩ := firstCheckError_eq_noError.1 hc
    rw [if_pos hc, engineSteps_of_load rfl, autoStep_eq_runCommand hp hd, runCommand, if_neg (ne_true_of_eq_false hr),
      ← inLen_of_decode hop hlen hd]
    rfl
  · rw [if_neg hc, engineSteps_fix (engineStep_idle (complete_eng_phase _ s)), autoStep_of_failedCheck hp hc]

end Sys2Proof.Proofs
end

section
/-! PROOF. An accepted CMD write (spec 42_commands.md R182, 10_state.md R34). -/

namespace Sys2Proof.Proofs

open Sys2Proof Sys2Proof.Machine Sys2Proof.Laws

/-- Acceptance sets STATUS to BUSY alone (R182). -/
theorem latch_status_eq (aw : Nat) (w : Word) (e : Engine) : (latch aw w e).status = 0x01 := by
  rw [latch_status]
  decide

/-- Settles O37: a CMD write that nothing refuses is an acceptance, which latches the word's fields and the pointers' low AW bits. -/
theorem cmdWriteLatchesCommand : Obligations.CmdWriteLatchesCommand := by
  unfold Obligations.CmdWriteLatchesCommand
  intro s w hb hsp hip hrel haw
  have haccept : writeReg 0x00 w s = .next (acceptCmd w s) := by
    rw [writeReg_cmd, writeCmd_of_ready hb hsp hip, if_neg (ne_true_of_eq_false hrel)]
  exact ⟨_, haccept, rfl, toNat_cmdOp w, toNat_cmdLen w, maskAddr_toNat haw _, maskAddr_toNat haw _,
    latch_status_eq s.params.aw w s.eng, rfl, rfl, rfl, rfl, rfl, rfl, rfl⟩

end Sys2Proof.Proofs
end

section
/-! PROOF. The errors of a command (spec 60_exceptions.md R211 to R216): a completion with an error code, CHECK's errors, and a
bus error in LOAD and in STORE. -/

namespace Sys2Proof.Proofs

open Sys2Proof Sys2Proof.Machine Sys2Proof.Laws

/-! ### Completion with an error -/

/-- STATUS at a completion: the code in bits 7:4, and DONE (10_state.md R39 to R42). -/
theorem completedStatus_eq (err : ErrCode) :
    mkStatus false true (errCode err) = BitVec.ofNat 64 (16 * (errCode err).toNat + 2) := by
  cases err <;> decide

/-- A completion with an error shows it, is idle, keeps memory and L, and logs the code (60_exceptions.md R216, R220). -/
theorem complete_of_error (err : ErrCode) (he : err ≠ .noError) (s : State) :
    (complete err s).eng.status = BitVec.ofNat 64 (16 * (errCode err).toNat + 2) ∧ (complete err s).eng.phase = .idle ∧
      (complete err s).mem = s.mem ∧ (complete err s).eng.lanes = s.eng.lanes ∧
      (complete err s).faultLog = s.faultLog ++ [err] :=
  ⟨completedStatus_eq err, rfl, rfl, rfl, if_neg he⟩

/-! ### CHECK -/

theorem engineStep_of_check {s : State} (hp : s.eng.phase = .check) : engineStep s = .next (checkPhase s) := by
  simp only [engineStep, hp]

/-- Where a check fails, the phased step and the engine that runs on are the completion with the first that does (R215). -/
theorem completes_of_failedCheck {s : State} {err : ErrCode} (hp : s.eng.phase = .check)
    (herr : firstCheckError s.params.aw s.eng.curW s.eng.spAddr s.eng.ipAddr = err) (hne : err ≠ .noError) :
    engineStep s = .next (complete err s) ∧ autoStep s = .next (complete err s) := by
  subst herr
  exact ⟨by rw [engineStep_of_check hp, checkPhase_eq, if_neg hne], autoStep_of_failedCheck hp hne⟩

/-- A word that does not decode fails CHECK with its decoding's error, wherever the pointers point. -/
theorem firstCheckError_of_decode_error {w : Word} {d : DecodeError} (h : decode w = .error d) (aw sp ip : Nat) :
    firstCheckError aw w sp ip = decodeErrCode d := by
  simp only [firstCheckError, h]

theorem decode_eq_length {w : Word} (hrsv : cmdReservedSet w = false) (hop : w.toNat % 16 = 2)
    (hlen : 200 < w.toNat / 256 % 256) : decode w = .error .length := by
  have hop : cmdOp w = 2 := (cmdOp_eq_iff w 2).2 hop
  rw [← toNat_cmdLen] at hlen
  simp [decode, hrsv, hop, hlen]

/-- R211's three cases: of decoding's tests, those that end in ILLEGAL_CMD. -/
theorem decode_eq_illegalCmd_iff (w : Word) : decode w = .error .illegalCmd ↔
    (w.toNat % 16 ≠ 1 ∧ w.toNat % 16 ≠ 2) ∨
    (w.toNat / 16 % 16 ≠ 0 ∨ w.toNat / 2 ^ 16 % 2 ^ 16 ≠ 0 ∨ w.toNat / 2 ^ 32 ≠ 0) ∨
    (w.toNat % 16 = 1 ∧ w.toNat / 256 % 256 ≠ 0) := by
  rw [decodeClassifiesEveryWord w]
  split_ifs with hrsv hpermute hlen habsorb hlong
  · exact iff_of_true rfl (by omega)
  · exact iff_of_true rfl (by omega)
  · exact iff_of_false nofun (by omega)
  · exact iff_of_false nofun (by omega)
  · exact iff_of_false nofun (by omega)
  · exact iff_of_true rfl (by omega)

/-- Settles O11: the word decodes to LENGTH, which CHECK and ABSORB complete with alike. -/
theorem absorbTooLongRaisesLength : Obligations.AbsorbTooLongRaisesLength := by
  unfold Obligations.AbsorbTooLongRaisesLength
  refine ⟨fun s hp hrsv hop hlen => ?_, fun s len hlen => ?_⟩
  · have herr := firstCheckError_of_decode_error (decode_eq_length hrsv hop hlen) s.params.aw s.eng.spAddr s.eng.ipAddr
    obtain ⟨hstep, hauto⟩ := completes_of_failedCheck hp herr nofun
    exact ⟨_, hstep, hauto, complete_of_error .length nofun s⟩
  · exact ⟨_, exec_of_not_wf (by simpa [Instr.wf] using hlen) s, complete_of_error .length nofun s⟩

/-- Settles O13: a failing check is the completion with its error, which touches STATUS, the latch and the log alone. -/
theorem checkErrorReportedOnce : Obligations.CheckErrorReportedOnce := by
  unfold Obligations.CheckErrorReportedOnce
  refine ⟨fun s err hp herr hne => ?_, decode_eq_illegalCmd_iff, fun s hp hd => ?_⟩
  · obtain ⟨hstep, hauto⟩ := completes_of_failedCheck hp herr hne
    exact ⟨_, hstep, hauto, rfl, rfl, rfl, rfl, rfl, statusErr_completed err, statusDone_completed err,
      statusBusy_completed err, if_neg hne⟩
  · have herr := firstCheckError_of_decode_error hd s.params.aw s.eng.spAddr s.eng.ipAddr
    obtain ⟨hstep, hauto⟩ := completes_of_failedCheck hp herr nofun
    exact ⟨_, hstep, hauto, complete_of_error .illegalCmd nofun s⟩

/-! ### Bus errors -/

/-- Settles O14: LOAD ends the transaction with BUS before anything is written. -/
theorem busErrorInLoadWritesNothing : Obligations.BusErrorInLoadWritesNothing := by
  unfold Obligations.BusErrorInLoadWritesNothing
  intro s i hwf hr hd hb
  exact ⟨_, (exec_of_wf hwf s).trans (runCommand_of_error hr hd hb), completedStatus_eq .bus, rfl, rfl, rfl⟩

/-- A STORE with a rejected access: S is free, and the command ends with BUS (42_commands.md R186). -/
theorem storePhase_of_error {s : State} (h : storeRaces s.others s.eng.spAddr = false)
    (hb : busReply s.params s.eng.bus = .error) :
    storePhase s = .next (completeRun .bus (recordResult { popBus s with
      mem := freeState s.params.aw s.draws s.eng.spAddr s.mem
      draws := s.draws + 1 })) := by
  simp [storePhase, h, hb]

/-- Settles O15: STORE's draw comes after the two of LOAD, and since the range check passed it covers all of S. -/
theorem busErrorInStoreFreesState : Obligations.BusErrorInStoreFreesState := by
  unfold Obligations.BusErrorInStoreFreesState
  intro s i hm hwf hr hd hrace hload hstore
  have hexec : exec i s = storePhase (roundPhase (loaded (instrInLen i) s)) :=
    (exec_of_wf hwf s).trans (runCommand_of_ok hr hd hload)
  have hspace := (rangeFails_false_iff.1 hr).1
  have hmem := memRead_freeState hm s.params.aw (s.draws + 2) s.eng.spAddr
  refine ⟨_, hexec.trans (storePhase_of_error (s := roundPhase (loaded _ s)) hrace hstore), completedStatus_eq .bus, rfl, rfl,
    fun k hk => (hmem _).trans (if_pos (by omega)), ?_, fun a ha => (hmem a).trans (if_neg ?_)⟩
  · rw [completeRun_draws, recordResult_draws]
    show s.draws + 2 < s.draws + 2 + 1 + 1
    omega
  · have hout := inRange_false_iff.1 ha
    exact fun hin => hout ⟨hin.1, hin.2.1⟩

end Sys2Proof.Proofs
end

section
/-! PROOF. An error is reported once (spec 60_exceptions.md R213, R214, R220): whatever an engine does, the fault log is as before
or gains the code that STATUS shows. -/

namespace Sys2Proof.Proofs

open Sys2Proof Sys2Proof.Machine Sys2Proof.Laws

/-- The fault log after a completion with `err` (60_exceptions.md R220). -/
def logAfter (err : ErrCode) (log : List ErrCode) : List ErrCode := if err = .noError then log else log ++ [err]

theorem logAfter_of_error {err : ErrCode} (h : err ≠ .noError) (log : List ErrCode) : logAfter err log = log ++ [err] :=
  if_neg h

/-- The code a log has gained is the one it was given. -/
theorem eq_of_logAfter {err c : ErrCode} {log : List ErrCode} (h : logAfter err log = log ++ [c]) : err = c := by
  unfold logAfter at h
  split at h
  · simp at h
  · simpa using h

/-- From s to t the engine at `eng` reports `err`: the log gains it, STATUS shows it where it changed, and it is BUS only where
the platform has bus errors. An engine that ends no command with an error reports `noError`. -/
structure Reports (err : ErrCode) (s t : State) : Prop where
  log : t.faultLog = logAfter err s.faultLog
  status : t.eng.status = s.eng.status ∨ statusErr t.eng.status = errCode err
  bus : err = .bus → s.params.busErrors = true

/-- Every next state the operation answers reports one code. -/
def ReportsOne (f : State → Host.Outcome State Fault Refusal) : Prop :=
  ∀ s t : State, f s = .next t → ∃ err, Reports err s t

/-! ### The sequencer -/

theorem reports_quiet {s t : State} (hlog : t.faultLog = s.faultLog)
    (hstatus : t.eng.status = s.eng.status ∨ statusErr t.eng.status = 0) : Reports .noError s t :=
  ⟨hlog, hstatus, nofun⟩

theorem reports_complete (err : ErrCode) (h : err ≠ .bus) (s : State) : Reports err s (complete err s) :=
  ⟨rfl, .inr (statusErr_completed err), fun hb => absurd hb h⟩

/-- The platform rejects an access only where BUS_ERRORS holds (60_exceptions.md R214). -/
theorem busErrors_of_reply {p : Params} {bus : List BusReply} (h : busReply p bus = .error) : p.busErrors = true := by
  unfold busReply at h
  split at h
  · cases h
  · cases h
  · split at h
    next hp => exact hp
    · cases h
  · split at h <;> cases h

theorem loadPhase_reports {n : Nat} {s t : State} (h : loadPhase n s = .next t) :
    ∃ err, Reports err s t ∧ err ≠ .range := by
  obtain ⟨-, ⟨-, rfl⟩ | ⟨hb, rfl⟩ | ⟨-, rfl⟩⟩ := loadPhase_cases h
  · exact ⟨_, reports_quiet rfl (.inl rfl), nofun⟩
  · exact ⟨.bus, ⟨rfl, .inr (statusErr_completed .bus), fun _ => busErrors_of_reply hb⟩, nofun⟩
  · exact ⟨_, reports_quiet rfl (.inl rfl), nofun⟩

theorem storePhase_reports {s t : State} (h : storePhase s = .next t) : ∃ err, Reports err s t ∧ err ≠ .range := by
  obtain ⟨-, ⟨-, rfl⟩ | ⟨hb, rfl⟩ | ⟨-, rfl⟩⟩ := storePhase_cases h
  · exact ⟨_, reports_quiet rfl (.inl rfl), nofun⟩
  · exact ⟨.bus, ⟨rfl, .inr (statusErr_completed .bus), fun _ => busErrors_of_reply hb⟩, nofun⟩
  · exact ⟨_, reports_quiet rfl (.inr (statusErr_completed .noError)), nofun⟩

/-- A LOAD that goes on to the rounds has succeeded. -/
theorem eq_loaded_of_round {n : Nat} {s t : State} (h : loadPhase n s = .next t) (hp : t.eng.phase = .round) :
    t = loaded n s := by
  obtain ⟨-, ⟨-, rfl⟩ | ⟨-, rfl⟩ | ⟨-, rfl⟩⟩ := loadPhase_cases h
  · cases hp
  · cases (completeRun_eng_phase .bus (popBus s)).symm.trans hp
  · rfl

/-- A command reports one code, RANGE only where the range check fails (60_exceptions.md R213). -/
theorem exec_reports {i : Instr} {s t : State} (h : exec i s = .next t) :
    ∃ err, Reports err s t ∧
      (err = .range → rangeFails s.params.aw s.eng.spAddr s.eng.ipAddr (instrInLen i) = true) := by
  obtain ⟨-, rfl⟩ | ⟨-, hrun⟩ := exec_cases h
  · exact ⟨_, reports_complete .length nofun s, nofun⟩
  obtain ⟨hr, rfl⟩ | ⟨-, ⟨hl, -⟩ | ⟨u, hl, hp, hst⟩⟩ := runCommand_cases hrun
  · exact ⟨_, reports_complete .range nofun s, fun _ => hr⟩
  · obtain ⟨err, hrep, hne⟩ := loadPhase_reports hl
    exact ⟨err, hrep, fun he => absurd he hne⟩
  · obtain rfl := eq_loaded_of_round hl hp
    obtain ⟨err, hrep, hne⟩ := storePhase_reports hst
    exact ⟨err, ⟨hrep.log, hrep.status, hrep.bus⟩, fun he => absurd he hne⟩

theorem firstCheckError_ne_bus (aw : Nat) (w : Word) (sp ip : Nat) : firstCheckError aw w sp ip ≠ .bus := by
  unfold firstCheckError
  split
  next d _ => cases d <;> nofun
  next => split <;> nofun

theorem checkPhase_reports (s : State) : ∃ err, Reports err s (checkPhase s) := by
  rw [checkPhase_eq]
  split
  · exact ⟨_, reports_quiet rfl (.inl rfl)⟩
  · exact ⟨_, reports_complete _ (firstCheckError_ne_bus _ _ _ _) s⟩

theorem roundStep_reports (s : State) : Reports .noError s (roundStep s) := by
  unfold roundStep
  split <;> exact reports_quiet rfl (.inl rfl)

theorem engineStep_reportsOne : ReportsOne engineStep := by
  intro s t h
  obtain ⟨-, rfl⟩ | ⟨-, rfl⟩ | ⟨-, hl⟩ | ⟨-, -, rfl⟩ | ⟨-, hst⟩ := engineStep_cases h
  · exact ⟨_, reports_quiet rfl (.inl rfl)⟩
  · exact checkPhase_reports s
  · exact (loadPhase_reports hl).imp fun _ => And.left
  · exact ⟨_, roundStep_reports s⟩
  · exact (storePhase_reports hst).imp fun _ => And.left

theorem autoStep_reportsOne : ReportsOne autoStep := by
  intro s t h
  obtain ⟨-, i, -, he⟩ | ⟨-, d, -, rfl⟩ | ⟨-, hs⟩ := autoStep_cases h
  · exact (exec_reports he).imp fun _ => And.left
  · exact ⟨_, reports_complete _ (by cases d <;> nofun) s⟩
  · exact engineStep_reportsOne s t hs

/-- Settles O12: a failing range check is the transaction's first branch, and no other branch logs RANGE. -/
theorem rangeRaisedWhereBufferWraps : Obligations.RangeRaisedWhereBufferWraps := by
  unfold Obligations.RangeRaisedWhereBufferWraps
  have hraised : ∀ (s : State) (i : Instr), i.wf = true →
      rangeFails s.params.aw s.eng.spAddr s.eng.ipAddr (instrInLen i) = true →
      ∃ t, exec i s = .next t ∧ t.eng.status = 0x32 ∧ t.mem = s.mem ∧ t.eng.lanes = s.eng.lanes ∧
        t.faultLog = s.faultLog ++ [.range] := by
    intro s i hwf hr
    obtain ⟨hstatus, -, hkept⟩ := complete_of_error .range nofun s
    exact ⟨_, (exec_of_wf hwf s).trans (runCommand_of_range hr), hstatus, hkept⟩
  refine ⟨fun s hwrap => ?_, fun s len hlen hwrap => ?_, fun s t i h hlog => ?_⟩
  · exact hraised s .permute rfl (rangeFails_iff.2 (.inl hwrap))
  · exact hraised s (.absorb len) (decide_eq_true hlen) (rangeFails_iff.2 hwrap)
  · obtain ⟨err, hrep, hrange⟩ := exec_reports h
    exact rangeFails_iff.1 (hrange (eq_of_logAfter (hrep.log.symm.trans hlog)))

/-! ### Reset and register accesses -/

theorem reset_reportsOne : ReportsOne fun s => .next (resetEngine s) := by
  intro s t h
  cases h
  exact ⟨_, reports_quiet rfl (.inr (by rw [resetEngine_eng, engineAfterReset_status]; decide))⟩

theorem writeReg_reportsOne (off : Nat) (v : Word) : ReportsOne (writeReg off v) := by
  intro s t h
  obtain ⟨-, hc⟩ | ⟨-, rfl⟩ | ⟨-, rfl⟩ | ⟨-, rfl⟩ := writeReg_cases h
  · obtain ⟨-, -, -, -, rfl⟩ := writeCmd_cases hc
    exact ⟨_, reports_quiet rfl (.inr (by rw [acceptCmd_eng, latch_status_eq]; decide))⟩
  all_goals exact ⟨_, reports_quiet rfl (.inl rfl)⟩

theorem readReg_reportsOne (off : Nat) : ReportsOne (readReg off) := by
  intro s t h
  obtain ⟨hv, rfl⟩ := readReg_eq h
  exact ⟨_, reports_quiet rfl (.inl rfl)⟩

/-! ### Events and steps -/

/-- `Reports` for the whole machine: every engine's STATUS is as before or shows the code. -/
structure MachineReports (err : ErrCode) (s t : State) : Prop where
  log : t.faultLog = logAfter err s.faultLog
  status : ∀ (k : Nat) (e e' : Engine), s.engineAt k = some e → t.engineAt k = some e' →
    e'.status = e.status ∨ statusErr e'.status = errCode err
  bus : err = .bus → s.params.busErrors = true

theorem machineReports_quiet {s t : State} (hlog : t.faultLog = s.faultLog) (he : t.eng = s.eng)
    (ho : t.others = s.others) : MachineReports .noError s t where
  log := hlog
  status k e e' hk hk' := by
    rw [State.engineAt, he, ho] at hk'
    cases hk.symm.trans hk'
    exact .inl rfl
  bus := nofun

@[simp] theorem focus_faultLog (k : Nat) (s : State) : (focus k s).faultLog = s.faultLog := by rw [focus_eq]
@[simp] theorem focus_params (k : Nat) (s : State) : (focus k s).params = s.params := by rw [focus_eq]

/-- What the acting engine reports is what the machine does, since the other engines stay as they were. -/
theorem withEngine_reports {f : State → Host.Outcome State Fault Refusal} (hf : KeepsOthers f) (hr : ReportsOne f) {n : Nat}
    {s t : State} (h : withEngine n f s = .next t) : ∃ err, MachineReports err s t := by
  obtain ⟨u, hn, hu, rfl, -, hat⟩ := withEngine_engineAt hf h
  obtain ⟨err, hlog, hstatus, hbus⟩ := hr _ u hu
  rw [focus_faultLog] at hlog
  rw [focus_params] at hbus
  refine ⟨err, by rw [focus_faultLog, hlog], fun k e e' hk hk' => ?_, hbus⟩
  rw [hat] at hk'
  by_cases hkn : k = n
  · subst hkn
    rw [if_pos rfl] at hk'
    cases hn.symm.trans hk
    cases hk'
    exact hstatus
  · rw [if_neg hkn] at hk'
    cases hk.symm.trans hk'
    exact .inl rfl

theorem hostRead_reports {addr size : Nat} {s t : State} (h : hostRead addr size s = .next t) :
    ∃ err, MachineReports err s t := by
  obtain ⟨k, off, -, -, hr⟩ := hostRead_cases h
  exact withEngine_reports (readReg_keepsOthers off) (readReg_reportsOne off) hr

theorem handle_reports {ev : Event} {s t : State} (h : handle ev s = .next t) : ∃ err, MachineReports err s t := by
  cases ev with
  | engineStep k => exact withEngine_reports engineStep_keepsOthers engineStep_reportsOne h
  | reset k => exact withEngine_reports reset_keepsOthers reset_reportsOne h
  | regWrite addr size v =>
    obtain ⟨k, off, -, -, hw⟩ := hostWrite_cases h
    exact withEngine_reports (writeReg_keepsOthers off v) (writeReg_reportsOne off v) hw
  | regRead addr size => exact hostRead_reports h
  | wait base =>
    obtain ⟨u, hu, ⟨-, rfl⟩ | ⟨-, rfl⟩⟩ := hostWait_cases h
    · exact (hostRead_reports hu).imp fun _ hrep => ⟨hrep.log, hrep.status, hrep.bus⟩
    · exact hostRead_reports hu
  | memWrite who addr v =>
    obtain ⟨a, -, -, -, rfl⟩ := agentWrite_cases h
    exact ⟨_, machineReports_quiet rfl rfl rfl⟩
  | memRead who addr =>
    obtain ⟨a, -, -, ⟨-, rfl⟩ | ⟨-, -, rfl⟩⟩ := agentRead_cases h
    all_goals exact ⟨_, machineReports_quiet rfl rfl rfl⟩
  | hostRelease | hostAcquire | hostDeviceOrder =>
    cases h
    exact ⟨_, machineReports_quiet rfl rfl rfl⟩

theorem runEngines_reports {s t : State} (h : runEngines s = .next t) : ∃ err, MachineReports err s t := by
  obtain ⟨k, -, hk⟩ | ⟨-, rfl⟩ := runEngines_cases h
  · exact withEngine_reports autoStep_keepsOthers autoStep_reportsOne hk
  · exact ⟨_, machineReports_quiet rfl rfl rfl⟩

theorem step_reports {s t : State} (h : step s = .next t) : ∃ err, MachineReports err s t := by
  unfold step at h
  split at h
  next ev rest _ => exact (handle_reports h).imp fun _ hrep => ⟨hrep.log, hrep.status, hrep.bus⟩
  · exact runEngines_reports h

/-- Settles O16: a step logs the one code it reports, and that is BUS only where BUS_ERRORS holds. -/
theorem noBusErrorWithoutParameter : Obligations.NoBusErrorWithoutParameter := by
  unfold Obligations.NoBusErrorWithoutParameter
  intro s t hno h
  obtain ⟨err, hlog, -, hbus⟩ := step_reports h
  have hne : err ≠ .bus := fun he => ne_true_of_eq_false hno (hbus he)
  rw [hlog, logAfter]
  split
  · rfl
  · rw [List.count_append, List.count_singleton, beq_false_of_ne hne]
    rfl

/-- Settles O50: a step keeps the log and appends the one code it reports, which every STATUS it changed shows. -/
theorem faultLogRecordsEveryError : Obligations.FaultLogRecordsEveryError := by
  unfold Obligations.FaultLogRecordsEveryError
  intro s t h
  obtain ⟨err, hlog, hstatus, -⟩ := step_reports h
  obtain ⟨l, hl, -⟩ := complete_logs err s.faultLog
  have hkept : t.faultLog = s.faultLog ++ l := hlog.trans hl
  refine ⟨⟨l, hkept⟩, fun hgood => ?_, fun k e e' hk hk' hchanged herr => ?_⟩
  · exact (List.append_eq_nil_iff.1 (hkept.symm.trans hgood)).1
  · have hshown := (hstatus k e e' hk hk').resolve_left hchanged
    have hne : err ≠ .noError := by
      rintro rfl
      exact herr hshown
    exact ⟨err, hlog.trans (logAfter_of_error hne _), hshown.symm⟩

end Sys2Proof.Proofs
end

section
/-! PROOF. The command after an error (spec 60_exceptions.md R219): acceptance overwrites STATUS, and nothing before it reads more
of STATUS than BUSY. -/

namespace Sys2Proof.Proofs

open Sys2Proof Sys2Proof.Machine Sys2Proof.Laws

/-- The state with another STATUS of the engine at `eng`. -/
def setStatus (st : Word) (s : State) : State := { s with eng := { s.eng with status := st } }

theorem acceptCmd_setStatus (w st : Word) (s : State) : acceptCmd w (setStatus st s) = acceptCmd w s := rfl

theorem releaseMissing_setStatus (w st : Word) (s : State) : releaseMissing w (setStatus st s) = releaseMissing w s := rfl

/-- Of STATUS a CMD write depends on BUSY alone. -/
theorem writeCmd_setStatus {s : State} {st : Word} (h : statusBusy st = s.eng.busy) (w : Word) :
    writeCmd w (setStatus st s) = writeCmd w s := by
  have hbusy : (setStatus st s).eng.busy = s.eng.busy := h
  rw [writeCmd, hbusy, releaseMissing_setStatus, acceptCmd_setStatus]
  rfl

/-- Settles O38: with BUSY = 0 both ways, the CMD write is one and the same, and an acceptance shows BUSY alone. -/
theorem nextCommandIgnoresPreviousStatus : Obligations.NextCommandIgnoresPreviousStatus := by
  unfold Obligations.NextCommandIgnoresPreviousStatus
  intro s w st hb hst
  refine ⟨writeCmd_setStatus (hst.trans hb.symm) w, fun t ht => ?_⟩
  rw [writeReg_cmd] at ht
  obtain ⟨-, -, -, -, rfl⟩ := writeCmd_cases ht
  rw [acceptCmd_eng, latch_status_eq]
  decide

end Sys2Proof.Proofs
end

section
/-! PROOF. An access that never completes, and the bound on the steps of every other command (spec 70_reset_and_hazards.md R249):
a step of an engine that does not stall brings it nearer its end, and so does each step the machine takes. -/

namespace Sys2Proof.Proofs

open Sys2Proof Sys2Proof.Machine Sys2Proof.Laws

/-! ### An engine that stands still -/

theorem standsStill_of_loadHang {s : State} (hp : s.eng.phase = .load)
    (hd : touchesDevice s.params s.eng.spAddr s.eng.ipAddr s.eng.inLen = false)
    (hb : busReply s.params s.eng.bus = .hang) : standsStill s = true := by
  simp [standsStill, hp, hd, hb]

theorem standsStill_of_storeHang {s : State} (hp : s.eng.phase = .store)
    (hr : storeRaces s.others s.eng.spAddr = false) (hb : busReply s.params s.eng.bus = .hang) : standsStill s = true := by
  simp [standsStill, hp, hr, hb]

/-- An access stays without an answer only where BUS_CAN_STALL holds. -/
theorem busCanStall_of_reply {p : Params} {bus : List BusReply} (h : busReply p bus = .hang) : p.busCanStall = true := by
  rcases bus with - | ⟨- | - | -, bus⟩
  · cases h
  · cases h
  · simp only [busReply] at h
    split at h <;> cases h
  · simpa [busReply] using h

theorem standsStill_of_noStall {s : State} (h : s.params.busCanStall = false) : standsStill s = false := by
  have hreply : busReply s.params s.eng.bus ≠ .hang := fun hb => by simp [busCanStall_of_reply hb] at h
  unfold standsStill
  split <;> simp [hreply]

/-- A STORE with a write that never completes. -/
theorem storePhase_of_hang {s : State} (h : storeRaces s.others s.eng.spAddr = false)
    (hb : busReply s.params s.eng.bus = .hang) :
    storePhase s = .next { s with eng := { s.eng with phase := .store } } := by
  simp [storePhase, h, hb]

/-- Settles O17: the transaction stops in LOAD or in STORE, in a state that stands still. -/
theorem stalledAccessIsStuck : Obligations.StalledAccessIsStuck := by
  unfold Obligations.StalledAccessIsStuck
  refine fun s i hw hr hd => ⟨fun hb hlen => ?_, fun hok hb hrace => ?_⟩
  · refine ⟨_, (exec_of_wf hw s).trans (runCommand_of_hang hr hd hb), rfl, rfl, rfl, rfl, ?_⟩
    exact engineStep_standsStill (standsStill_of_loadHang rfl (hlen ▸ hd) hb)
  · have hstore := storePhase_of_hang (s := roundPhase (loaded (instrInLen i) s)) hrace hb
    rw [exec_of_wf hw, runCommand_of_ok hr hd hok, hstore]
    exact ⟨_, rfl, rfl, rfl, rfl, rfl, engineStep_standsStill (standsStill_of_storeHang rfl hrace hb)⟩

/-! ### The steps an engine has before it -/

section Work

variable {e : Engine}

theorem work_of_idle (h : e.phase = .idle) : e.work = 0 := by rw [Engine.work, h]
theorem work_of_check (h : e.phase = .check) : e.work = 27 := by rw [Engine.work, h]
theorem work_of_load (h : e.phase = .load) : e.work = 26 := by rw [Engine.work, h]
theorem work_of_round (h : e.phase = .round) : e.work = 25 - e.round.toNat := by rw [Engine.work, h]
theorem work_of_store (h : e.phase = .store) : e.work = 1 := by rw [Engine.work, h]

theorem work_le (e : Engine) : e.work ≤ 27 := by
  unfold Engine.work
  split <;> omega

/-- An engine with no step before it is idle. -/
theorem work_pos (hr : e.round.toNat < 24) (hp : e.phase ≠ .idle) : 0 < e.work := by
  unfold Engine.work
  split
  next h => exact absurd h hp
  all_goals omega

end Work

/-- A LOAD that does not hang leads to the rounds or to the end. -/
theorem loadPhase_work {n : Nat} {s t : State} (h : loadPhase n s = .next t) (hb : busReply s.params s.eng.bus ≠ .hang) :
    t.eng.work < 26 := by
  obtain ⟨-, ⟨hhang, -⟩ | ⟨-, rfl⟩ | ⟨-, rfl⟩⟩ := loadPhase_cases h
  · exact absurd hhang hb
  · exact (work_of_idle (completeRun_eng_phase _ _)).trans_lt (by decide)
  · exact (by decide : 25 - (0 : BitVec 5).toNat < 26)

/-- A STORE ends the command or hangs. -/
theorem storePhase_ends {s t : State} (h : storePhase s = .next t) :
    t.eng.phase = .idle ∨ (busReply s.params s.eng.bus = .hang ∧ t.eng.phase = .store) := by
  obtain ⟨-, ⟨hhang, rfl⟩ | ⟨-, rfl⟩ | ⟨-, rfl⟩⟩ := storePhase_cases h
  · exact .inr ⟨hhang, rfl⟩
  · exact .inl (completeRun_eng_phase _ _)
  · exact .inl (completeRun_eng_phase _ _)

/-- Below 23 the round counter advances, and the step of round 23 leads to STORE. -/
theorem roundStep_work {s : State} (hp : s.eng.phase = .round) (hr : s.eng.round.toNat < 24) :
    (roundStep s).eng.work < s.eng.work := by
  rw [work_of_round hp]
  by_cases hlt : s.eng.round.toNat < 23
  · have hround : (roundStep s).eng.phase = .round ∧ (roundStep s).eng.round = s.eng.round + 1 := by
      rw [roundStep_of_lt hlt]
      exact ⟨hp, rfl⟩
    rw [work_of_round hround.1, hround.2, toNat_round_succ hlt]
    omega
  · rw [roundStep_of_ge hlt]
    exact (work_of_store rfl).trans_lt (by omega)

/-- Past CHECK the command has ended or is in LOAD. -/
theorem checkPhase_work (s : State) : (checkPhase s).eng.work < 27 := by
  rw [checkPhase_eq]
  split
  · exact (work_of_load rfl).trans_lt (by decide)
  · exact (work_of_idle (complete_eng_phase _ _)).trans_lt (by decide)

/-- A step of a busy engine that does not stall. -/
theorem engineStep_work {s t : State} (hp : s.eng.phase ≠ .idle) (hs : standsStill s = false) (h : engineStep s = .next t) :
    t.eng.work < s.eng.work := by
  obtain ⟨hidle, -⟩ | ⟨hc, rfl⟩ | ⟨hl, hload⟩ | ⟨hround, hr, rfl⟩ | ⟨hst, hstore⟩ := engineStep_cases h
  · exact absurd hidle hp
  · rw [work_of_check hc]
    exact checkPhase_work s
  · rw [work_of_load hl]
    refine loadPhase_work hload fun hb => ?_
    simp [standsStill_of_loadHang hl (loadPhase_cases hload).1 hb] at hs
  · exact roundStep_work hround hr
  · rw [work_of_store hst]
    obtain hidle | ⟨hb, -⟩ := storePhase_ends hstore
    · exact (work_of_idle hidle).trans_lt (by decide)
    · simp [standsStill_of_storeHang hst (storePhase_cases hstore).1 hb] at hs

/-- A transaction ends the command or stops in LOAD or STORE. -/
theorem exec_work {i : Instr} {s t : State} (h : exec i s = .next t) : t.eng.work < 27 := by
  obtain ⟨err, rfl⟩ | rfl | rfl | hstore := exec_ends h
  · exact (work_of_idle (complete_eng_phase _ _)).trans_lt (by decide)
  · exact (work_of_load rfl).trans_lt (by decide)
  · exact (work_of_idle (completeRun_eng_phase _ _)).trans_lt (by decide)
  · obtain hidle | ⟨-, hst⟩ := storePhase_ends hstore
    · exact (work_of_idle hidle).trans_lt (by decide)
    · exact (work_of_store hst).trans_lt (by decide)

theorem autoStep_work {s t : State} (hp : s.eng.phase ≠ .idle) (hs : standsStill s = false) (h : autoStep s = .next t) :
    t.eng.work < s.eng.work := by
  obtain ⟨hc, i, -, he⟩ | ⟨hc, e, -, rfl⟩ | ⟨-, hstep⟩ := autoStep_cases h
  · rw [work_of_check hc]
    exact exec_work he
  · rw [work_of_check hc]
    exact (work_of_idle (complete_eng_phase _ _)).trans_lt (by decide)
  · exact engineStep_work hp hs hstep

/-! ### A command ends in a bounded number of steps -/

/-- All that can stop the sequencer: a buffer in device memory, or a STORE that races (20_memory.md R69, R75). -/
theorem engineStep_goes_or_refuses {s : State} (hr : s.eng.round.toNat < 24) :
    (∃ t, engineStep s = .next t) ∨ engineStep s = .refused .deviceMemory ∨ engineStep s = .refused .racingWrite := by
  unfold engineStep
  cases s.eng.phase with
  | idle => exact .inl ⟨_, rfl⟩
  | check => exact .inl ⟨_, rfl⟩
  | load =>
    simp only [loadPhase]
    cases touchesDevice s.params s.eng.spAddr s.eng.ipAddr s.eng.inLen with
    | true => exact .inr (.inl rfl)
    | false => cases busReply s.params s.eng.bus <;> exact .inl ⟨_, rfl⟩
  | round => exact .inl ⟨_, if_pos hr⟩
  | store =>
    simp only [storePhase]
    cases storeRaces s.others s.eng.spAddr with
    | true => exact .inr (.inr rfl)
    | false => cases busReply s.params s.eng.bus <;> exact .inl ⟨_, rfl⟩

/-- As many steps as the engine has before it bring it to its end, by induction on their number: each leaves fewer. -/
theorem engineSteps_complete {n : Nat} {s : State} (hi : s.Inv) (hq : s.params.busCanStall = false) (hn : s.eng.work ≤ n) :
    (∃ t, engineSteps n s = .next t ∧ t.eng.phase = .idle) ∨ engineSteps n s = .refused .deviceMemory ∨
      engineSteps n s = .refused .racingWrite := by
  induction n generalizing s with
  | zero =>
    refine .inl ⟨s, rfl, ?_⟩
    by_contra hp
    exact absurd (work_pos (eng_inv hi).round_lt hp) (by omega)
  | succ n ih =>
    by_cases hp : s.eng.phase = .idle
    · exact .inl ⟨s, engineSteps_fix (engineStep_idle hp) _, hp⟩
    · rw [engineSteps]
      obtain ⟨t, ht⟩ | ht | ht := engineStep_goes_or_refuses (eng_inv hi).round_lt
      · have hwork := engineStep_work hp (standsStill_of_noStall hq) ht
        have hparams := (platformOf_eq_iff.1 (engineStep_keepsPlatform s t ht)).1
        rw [ht, andThen_next]
        exact ih (engineStep_keepsInv s t hi ht) (hparams ▸ hq) (by omega)
      · exact .inr (.inl (by rw [ht, andThen_refused]))
      · exact .inr (.inr (by rw [ht, andThen_refused]))

/-- Settles O35: an engine has at most 27 steps before it. -/
theorem commandCompletesInBoundedSteps : Obligations.CommandCompletesInBoundedSteps := by
  unfold Obligations.CommandCompletesInBoundedSteps
  exact fun s hi hq => engineSteps_complete hi hq (work_le s.eng)

/-! ### The machine with nothing on the agenda -/

theorem step_of_noAgenda {s : State} (h : s.agenda = []) : step s = runEngines s := by rw [step, h]

theorem focus_eng_mem {k : Nat} {s : State} (hk : k ≤ s.others.length) : (focus k s).eng ∈ s.eng :: s.others := by
  obtain ⟨e, he⟩ := engineAt_eq_some hk
  rw [focus_eng he]
  exact List.mem_of_getElem? he

/-- Settles O6: no engine is the next to run. -/
theorem idleMachineDoesNothing : Obligations.IdleMachineDoesNothing := by
  unfold Obligations.IdleMachineDoesNothing
  intro s ha hidle
  rw [step_of_noAgenda ha, runEngines]
  cases hn : nextToRun s with
  | none => rfl
  | some k =>
    obtain ⟨hk, hbusy, -⟩ := nextToRun_some hn
    simp [hidle _ (focus_eng_mem hk)] at hbusy

/-- Which engine stands at `eng` makes no difference to the steps that all have before them. -/
theorem work_focus (k : Nat) (s : State) : (focus k s).work = s.work := by
  cases k with
  | zero => rfl
  | succ j => exact ((perm_swapEngine j s).map Engine.work).sum_eq

/-- Settles O57: the next to run is busy and does not stall, so its step leaves it fewer, and the other engines as many. -/
theorem noBusyInstanceIsPassedOver : Obligations.NoBusyInstanceIsPassedOver := by
  unfold Obligations.NoBusyInstanceIsPassedOver
  intro s t hi ha h
  rw [step_of_noAgenda ha] at h
  obtain ⟨k, hn, ht⟩ | ⟨hn, rfl⟩ := runEngines_cases h
  · right
    obtain ⟨-, hbusy, hstill⟩ := nextToRun_some hn
    obtain ⟨u, -, hu, rfl, -, -⟩ := withEngine_engineAt autoStep_keepsOthers ht
    have hwork := autoStep_work ((eng_inv (inv_focus hi k)).busy_phase.1 hbusy) hstill hu
    have hothers := autoStep_keepsOthers _ u hu
    rw [work_focus, ← work_focus k s]
    simp only [State.work, List.map_cons, List.sum_cons, hothers]
    omega
  · exact .inl ⟨rfl, fun k hk hb => nextToRun_none hn hk hb⟩

end Sys2Proof.Proofs
end

section
/-! PROOF. What a command does not depend on: the data it works on (spec 70_reset_and_hazards.md R253), and the pointer registers
once it is accepted (R246). -/

namespace Sys2Proof.Proofs

open Sys2Proof Sys2Proof.Machine Sys2Proof.Laws

/-! ### Two runs side by side -/

/-- Going on alike from states that `view` shows alike. -/
theorem outcomesAgree_andThen {α : Type} {view : State → α} {o p : Host.Outcome State Fault Refusal}
    {f g : State → Host.Outcome State Fault Refusal} (h : outcomesAgree view o p)
    (hfg : ∀ s t, view s = view t → outcomesAgree view (f s) (g t)) : outcomesAgree view (andThen o f) (andThen p g) := by
  cases o with
  | next s =>
    cases p with
    | next t => exact hfg s t h
    | fault | refused => exact h.elim
  | fault r =>
    cases p with
    | fault q => exact h
    | next | refused => exact h.elim
  | refused r =>
    cases p with
    | refused q => exact h
    | next | fault => exact h.elim

/-- What each sequencer step keeps alike, any number of them does. -/
theorem engineSteps_agree {α : Type} {view : State → α}
    (h : ∀ s t, view s = view t → outcomesAgree view (engineStep s) (engineStep t)) (n : Nat) :
    ∀ s t, view s = view t → outcomesAgree view (engineSteps n s) (engineSteps n t) := by
  induction n with
  | zero => exact fun _ _ hst => hst
  | succ n ih => exact fun s t hst => outcomesAgree_andThen (h s t hst) ih

/-! ### Other data (R253) -/

/-- The state with other contents of memory and of L. -/
def withData (m : List Host.Cell) (L : Lanes) (s : State) : State :=
  { s with mem := m, eng := { s.eng with lanes := L } }

/-- The state without the data a command works on. -/
def dataless (s : State) : State := withData [] (Vector.replicate 25 0) s

/-- States show the same but for their data where they agree in everything else. -/
theorem dataless_congr {s t : State} (he : { s.eng with lanes := t.eng.lanes } = t.eng)
    (hr : { s with eng := t.eng, mem := t.mem } = t) : dataless s = dataless t := by
  rw [← hr, ← he]
  rfl

/-- States alike but for their data differ in their data alone. -/
theorem eq_withData_of_dataless {s t : State} (h : dataless s = dataless t) : t = withData t.mem t.eng.lanes s := by
  have hdata : withData t.mem t.eng.lanes (dataless s) = withData t.mem t.eng.lanes (dataless t) := by rw [h]
  exact hdata.symm

section OtherData

variable (m : List Host.Cell) (L : Lanes) (s : State)

theorem checkPhase_withData : dataless (checkPhase s) = dataless (checkPhase (withData m L s)) := by
  have hcheck : firstCheckError (withData m L s).params.aw (withData m L s).eng.curW (withData m L s).eng.spAddr
      (withData m L s).eng.ipAddr = firstCheckError s.params.aw s.eng.curW s.eng.spAddr s.eng.ipAddr := rfl
  rw [checkPhase_eq, checkPhase_eq, hcheck]
  split <;> exact dataless_congr rfl rfl

theorem loadPhase_withData (n : Nat) : outcomesAgree dataless (loadPhase n s) (loadPhase n (withData m L s)) := by
  unfold loadPhase withData Engine.spAddr Engine.ipAddr
  cases touchesDevice s.params s.eng.curSp.toNat s.eng.curIp.toNat n with
  | true => rfl
  | false => cases busReply s.params s.eng.bus <;> exact dataless_congr rfl rfl

theorem roundStep_withData : dataless (roundStep s) = dataless (roundStep (withData m L s)) := by
  by_cases h : s.eng.round.toNat < 23
  · rw [roundStep_of_lt h, roundStep_of_lt (s := withData m L s) h]
    exact dataless_congr rfl rfl
  · rw [roundStep_of_ge h, roundStep_of_ge (s := withData m L s) h]
    exact dataless_congr rfl rfl

theorem storePhase_withData : outcomesAgree dataless (storePhase s) (storePhase (withData m L s)) := by
  unfold storePhase withData Engine.spAddr
  cases storeRaces s.others s.eng.curSp.toNat with
  | true => rfl
  | false => cases busReply s.params s.eng.bus <;> exact dataless_congr rfl rfl

theorem engineStep_withData : outcomesAgree dataless (engineStep s) (engineStep (withData m L s)) := by
  have hphase : (withData m L s).eng.phase = s.eng.phase := rfl
  have hround : (withData m L s).eng.round = s.eng.round := rfl
  unfold engineStep
  rw [hphase, hround]
  cases s.eng.phase with
  | idle => rfl
  | check => exact checkPhase_withData m L s
  | load => exact loadPhase_withData m L s _
  | round =>
    by_cases hr : s.eng.round.toNat < 24
    · simp only [if_pos hr]
      exact roundStep_withData m L s
    · simp only [if_neg hr]
      rfl
  | store => exact storePhase_withData m L s

end OtherData

/-- Settles O36: each step of the sequencer ends alike from other data, and leaves states alike but for their data. -/
theorem timingIsDataIndependent : Obligations.TimingIsDataIndependent := by
  unfold Obligations.TimingIsDataIndependent
  intro s m L n
  refine engineSteps_agree (view := dataless) (fun u v h => ?_) n s (withData m L s) rfl
  rw [eq_withData_of_dataless h]
  exact engineStep_withData _ _ u

/-! ### Other pointer registers (R246) -/

/-- The state with the pointer registers, and their written marks, of another engine. -/
def withPointersOf (d : Engine) (s : State) : State :=
  { s with
    eng := { s.eng with
      statePtr := d.statePtr
      inPtr := d.inPtr
      statePtrWritten := d.statePtrWritten
      inPtrWritten := d.inPtrWritten } }

/-- From other pointer registers the operation does the same, and leaves them as they are. -/
def IgnoresPointers (f : State → Host.Outcome State Fault Refusal) : Prop :=
  ∀ (d : Engine) (s : State), f (withPointersOf d s) = andThen (f s) fun t => .next (withPointersOf d t)

/-- One operation after another. -/
theorem ignoresPointers_andThen {f g : State → Host.Outcome State Fault Refusal} (hf : IgnoresPointers f)
    (hg : IgnoresPointers g) : IgnoresPointers fun s => andThen (f s) g := by
  intro d s
  simp only [hf d s, andThen_assoc, andThen_next, hg d]

theorem checkPhase_withPointersOf (d : Engine) (s : State) :
    checkPhase (withPointersOf d s) = withPointersOf d (checkPhase s) := by
  have hcheck : firstCheckError (withPointersOf d s).params.aw (withPointersOf d s).eng.curW (withPointersOf d s).eng.spAddr
      (withPointersOf d s).eng.ipAddr = firstCheckError s.params.aw s.eng.curW s.eng.spAddr s.eng.ipAddr := rfl
  rw [checkPhase_eq, checkPhase_eq, hcheck]
  split <;> rfl

theorem roundStep_withPointersOf (d : Engine) (s : State) :
    roundStep (withPointersOf d s) = withPointersOf d (roundStep s) := by
  by_cases h : s.eng.round.toNat < 23
  · rw [roundStep_of_lt h, roundStep_of_lt (s := withPointersOf d s) h]
    rfl
  · rw [roundStep_of_ge h, roundStep_of_ge (s := withPointersOf d s) h]
    rfl

theorem loadPhase_ignoresPointers (n : Nat) : IgnoresPointers (loadPhase n) := by
  intro d s
  unfold loadPhase withPointersOf Engine.spAddr Engine.ipAddr
  cases touchesDevice s.params s.eng.curSp.toNat s.eng.curIp.toNat n with
  | true => rfl
  | false => cases busReply s.params s.eng.bus <;> rfl

theorem storePhase_ignoresPointers : IgnoresPointers storePhase := by
  intro d s
  unfold storePhase withPointersOf Engine.spAddr
  cases storeRaces s.others s.eng.curSp.toNat with
  | true => rfl
  | false => cases busReply s.params s.eng.bus <;> rfl

theorem engineStep_ignoresPointers : IgnoresPointers engineStep := by
  intro d s
  have hphase : (withPointersOf d s).eng.phase = s.eng.phase := rfl
  have hround : (withPointersOf d s).eng.round = s.eng.round := rfl
  unfold engineStep
  rw [hphase, hround]
  cases s.eng.phase with
  | idle => rfl
  | check => exact congrArg _ (checkPhase_withPointersOf d s)
  | load => exact loadPhase_ignoresPointers _ d s
  | round =>
    by_cases hr : s.eng.round.toNat < 24
    · simp only [if_pos hr, roundStep_withPointersOf, andThen_next]
    · simp only [if_neg hr, andThen_refused]
  | store => exact storePhase_ignoresPointers d s

theorem engineSteps_ignoresPointers (n : Nat) : IgnoresPointers (engineSteps n) := by
  induction n with
  | zero => exact fun _ _ => rfl
  | succ n ih => exact ignoresPointers_andThen engineStep_ignoresPointers ih

/-- What a transaction does once LOAD has answered: the rounds and STORE, where LOAD leads to them. -/
def afterLoad (s : State) : Host.Outcome State Fault Refusal :=
  if s.eng.phase = .round then storePhase (roundPhase s) else .next s

theorem runCommand_of_fits {n : Nat} {s : State} (h : rangeFails s.params.aw s.eng.spAddr s.eng.ipAddr n = false) :
    runCommand n s = andThen (loadPhase n s) afterLoad := if_neg (ne_true_of_eq_false h)

theorem afterLoad_ignoresPointers : IgnoresPointers afterLoad := by
  intro d s
  have hphase : (withPointersOf d s).eng.phase = s.eng.phase := rfl
  unfold afterLoad
  rw [hphase]
  split
  · exact storePhase_ignoresPointers d (roundPhase s)
  · rfl

theorem runCommand_ignoresPointers (n : Nat) : IgnoresPointers (runCommand n) := by
  intro d s
  cases hr : rangeFails s.params.aw s.eng.spAddr s.eng.ipAddr n with
  | true =>
    rw [runCommand_of_range hr, runCommand_of_range (s := withPointersOf d s) hr]
    rfl
  | false =>
    rw [runCommand_of_fits hr, runCommand_of_fits (s := withPointersOf d s) hr]
    exact ignoresPointers_andThen (loadPhase_ignoresPointers n) afterLoad_ignoresPointers d s

theorem exec_ignoresPointers (i : Instr) : IgnoresPointers (exec i) := by
  intro d s
  cases hw : i.wf with
  | true => rw [exec_of_wf hw, exec_of_wf hw, runCommand_ignoresPointers]
  | false =>
    rw [exec_of_not_wf hw, exec_of_not_wf hw]
    rfl

/-- What does not show the pointer registers shows the same after an operation that ignores them. -/
theorem outcomesAgree_of_ignoresPointers {α : Type} {view : State → α} {f : State → Host.Outcome State Fault Refusal}
    (hf : IgnoresPointers f) {d : Engine} (hview : ∀ t, view (withPointersOf d t) = view t) (s : State) :
    outcomesAgree view (f s) (f (withPointersOf d s)) := by
  rw [hf d s]
  cases f s with
  | next t => exact (hview t).symm
  | fault r => rfl
  | refused r => rfl

/-- A pointer write gives the state other pointer registers, and nothing else (10_state.md R43, R44). -/
theorem eq_withPointersOf_of_writeReg {off : Nat} {v : Word} {s t : State} (hoff : off = 0x10 ∨ off = 0x18)
    (h : writeReg off v s = .next t) : t = withPointersOf t.eng s := by
  obtain rfl | rfl := hoff
  · rw [writeReg_statePtr] at h
    cases h
    rfl
  · rw [writeReg_inPtr] at h
    cases h
    rfl

/-- Settles O42: a command ignores the pointer registers, which are all that a pointer write changes. -/
theorem pointerWritesLeaveRunningCommand : Obligations.PointerWritesLeaveRunningCommand := by
  unfold Obligations.PointerWritesLeaveRunningCommand
  intro s t off v hoff h
  rw [eq_withPointersOf_of_writeReg hoff h]
  exact ⟨fun n => outcomesAgree_of_ignoresPointers (engineSteps_ignoresPointers n) (fun _ => rfl) s,
    fun i => outcomesAgree_of_ignoresPointers (exec_ignoresPointers i) (fun _ => rfl) s⟩

end Sys2Proof.Proofs
end

section
/-! PROOF. Reset, and a CMD write while BUSY = 1 (spec 70_reset_and_hazards.md R240, R241, R244). -/

namespace Sys2Proof.Proofs

open Sys2Proof Sys2Proof.Machine Sys2Proof.Laws

/-- What a reset during a command, or outside one, leaves of memory (R241). -/
theorem memRead_resetEngine {s : State} (hm : memWf s.mem) (a : Nat) :
    memRead (resetEngine s).mem a =
      if s.eng.busy = true ∧ inRange a s.eng.spAddr 200 = true ∧ a < 2 ^ s.params.aw then Config.freeByte s.draws a
      else memRead s.mem a := by
  rw [resetEngine_mem]
  cases s.eng.busy with
  | true => simp [memRead_freeState hm, inRange_iff, and_assoc]
  | false => simp

/-- Settles O45: the fields of the engine after reset, and of memory the bytes of S of a busy engine alone. -/
theorem resetAbortsAndFreesState : Obligations.ResetAbortsAndFreesState := by
  unfold Obligations.ResetAbortsAndFreesState
  intro s hm
  have hidle : (resetEngine s).eng.phase = .idle := by simp
  refine ⟨resetEngine s, rfl, hidle, by simp, by simp, by simp, engineStep_idle hidle, by simp, by simp, fun hb => ?_,
    by simp, fun hb k hk hlt => ?_, fun a ha => ?_⟩
  · simp [hb]
  · rw [memRead_resetEngine hm, if_pos ⟨hb, inRange_iff.2 (by omega), hlt⟩]
  · rw [memRead_resetEngine hm, if_neg (by simp [ha])]

theorem writeCmd_of_busy {w : Word} {s : State} (h : s.eng.busy = true) : writeCmd w s = .refused .cmdWhileBusy := if_pos h

/-- A CMD write to the first block that holds its address, of a busy engine: a legal access reaches CMD and is refused there. -/
theorem hostWrite_cmd_of_busy {s : State} {k : Nat} {e : Engine} (w : Word) (he : s.engineAt k = some e) (hb : e.busy = true)
    (hfirst : ∀ (j : Nat) (e' : Engine), j < k → s.engineAt j = some e' → inRange e.base e'.base 0x20 = false) :
    hostWrite e.base 8 w s = if e.base % 8 = 0 then .refused .cmdWhileBusy else .refused .badRegisterAccess := by
  obtain ⟨hlegal, hillegal⟩ := registerBlockAccessForms.1 s k e 0x00 8 w he (by decide) hfirst
  rw [Nat.add_zero] at hlegal hillegal
  by_cases h8 : e.base % 8 = 0
  · have hbusy : (focus k s).eng.busy = true := by rw [focus_eng he, hb]
    rw [if_pos h8, (hlegal ⟨rfl, h8, .inl rfl⟩).1, writeReg_cmd, writeCmd_of_busy hbusy, andThen_refused]
  · rw [if_neg h8, (hillegal fun h => h8 h.2.1).1]

/-- Settles O39: the step is that write, with the agenda's first entry taken off. -/
theorem cmdWriteWhileBusyRefused : Obligations.CmdWriteWhileBusyRefused := by
  unfold Obligations.CmdWriteWhileBusyRefused
  intro s k e w rest he hb hfirst ha
  rw [step, ha]
  exact hostWrite_cmd_of_busy (s := { s with agenda := rest }) w he hb hfirst

end Sys2Proof.Proofs
end

section
/-! PROOF. The fixed tables (spec 40_rom_and_networks.md R121 to R129) against the derivations the spec gives them. -/

namespace Sys2Proof.Proofs

open Sys2Proof Sys2Proof.Machine Sys2Proof.Laws

/-- The ROM is what the shift register of R122 gives. -/
theorem rcRom_eq_rcDerived : ∀ i, i < 24 → rcRom i = rcDerived i := by decide

/-- Settles O25: the tables are closed, so each entry evaluates to what its derivation gives. -/
theorem tablesMatchDerivations : Obligations.TablesMatchDerivations := by
  unfold Obligations.TablesMatchDerivations
  refine ⟨rcRom_eq_rcDerived, ?romBits, rfl, ?walk, ?wiring, ?network⟩
  case romBits => decide
  case walk => decide
  case wiring => decide
  case network => decide

end Sys2Proof.Proofs
end

section
/-! PROOF. The five step mappings and F are bijections (spec 41_round_function.md R162), and so each round constant matters
(40_rom_and_networks.md R123). The states are finite in number, so a map of them is a bijection once the state after it fixes the
state before it. Theta is the one mapping whose inverse is not plain: on the column parities it multiplies by u = 1 + x⁴ + xz,
where x moves by a column and z rotates by one bit, so that x⁵ = 1 and z⁶⁴ = 1. Squaring u six times leaves 1 + x + x⁴, whose
cube is 1. -/

namespace Sys2Proof.Proofs

open Sys2Proof Sys2Proof.Machine Sys2Proof.Laws

/-! ### Rotations -/

theorem rotl64_xor (v w : Lane) (n : Nat) : rotl64 (v ^^^ w) n = rotl64 v n ^^^ rotl64 w n := by
  apply BitVec.eq_of_getLsbD_eq
  intro k hk
  simp only [rotl64_getLsbD _ n hk, BitVec.getLsbD_xor]

theorem rotl64_rotl64 (v : Lane) (m n : Nat) : rotl64 (rotl64 v m) n = rotl64 v (m + n) := by
  apply BitVec.eq_of_getLsbD_eq
  intro k hk
  have hsource : ((k + 64 - n % 64) % 64 + 64 - m % 64) % 64 = (k + 64 - (m + n) % 64) % 64 := by omega
  rw [rotl64_getLsbD _ n hk, rotl64_getLsbD _ m (Nat.mod_lt _ (by decide)), rotl64_getLsbD _ _ hk, hsource]

theorem rotl64_injective (n : Nat) : Function.Injective fun v => rotl64 v n := by
  have hback : Function.LeftInverse (fun v => rotl64 v (64 - n % 64)) fun v => rotl64 v n := fun v => by
    have hwhole : (n + (64 - n % 64)) % 64 = 0 := by omega
    simp only [rotl64_rotl64]
    rw [← rotl64_mod, hwhole, rotl64_zero]
  exact hback.injective

/-! ### Theta (R150) -/

theorem lane_add_five (A : Lanes) (x y : Nat) : lane A (x + 5) y = lane A x y := by
  rw [← lane_mod_x, Nat.add_mod_right, lane_mod_x]

theorem columnParity_add_five (A : Lanes) (x : Nat) : columnParity A (x + 5) = columnParity A x := by
  simp only [columnParity, lane_add_five]

/-- For n a power of 2, the n-th power of u: 1 + x⁴ⁿ + xⁿzⁿ. -/
def spread (n : Nat) (P : Nat → Lane) (x : Nat) : Lane := P x ^^^ P (x + 4 * n) ^^^ rotl64 (P (x + n)) n

/-- Each of a column's five lanes takes the same effect, so the parity takes it once. -/
theorem columnParity_theta (A : Lanes) : columnParity (theta A) = spread 1 (columnParity A) := by
  funext x
  have hodd : columnParity (theta A) x = columnParity A x ^^^ thetaEffect A x := by
    simp only [columnParity, lane_theta]
    ac_nf
    simp [← BitVec.xor_assoc]
  rw [hodd, thetaEffect, ← BitVec.xor_assoc, spread]

theorem xor_cancels_pairs (a b c d e f : Lane) :
    (a ^^^ b ^^^ c) ^^^ (b ^^^ d ^^^ e) ^^^ (c ^^^ e ^^^ f) = a ^^^ d ^^^ f := by
  ac_nf
  simp [← BitVec.xor_assoc]

/-- Squaring leaves the squares of the three terms, since each mixed term comes twice. -/
theorem spread_spread (n : Nat) (P : Nat → Lane) : spread n (spread n P) = spread (2 * n) P := by
  funext x
  have hdown : x + 4 * n + 4 * n = x + 4 * (2 * n) := by omega
  have hmixed : x + 4 * n + n = x + n + 4 * n := by omega
  have hup : x + n + n = x + 2 * n := by omega
  simp only [spread, rotl64_xor, rotl64_rotl64, hdown, hmixed, hup, ← Nat.two_mul n]
  exact xor_cancels_pairs _ _ _ _ _ _

theorem spread_two_pow_congr {P Q : Nat → Lane} (h : spread 1 P = spread 1 Q) (k : Nat) :
    spread (2 ^ k) P = spread (2 ^ k) Q := by
  induction k with
  | zero => exact h
  | succ k ih => rw [Nat.pow_succ', ← spread_spread, ← spread_spread, ih]

/-- Around the five columns, u to the 64th is 1 + x + x⁴. -/
theorem spread_sixtyfour (A : Lanes) (x : Nat) :
    spread 64 (columnParity A) x = columnParity A x ^^^ columnParity A (x + 1) ^^^ columnParity A (x + 4) := by
  have hdown : (x + 4 * 64) % 5 = (x + 1) % 5 := by omega
  have hup : (x + 64) % 5 = (x + 4) % 5 := by omega
  rw [spread, ← columnParity_mod A (x + 4 * 64), hdown, ← columnParity_mod A (x + 64), hup, ← rotl64_mod]
  simp

/-- The square of 1 + x + x⁴ is its inverse: 1 + x² + x³. -/
theorem columnParity_eq_spread (A : Lanes) (x : Nat) :
    columnParity A x = spread 64 (columnParity A) x ^^^ spread 64 (columnParity A) (x + 2) ^^^
      spread 64 (columnParity A) (x + 3) := by
  have hone : columnParity A (x + 6) = columnParity A (x + 1) := columnParity_add_five A (x + 1)
  have htwo : columnParity A (x + 7) = columnParity A (x + 2) := columnParity_add_five A (x + 2)
  simp only [spread_sixtyfour, Nat.add_assoc, Nat.reduceAdd, hone, htwo]
  ac_nf
  simp

/-- The parities before Theta follow from those after it, and with them its effect. -/
theorem theta_injective : Function.Injective theta := by
  intro A B h
  have hspread : spread 64 (columnParity A) = spread 64 (columnParity B) :=
    spread_two_pow_congr (by rw [← columnParity_theta, h, columnParity_theta]) 6
  have hparity : columnParity A = columnParity B := by
    funext x
    rw [columnParity_eq_spread, hspread, ← columnParity_eq_spread]
  apply lanes_ext
  intro x y _ _
  have hlane : lane (theta A) x y = lane (theta B) x y := by rw [h]
  rwa [lane_theta, lane_theta, thetaEffect, thetaEffect, hparity, BitVec.xor_left_inj] at hlane

/-! ### Rho and Pi (R151, R152) -/

theorem rho_injective : Function.Injective rho := by
  intro A B h
  apply lanes_ext
  intro x y _ _
  have hlane : lane (rho A) x y = lane (rho B) x y := by rw [h]
  rw [lane_rho, lane_rho] at hlane
  exact rotl64_injective _ hlane

theorem pi_injective : Function.Injective pi := by
  intro A B h
  apply lanes_ext
  intro x y hx _
  rw [← lane_pi_destination A y hx, h, lane_pi_destination B y hx]

/-! ### Chi (R153) -/

/-- One bit of a row's five lanes: the bit before Chi from the bits after it, Chi's own form with another of it in place of its
third bit. -/
theorem chiBit_inverse : ∀ a b c d e : Bool,
    (a ^^ (!b && c) ^^ (!(b ^^ (!c && d)) && (c ^^ (!d && e) ^^ (!(d ^^ (!e && a)) && (e ^^ (!a && b)))))) = a := by
  decide

/-- A lane before Chi from the five lanes of its row after it. -/
theorem lane_eq_of_chi (A : Lanes) (x y : Nat) :
    lane A x y = lane (chi A) x y ^^^
      (~~~lane (chi A) (x + 1) y &&& (lane (chi A) (x + 2) y ^^^
        (~~~lane (chi A) (x + 3) y &&& lane (chi A) (x + 4) y))) := by
  have hzero : lane A (x + 5) y = lane A x y := lane_add_five A x y
  have hone : lane A (x + 6) y = lane A (x + 1) y := lane_add_five A (x + 1) y
  simp only [lane_chi, Nat.add_assoc, Nat.reduceAdd, hzero, hone]
  ext k hk
  simp only [BitVec.getElem_xor, BitVec.getElem_and, BitVec.getElem_not]
  exact (chiBit_inverse _ _ _ _ _).symm

theorem chi_injective : Function.Injective chi := by
  intro A B h
  apply lanes_ext
  intro x y _ _
  rw [lane_eq_of_chi A, h, ← lane_eq_of_chi B]

/-! ### Iota (R154) -/

theorem iotaWith_involutive (c : Lane) : Function.Involutive (iotaWith c) := by
  intro A
  apply lanes_ext
  intro x y hx hy
  simp only [iotaWith, lane_lanesXY, Nat.mod_eq_of_lt hx, Nat.mod_eq_of_lt hy]
  split_ifs
  · rw [BitVec.xor_assoc, BitVec.xor_self, BitVec.xor_zero]
  · rfl

/-! ### The round and F (R155, R157) -/

theorem bijective_of_injective {f : Lanes → Lanes} (hf : Function.Injective f) : Function.Bijective f := by
  have hlanes : Function.Injective fun (A : Lanes) (p : Fin 5 × Fin 5) => lane A p.1 p.2 := fun A B h =>
    lanes_ext fun x y hx hy => congrFun h (⟨x, hx⟩, ⟨y, hy⟩)
  have : Finite Lanes := Finite.of_injective _ hlanes
  exact Finite.injective_iff_bijective.1 hf

theorem iota_bijective (i : Nat) : Function.Bijective fun A => iota A i := (iotaWith_involutive (rcRom i)).bijective

theorem rnd_injective (i : Nat) : Function.Injective fun A => rnd A i :=
  (iota_bijective i).injective.comp (chi_injective.comp (pi_injective.comp (rho_injective.comp theta_injective)))

theorem roundsF_injective (n : Nat) : Function.Injective fun A => roundsF A n := by
  induction n with
  | zero => exact Function.injective_id
  | succ n ih => exact (rnd_injective n).comp ih

theorem keccakF_injective : Function.Injective keccakF := fun A B h => roundsF_injective 24 (by simpa only [keccakF] using h)

/-- Settles O27: each step mapping can be undone, and F is a composition of them. -/
theorem permutationIsBijective : Obligations.PermutationIsBijective := by
  unfold Obligations.PermutationIsBijective
  exact ⟨bijective_of_injective theta_injective, bijective_of_injective rho_injective, bijective_of_injective pi_injective,
    bijective_of_injective chi_injective, iota_bijective, bijective_of_injective keccakF_injective⟩

/-! ### Another round-constant ROM (40_rom_and_networks.md R123) -/

theorem iotaWith_ne {c d : Lane} (h : c ≠ d) (A : Lanes) : iotaWith c A ≠ iotaWith d A := by
  intro heq
  have hlane : lane (iotaWith c A) 0 0 = lane (iotaWith d A) 0 0 := by rw [heq]
  simp only [iotaWith, lane_lanesXY] at hlane
  exact h ((BitVec.xor_right_inj _).1 hlane)

theorem roundsWithRom_congr {rom rom' : Nat → Lane} (A : Lanes) {n : Nat} (h : ∀ j, j < n → rom j = rom' j) :
    roundsWithRom rom A n = roundsWithRom rom' A n := by
  induction n with
  | zero => rfl
  | succ n ih => rw [roundsWithRom, roundsWithRom, ih fun j hj => h j (by omega), h n (by omega)]

theorem roundsWithRom_rcRom (A : Lanes) (n : Nat) : roundsWithRom rcRom A n = roundsF A n := by
  induction n with
  | zero => rfl
  | succ n ih => rw [roundsWithRom, ih, roundsF, rnd, iota]

/-- Up to round i nothing differs, round i makes the states differ in lane (0, 0), and the rounds after it, alike for both, keep
different states different. -/
theorem roundsWithRom_ne {rom : Nat → Lane} {i : Nat} (h : rom i ≠ rcRom i) (hother : ∀ j, j ≠ i → rom j = rcRom j)
    (A : Lanes) {n : Nat} (hn : i < n) : roundsWithRom rom A n ≠ roundsWithRom rcRom A n := by
  induction n, hn using Nat.le_induction with
  | base =>
    rw [roundsWithRom, roundsWithRom, roundsWithRom_congr A fun j hj => hother j (by omega)]
    exact iotaWith_ne h _
  | succ n hn ih =>
    rw [roundsWithRom, roundsWithRom, hother n (by omega)]
    exact (rnd_injective n).ne ih

/-- Settles O28: the ROM with one constant changed is another ROM in that one place. -/
theorem everyRoundConstantMatters : Obligations.EveryRoundConstantMatters := by
  unfold Obligations.EveryRoundConstantMatters
  have hF : ∀ A, roundsWithRom rcRom A 24 = keccakF A := fun A => by rw [roundsWithRom_rcRom, keccakF]
  refine ⟨hF, fun i c A hi hc => ?_⟩
  rw [← hF]
  exact roundsWithRom_ne (by simpa using hc) (fun j hj => if_neg hj) A hi

end Sys2Proof.Proofs
end

section
/-! PROOF. The known answer (spec 41_round_function.md R157, 95_test_vectors.md section 2.9). The round is evaluated as R158's one
pass, with Theta's five effects and the 25 lanes of B in tables, so that each is computed once and not at each of its uses. -/

namespace Sys2Proof.Proofs

open Sys2Proof Sys2Proof.Machine Sys2Proof.Laws

/-- Theta's effects, column by column. -/
def effectTable (A : Lanes) : List Lane := (List.range 5).map (thetaEffect A)

/-- The lanes of B, by R129's network. -/
def fusedTable (A : Lanes) : List Lane :=
  let D := effectTable A
  rhoPiTable.map fun p => rotl64 (lane A (p.1 % 5) (p.1 / 5) ^^^ D.getD (p.1 % 5) 0) p.2

/-- R158's pass over the table of B. -/
def tableRnd (A : Lanes) (i : Nat) : Lanes :=
  let B := fusedTable A
  lanesXY fun x y =>
    let v := B.getD (x + 5 * y) 0 ^^^ (~~~B.getD ((x + 1) % 5 + 5 * y) 0 &&& B.getD ((x + 2) % 5 + 5 * y) 0)
    if x = 0 ∧ y = 0 then v ^^^ rcRom i else v

/-- The first n rounds, each by the tables. -/
def tableRounds (A : Lanes) : Nat → Lanes
  | 0 => A
  | n + 1 => tableRnd (tableRounds A n) n

theorem effectTable_getD (A : Lanes) {x : Nat} (hx : x < 5) : (effectTable A).getD x 0 = thetaEffect A x := by
  simp [effectTable, hx]

theorem fusedTable_getD (A : Lanes) {j : Nat} (hj : j < 25) : (fusedTable A).getD j 0 = fusedB A j := by
  have hlength : j < rhoPiTable.length := hj
  simp only [fusedTable, effectTable_getD A (Nat.mod_lt _ (by decide : 0 < 5))]
  rw [List.getD_eq_getElem _ _ (by rwa [List.length_map]), List.getElem_map, fusedB, List.getD_eq_getElem _ _ hlength]

theorem tableRnd_eq (A : Lanes) (i : Nat) : tableRnd A i = rnd A i := by
  rw [← fusedRoundIsRound A i]
  apply lanes_ext
  intro x y hx hy
  have hB : ∀ x, (fusedTable A).getD (x % 5 + 5 * y) 0 = fusedB A (x % 5 + 5 * y) := fun x =>
    fusedTable_getD A (by omega)
  have hBx := fusedTable_getD A (j := x + 5 * y) (by omega)
  simp only [tableRnd, fusedRnd, lane_lanesXY, Nat.mod_eq_of_lt hx, Nat.mod_eq_of_lt hy, hB, hBx]

theorem tableRounds_eq (A : Lanes) (n : Nat) : tableRounds A n = roundsF A n := by
  induction n with
  | zero => rfl
  | succ n ih => rw [tableRounds, roundsF, ih, tableRnd_eq]

theorem keccakF_eq_tableRounds (A : Lanes) : keccakF A = tableRounds A 24 := by
  rw [tableRounds_eq, keccakF]

/-- Settles O29: with F by the tables, the kernel evaluates both lanes. -/
theorem zeroStateKnownAnswer : Obligations.ZeroStateKnownAnswer := by
  unfold Obligations.ZeroStateKnownAnswer
  rw [keccakF_eq_tableRounds]
  decide +kernel

end Sys2Proof.Proofs
end

section
/-! PROOF. The uses of an unwritten pointer that are refused, and the two commands that need no IN_PTR (spec 10_state.md R48). -/

namespace Sys2Proof.Proofs

open Sys2Proof Sys2Proof.Machine Sys2Proof.Laws

/-- An idle engine refuses every word while a pointer it needs is unwritten. -/
theorem writeCmd_of_unwritten {w : Word} {s : State} (hb : s.eng.busy = false)
    (h : s.eng.statePtrWritten = false ∨ (wordNeedsInput w = true ∧ s.eng.inPtrWritten = false)) :
    writeCmd w s = .refused .unwrittenPointer := by
  rw [writeCmd, if_neg (ne_true_of_eq_false hb)]
  rcases h with hsp | ⟨hneeds, hip⟩
  · simp [hsp]
  · simp [hneeds, hip]

@[simp] theorem wordNeedsInput_encode_permute : wordNeedsInput (encode .permute) = false := by simp [wordNeedsInput]

/-- Of the ABSORB words, all but that of LEN = 0. -/
@[simp] theorem wordNeedsInput_encode_absorb (len : BitVec 8) : wordNeedsInput (encode (.absorb len)) = (len != 0) := by
  simp [wordNeedsInput]

/-- On a platform without HOST_RELEASE, a word that needs no IN_PTR is accepted once STATE_PTR is written. -/
theorem writeCmd_of_noInput {w : Word} {s : State} (hb : s.eng.busy = false) (hsp : s.eng.statePtrWritten = true)
    (hrel : s.params.hostRelease = false) (hw : wordNeedsInput w = false) : writeCmd w s = .next (acceptCmd w s) := by
  have hreleased : releaseMissing w s = false := by simp [releaseMissing, hrel]
  rw [writeCmd_of_ready hb hsp (by simp [hw]), if_neg (ne_true_of_eq_false hreleased)]

/-- Settles O40: the two reads, the CMD writes by the pointer that is unwritten, and the two words that need no input. -/
theorem unwrittenPointersRefused : Obligations.UnwrittenPointersRefused := by
  unfold Obligations.UnwrittenPointersRefused
  refine ⟨fun s hsp => ?readState, fun s hip => ?readInput, fun s w hb hsp => ?anyCommand, fun s len hb hip hlen => ?absorb,
    fun s hb hsp hrel => ⟨⟨_, writeCmd_of_noInput hb hsp hrel ?permute⟩, _, writeCmd_of_noInput hb hsp hrel ?absorbZero⟩⟩
  case readState => rw [readReg_statePtr, if_neg (ne_true_of_eq_false hsp)]
  case readInput => rw [readReg_inPtr, if_neg (ne_true_of_eq_false hip)]
  case anyCommand => exact writeCmd_of_unwritten hb (.inl hsp)
  case absorb => exact writeCmd_of_unwritten hb (.inr ⟨by simpa using hlen, hip⟩)
  case permute => exact wordNeedsInput_encode_permute
  case absorbZero => exact wordNeedsInput_encode_absorb 0

end Sys2Proof.Proofs
end
